-- ==== Sys2Proof/Word.lean ====
section
/-! DEFINITION. The word type of the block: the byte (00_scope.md section 5.1; every buffer, the wire and the firmware
image are sequences of bytes, and every quantity is unsigned). -/

namespace Sys2Proof

/-- A byte, 8 bits, bit 0 the least significant (00_scope.md section 5.1). -/
abbrev Byte := BitVec 8

end Sys2Proof
end

