-- ==== Sys2Proof/Config.lean ====
section
/-! DEFINITION. The protocol's constants in one place (00_scope.md R1 to R7) and what the spec leaves open: the
parameters of R8, the deadline in ticks (R6, 10_state.md R23) and the free value of 41_transport_guard.md R103. -/

namespace Sys2Proof.Config

/-- First sync byte (R2). -/
def sync1 : Byte := 0x57
/-- Second sync byte (R2). -/
def sync2 : Byte := 0xAB

/-- Command code of Program (R3). -/
def cmdProgram : Byte := 0x80
/-- Command code of Erase (R3). -/
def cmdErase : Byte := 0x81
/-- Command code of Verify (R3). -/
def cmdVerify : Byte := 0x82
/-- Command code of End (R3). -/
def cmdEnd : Byte := 0x83

/-- Most payload bytes of a frame, and the chunk size of the firmware transfer (R4). -/
def maxPayload : Nat := 60
/-- Longest firmware image (R5). -/
def capacity : Nat := 16384
/-- Largest offset a Program or Verify frame carries (30_encoding.md R67; 43_sequencer.md R130). -/
def maxOffset : Nat := 16380
/-- Size of the frame buffer, the longest frame (10_state.md R16). -/
def frameCapacity : Nat := 67
/-- Length of an acknowledgment (R7). -/
def ackLen : Nat := 2
/-- Status byte of a success acknowledgment (R7). -/
def ackOk : Byte := 0x00
/-- The reference deadline of one transport call, in seconds (R6). No rule depends on the number. -/
def referenceDeadlineSeconds : Nat := 1

/-- `ERASE_LEN`, the length byte of the Erase frame: an open parameter, fixed for the life of the block (R8, D3).
No body: nothing can be proved of its value (log 8). -/
opaque eraseLen : Byte

/-- `END_LEN`, the length byte of the End frame: an open parameter (R8, D3; log 8). -/
opaque endLen : Byte

/-- `DEADLINE_TICKS - 1`: `DEADLINE * TICK_HZ` is open (R6, D14), known only to be at least 1 (10_state.md R23; log 9). -/
opaque deadlineTicksLessOne : Nat

/-- `DEADLINE_TICKS`, the timer's load value, at least 1 (10_state.md R23). -/
def deadlineTicks : Nat := deadlineTicksLessOne + 1

/-- FREE VALUE. How many bytes the Transport accepts of a write it does not complete with a count: "some prefix of the
frame, of unknown length" (41_transport_guard.md R103, D24), fresh for each number of the counter `drawn`. It is cut to
the bytes there are, so that every length from 0 to all of them is one of its values (log 12). -/
opaque acceptedPart : Nat → Nat

end Sys2Proof.Config
end

