-- ==== Sys2Proof/Machine/State.lean ====
section
/-! DEFINITION. The state of the block as plain data (10_state.md R10 to R36), what the other agents hold, the events
they offer, the reasons a step stops, and the state after reset. -/

namespace Sys2Proof.Machine

/-- `PHASE` (10_state.md R19): the codes are in Flags.lean. -/
inductive Phase where
  | idle
  | erasing
  | writingFirmware
  | verifyingFirmware
  | ending
  | complete
  | failed
deriving DecidableEq, Repr

/-- `STEP` (10_state.md R20): `S_BUILD`, `S_SEND`, `S_RECV`. -/
inductive RoundStep where
  | build
  | send
  | recv
deriving DecidableEq, Repr

/-- `FBST` (10_state.md R17): `FB_IDLE`, `FB_OPEN`. -/
inductive FrameState where
  | idle
  | opened
deriving DecidableEq, Repr

/-- `TGST` (10_state.md R22): `TG_IDLE`, `TG_WRITING`, `TG_READING`. -/
inductive GuardState where
  | idle
  | writing
  | reading
deriving DecidableEq, Repr

/-- `ERRKIND` (10_state.md R26). -/
inductive ErrKind where
  | none
  | oversizedImage
  | transportTimeout
  | transportError
  | malformedAcknowledgment
  | deviceRejected
  | shortWrite
deriving DecidableEq, Repr

/-- `ERRPHASE` (10_state.md R27): the tags `none`, `erase`, `write`, `verify`, `end`. -/
inductive ErrPhase where
  | none
  | erase
  | write
  | verify
  | ending
deriving DecidableEq, Repr

/-- The byte spaces with addresses (10_state.md R32). -/
inductive Space where
  | img
  | fbuf
  | rxbuf
deriving DecidableEq, Repr

/-- The contents of one byte space: (address, byte) cells, addresses strictly rising. An address that is not listed
holds no value: reading it faults (10_state.md R15, R36; 93_implementation_defined.md U12; log 10). -/
abbrev Memory := List Host.Cell

/-- The outcome of a guarded call (41_transport_guard.md R90). -/
inductive CallOutcome where
  | success
  | timeout
  | transportError
  | shortWrite
  | malformed
deriving DecidableEq, Repr

/-- A firmware source as the Caller hands it over (00_scope.md section 7; 43_sequencer.md R121): the bytes of its first
reading, the bytes of its second reading, and whether reading it works (log 16). -/
structure Source where
  bytes : List Byte
  again : List Byte
  readable : Bool
deriving DecidableEq, Repr

/-- What the agents other than the Sequencer may do next (30_encoding.md R73, 60_exceptions.md R147, R164; log 1). -/
inductive Event where
  /-- `FB.CLEAR` by a user of the bare Frame Builder (R80; log 18). -/
  | fbClear
  /-- `FB.HEADER` (R81; log 18). -/
  | fbHeader (cmd len a1 a2 : Byte)
  /-- `FB.APPEND` (R82; log 18). -/
  | fbAppend (b : Byte)
  /-- `FB.FINALIZE` (R83; log 18). -/
  | fbFinalize
  /-- `TG.TICK`, the Timer (R93). -/
  | tick
  /-- `TG.EXPIRE`, the Timer (R94). -/
  | expire
  /-- `TG.WDONE id, n, err`, the Transport (R95). -/
  | wdone (id n : Nat) (err : Bool)
  /-- `TG.RDONE id, bytes, eof, err`, the Transport (R96). -/
  | rdone (id : Nat) (bytes : List Byte) (eof err : Bool)
  /-- `TG.LATE id`, the Straggler (R97). -/
  | late (id : Nat)
  /-- `SEQ.START img`, the Caller (R120). -/
  | seqStart (src : Source)
  /-- `RESULT`, the Caller (R133). -/
  | result
  /-- The Caller opens the transport handle (R164, R173). -/
  | openTransport
  /-- The Caller closes the transport handle (R164). -/
  | closeTransport
  /-- A reset of the block (R170, R171; log 13). -/
  | reset
deriving DecidableEq, Repr

/-- A call alive in the Transport: its tag and the bytes of its own copy that are still to be accepted, none for a read
(41_transport_guard.md R91, R92; 20_memory.md R57). -/
structure Call where
  tag : Nat
  bytes : List Byte
deriving DecidableEq, Repr

/-- What `RESULT` returns (43_sequencer.md R133). -/
structure Result where
  phase : Phase
  errkind : ErrKind
  errphase : ErrPhase
  errstatus : Byte
deriving DecidableEq, Repr

/-- The machine: the registers of the block (10_state.md R10), the image it reads, and the other agents' part. -/
structure State where
  /-- `ACC`, the checksum accumulator (R11). -/
  acc : Byte
  /-- `FBUF[0..66]` (R16). -/
  fbuf : Memory
  /-- `FLEN` (R16). -/
  flen : BitVec 7
  /-- `FBST` (R17). -/
  fbst : FrameState
  /-- `OFFSET` (R12). -/
  offset : BitVec 16
  /-- `CHUNK` (R13). -/
  chunk : BitVec 6
  /-- `ILEN` (R14). -/
  ilen : BitVec 15
  /-- `PHASE` (R19). -/
  phase : Phase
  /-- `STEP` (R20). -/
  rstep : RoundStep
  /-- `TGST` (R22). -/
  tgst : GuardState
  /-- `TIMER` (R23). -/
  timer : Nat
  /-- `TXLEN` (R22). -/
  txlen : BitVec 7
  /-- `CALLID` (R24). -/
  callid : Nat
  /-- `RXBUF[0..1]` (R18). -/
  rxbuf : Memory
  /-- `RXN` (R18). -/
  rxn : BitVec 2
  /-- `ERRKIND` (R26). -/
  errkind : ErrKind
  /-- `ERRPHASE` (R27). -/
  errphase : ErrPhase
  /-- `ERRSTATUS` (R28). -/
  errstatus : Byte
  /-- `STRAGGLERS`, a set of tags kept as a strictly rising list (R33). -/
  stragglers : List Nat
  /-- `IMG`, the firmware image of the session (R32, 20_memory.md R40). -/
  img : Memory
  /-- The Transport's part: the bytes it has accepted onto the wire, in order (R32; 41_transport_guard.md R103). -/
  wire : List Byte
  /-- The Transport's part: the calls alive in it, oldest first (R34; 41_transport_guard.md R91). -/
  calls : List Call
  /-- The Caller's part: the handle is open (43_sequencer.md R121). -/
  handleOpen : Bool
  /-- The events the other agents will offer, next first (log 1). -/
  inbox : List Event
  /-- The Caller's part: the answers of its `RESULT` reads, oldest first (43_sequencer.md R133; log 30). -/
  results : List Result
  /-- The model's own counter of free values used (log 12). -/
  drawn : Nat
deriving DecidableEq, Repr

/-- Why the machine faults. Each is a model's fault of 93_implementation_defined.md section 1. -/
inductive Fault where
  /-- Raised by a read of `n` bytes at `a` of a space where some byte was never written (10_state.md R15, U12). Safe:
  no rule of the spec reads such a byte, and no value is assumed for it (log 10). -/
  | unwrittenByte (sp : Space) (a n : Nat)
deriving DecidableEq, Repr

/-- Why an operation is refused: the spec's `refuse`, "the operation is not admitted" (00_scope.md section 5.2). -/
inductive Refusal where
  /-- Raised by an arm of `exec` whose instruction has no meaning yet. Safe. -/
  | notModelled (mnemonic : String)
  /-- Raised by `FB.HEADER` with a frame open (R81, R89). Safe. -/
  | headerOnOpenFrame
  /-- Raised by `FB.APPEND` with no frame open (R82, R89). Safe. -/
  | appendWithoutHeader
  /-- Raised by `FB.APPEND` of a 61st payload byte (R82, R89). Safe. -/
  | payloadFull
  /-- Raised by `FB.FINALIZE` with no frame open (R83, R89). Safe. -/
  | finalizeWithoutHeader
  /-- Raised by an access outside the `requires` clause of 20_memory.md R41. Safe. -/
  | outOfRange (sp : Space) (a n : Nat)
  /-- Raised by `TG.WRITE` and `TG.READ` while a call is pending (R91, R92). Safe. -/
  | callPending
  /-- Raised by `TG.WRITE` while a frame is open (R91). Safe. -/
  | frameOpen
  /-- Raised by `TG.WRITE` with no finished frame in the buffer (R91). Safe. -/
  | noFrame
  /-- Raised by `TG.EXPIRE` with no call pending or time left (R94). Safe. -/
  | notExpired
  /-- Raised by a completion whose tag names no call it can complete (R95, R96, R97). Safe. -/
  | noSuchCall (id : Nat)
  /-- Raised by a write completion that reports more bytes than were asked (R95, U7). Safe. -/
  | countTooLarge (n : Nat)
  /-- Raised by a read completion of more than 2 bytes (R96). Safe. -/
  | readTooLong (n : Nat)
  /-- Raised when an outcome meets a Sequencer that waits for no such outcome; 42_commands.md R110 gives no reaction,
  and no run reaches it (log 20). Safe. -/
  | outcomeNotAwaited (o : CallOutcome)
  /-- Raised by `ACK.CHECK` when not exactly 2 bytes were received (R117). Safe. -/
  | ackIncomplete
  /-- Raised by an acknowledgment when no read is pending (R96; log 6). Safe. -/
  | noReadPending
  /-- Raised by a wire command outside the phase it is sent in (R111 to R114; log 7). Safe. -/
  | outOfPhase
  /-- Raised by a wire command while its round is not at `S_BUILD` (R110; log 7). Safe. -/
  | roundInProgress
  /-- Raised by `SEQ.START` while a session runs (R135). Safe. -/
  | sessionRunning
  /-- Raised by `SEQ.START` over a bare frame left open, where R120 has `FBST = FB_IDLE` (log 19). Safe. -/
  | bareFrameOpen
  /-- Raised by `SEQ.START` on a closed handle: premise `TRANSPORT_OPEN` (R121). Safe. -/
  | transportClosed
  /-- Raised by `SEQ.START` over a live abandoned call: premise `NO_STRAGGLERS` (R121). Safe. -/
  | stragglersAlive
  /-- Raised by `SEQ.START` on a source that changes: premise `SOURCE_STABLE` (R121). Safe. -/
  | sourceNotStable
  /-- Raised by `SEQ.START` on a source that cannot be read: premise `SOURCE_READABLE` (R121). Safe. -/
  | sourceNotReadable
  /-- Raised by a bare Frame Builder operation while a session owns the builder (10_state.md R38; log 18). Safe. -/
  | builderOwned
  /-- Raised by opening or closing the handle while a session runs (60_exceptions.md R164; log 27). Safe. -/
  | handleInUse
deriving DecidableEq, Repr

/-- The state after reset (10_state.md R36, 70_reset_and_hazards.md R170, R172). The buffers are unspecified there and
list nothing. The other agents' part is empty, nothing queued, the handle not yet open (log 11). -/
def State.reset : State where
  acc := 0
  fbuf := []
  flen := 0
  fbst := .idle
  offset := 0
  chunk := 0
  ilen := 0
  phase := .idle
  rstep := .build
  tgst := .idle
  timer := 0
  txlen := 0
  callid := 0
  rxbuf := []
  rxn := 0
  errkind := .none
  errphase := .none
  errstatus := 0
  stragglers := []
  img := []
  wire := []
  calls := []
  handleOpen := false
  inbox := []
  results := []
  drawn := 0

end Sys2Proof.Machine
end

