-- ==== Sys2Proof/Machine/Flags.lean ====
section
/-! DEFINITION. Status flags and classifications: BUSY, DONE, FAIL (10_state.md R25), the numeric codes of the
enumerations (R17, R19, R20, R22, R26, R27), the phase tags of a failure (60_exceptions.md R162) and the outcome of a
completion (R149). -/

namespace Sys2Proof.Machine

/-- `BUSY`: a session runs (10_state.md R25). -/
def busy : Phase → Bool
  | .idle => false
  | .erasing => true
  | .writingFirmware => true
  | .verifyingFirmware => true
  | .ending => true
  | .complete => false
  | .failed => false

/-- `DONE` (10_state.md R25). -/
def done (p : Phase) : Bool := p == .complete

/-- `FAIL` (10_state.md R25). -/
def fail (p : Phase) : Bool := p == .failed

/-- The phases whose round waits for an acknowledgment (42_commands.md R110, R114). -/
def awaitsAck : Phase → Bool
  | .idle => false
  | .erasing => true
  | .writingFirmware => true
  | .verifyingFirmware => true
  | .ending => false
  | .complete => false
  | .failed => false

/-- The code of `PHASE` (10_state.md R19, D5). -/
def phaseCode : Phase → BitVec 3
  | .idle => 0
  | .erasing => 1
  | .writingFirmware => 2
  | .verifyingFirmware => 3
  | .ending => 4
  | .complete => 5
  | .failed => 6

/-- The code of `STEP` (10_state.md R20, D6). -/
def stepCode : RoundStep → BitVec 2
  | .build => 0
  | .send => 1
  | .recv => 2

/-- The code of `FBST` (10_state.md R17). -/
def frameCode : FrameState → BitVec 1
  | .idle => 0
  | .opened => 1

/-- The code of `TGST` (10_state.md R22, D6). -/
def guardCode : GuardState → BitVec 2
  | .idle => 0
  | .writing => 1
  | .reading => 2

/-- The code of `ERRKIND` (10_state.md R26, D7). -/
def kindCode : ErrKind → BitVec 3
  | .none => 0
  | .oversizedImage => 1
  | .transportTimeout => 2
  | .transportError => 3
  | .malformedAcknowledgment => 4
  | .deviceRejected => 5
  | .shortWrite => 6

/-- The code of `ERRPHASE` (10_state.md R27, D8). -/
def tagCode : ErrPhase → BitVec 3
  | .none => 0
  | .erase => 1
  | .write => 2
  | .verify => 3
  | .ending => 4

/-- The tag of a failure raised in a phase; `none` where only `SEQ.START` raises one (10_state.md R27, 60_exceptions.md
R150, R162). -/
def phaseTag : Phase → ErrPhase
  | .idle => .none
  | .erasing => .erase
  | .writingFirmware => .write
  | .verifyingFirmware => .verify
  | .ending => .ending
  | .complete => .none
  | .failed => .none

/-- The outcome of a write completion: an error report first, then the count (41_transport_guard.md R95, R149). -/
def writeOutcome (n requested : Nat) (err : Bool) : CallOutcome :=
  if err then .transportError else if n = requested then .success else .shortWrite

/-- The outcome of a read completion: error, two bytes, closed stream, short return, in that order
(41_transport_guard.md R96, R149). -/
def readOutcome (n : Nat) (eof err : Bool) : CallOutcome :=
  if err then .transportError
  else if n = Config.ackLen then .success
  else if eof then .transportError
  else .malformed

end Sys2Proof.Machine
end

