-- ==== Sys2Proof/Syntax.lean ====
section
/-! DEFINITION. The encoded things of the block, one constructor per row of spec/opcode_table.json
(30_encoding.md R67): the four wire commands it sends and the two forms of the acknowledgment it receives. -/

namespace Sys2Proof

/-- The rows of the opcode table, with the operands 42_commands.md gives them. `ERASE_LEN` and `END_LEN` are parameters
of the block and no operands (R111, R114); the payload of a Program or Verify frame is read from the image (R112). -/
inductive Instr where
  /-- `ERASE` (R111). -/
  | erase
  /-- `PROGRAM off, n` (R112): the image offset of the chunk and its size. -/
  | program (off : BitVec 16) (n : Byte)
  /-- `VERIFY off, n` (R113). -/
  | verify (off : BitVec 16) (n : Byte)
  /-- `END` (R114). -/
  | endCmd
  /-- `ACK_OK` (R115): status 0 and the reserved byte. -/
  | ackOk (reserved : Byte)
  /-- `ACK_FAIL` (R116): a nonzero status and the reserved byte. -/
  | ackFail (status reserved : Byte)
deriving DecidableEq, Repr

end Sys2Proof
end

