-- ==== Sys2Proof/WellFormed.lean ====
section
/-! DEFINITION. Which terms of `Instr` stand for an encoded thing of the spec, by the constraints column of 30_encoding.md
R67; and which of them a session over an image sends, by the further operand ranges of 42_commands.md R112 and R113. -/

namespace Sys2Proof

/-- What can be wrong with the operands of an instruction. -/
inductive Defect where
  /-- A Program or Verify chunk of 0 bytes (R75: never emitted). -/
  | emptyChunk
  /-- A chunk of more than 60 bytes (R75: the values 61 to 255 are unused). -/
  | chunkOverSixty
  /-- An offset above 16380 (R67, R112). -/
  | offsetTooHigh
  /-- A failure acknowledgment with status 0 (R67, R116). -/
  | statusZero
  /-- An offset that is no multiple of 60: encoded all the same, and sent by no session (R112; log 33). -/
  | offsetNotChunkStart
  /-- A chunk that ends past `ILEN`: encoded all the same, and sent by no session (R112; log 33). -/
  | chunkPastImage
deriving DecidableEq, Repr

/-- The first constraint of R67's row that the chunk at `off` of size `n` breaks. -/
def chunkDefect (off : BitVec 16) (n : Byte) : Option Defect :=
  if n.toNat = 0 then some .emptyChunk
  else if Config.maxPayload < n.toNat then some .chunkOverSixty
  else if Config.maxOffset < off.toNat then some .offsetTooHigh
  else none

/-- The first constraint of its row of R67 that an instruction breaks. -/
def Instr.defect : Instr → Option Defect
  | .erase => none
  | .program off n => chunkDefect off n
  | .verify off n => chunkDefect off n
  | .endCmd => none
  | .ackOk _ => none
  | .ackFail status _ => if status = Config.ackOk then some .statusZero else none

/-- An instruction that keeps every constraint of its row of R67. -/
abbrev Instr.WellFormed (i : Instr) : Prop := i.defect = none

/-- The first further range of R112 that the chunk at `off` of size `n` breaks, for an image of `ilen` bytes. -/
def chunkRangeDefect (off : BitVec 16) (n : Byte) (ilen : Nat) : Option Defect :=
  if off.toNat % Config.maxPayload ≠ 0 then some .offsetNotChunkStart
  else if ilen < off.toNat + n.toNat then some .chunkPastImage
  else none

/-- The first further operand range of R112 and R113 that an instruction breaks, for an image of `ilen` bytes (log 33). -/
def Instr.rangeDefect (ilen : Nat) : Instr → Option Defect
  | .erase => none
  | .program off n => chunkRangeDefect off n ilen
  | .verify off n => chunkRangeDefect off n ilen
  | .endCmd => none
  | .ackOk _ => none
  | .ackFail _ _ => none

/-- An instruction that a session over an image of `ilen` bytes can meet: well formed, and in the ranges of R112. -/
abbrev Instr.InSession (ilen : Nat) (i : Instr) : Prop := i.WellFormed ∧ i.rangeDefect ilen = none

end Sys2Proof
end

