-- ==== Sys2Proof/Decode.lean ====
section
/-! DEFINITION. Decoding and encoding of frames and acknowledgments (30_encoding.md). The header pattern of a frame is
its six first bytes (R67, match and mask); a whole frame is header, payload and checksum (R60). The block itself parses
no frame (R71): the frame decoder is the reader of the wire that R71 speaks of. The acknowledgment decoder is what
`ACK.CHECK` decides (R66, R117). -/

namespace Sys2Proof

/-- Why bytes are no frame or no acknowledgment. -/
inductive DecodeError where
  /-- Fewer bytes than the form has. -/
  | truncated
  /-- The first two bytes are not the sync bytes (R60). -/
  | badSync
  /-- The command byte is none of the four codes (R62, R68). -/
  | unknownCommand (c : Byte)
  /-- An Erase or End frame whose address bytes are not zero (R64). -/
  | argsNotZero
  /-- An operand outside its range (R67's constraints). -/
  | illFormed (d : Defect)
  /-- An Erase or End frame whose length byte is not the parameter (R63). -/
  | wrongLengthByte
  /-- The checksum byte is not the sum (R65). -/
  | badChecksum
  /-- An acknowledgment has no payload and no checksum (R66): it is no frame. -/
  | notAFrame
deriving DecidableEq, Repr

/-- The arithmetic sum modulo 256 of a byte sequence (R65, 40_frame_builder.md R84). -/
def sumBytes : List Byte → Byte
  | [] => 0
  | b :: bs => b + sumBytes bs

/-- The low byte of an address, sent first (R64, 20_memory.md R42). -/
def arg1Of (off : BitVec 16) : Byte := off.extractLsb' 0 8

/-- The high byte of an address (R64, 20_memory.md R42). -/
def arg2Of (off : BitVec 16) : Byte := off.extractLsb' 8 8

/-- The address of two argument bytes, the first the low one (R64). -/
def offsetOf (a1 a2 : Byte) : BitVec 16 := a2 ++ a1

/-- Accept an instruction whose operands keep the constraints of its row, and name the broken one otherwise. -/
def accept (i : Instr) (rest : List Byte) : Except DecodeError (Instr × List Byte) :=
  match i.defect with
  | none => .ok (i, rest)
  | some d => .error (.illFormed d)

/-- The command a header's four bytes after the sync bytes stand for (R67). Byte 3 of Erase and End is outside the
table's mask and is compared only by `decodeFrame` (log 8). -/
def decodeCommand (cmd len a1 a2 : Byte) (rest : List Byte) : Except DecodeError (Instr × List Byte) :=
  if cmd = Config.cmdErase then
    if a1 = 0 ∧ a2 = 0 then .ok (.erase, rest) else .error .argsNotZero
  else if cmd = Config.cmdProgram then accept (.program (offsetOf a1 a2) len) rest
  else if cmd = Config.cmdVerify then accept (.verify (offsetOf a1 a2) len) rest
  else if cmd = Config.cmdEnd then
    if a1 = 0 ∧ a2 = 0 then .ok (.endCmd, rest) else .error .argsNotZero
  else .error (.unknownCommand cmd)

/-- Decode the six header bytes of a frame; the bytes after them are given back (R60, R67). -/
def decodeHeader : List Byte → Except DecodeError (Instr × List Byte)
  | s1 :: s2 :: cmd :: len :: a1 :: a2 :: rest =>
    if s1 = Config.sync1 ∧ s2 = Config.sync2 then decodeCommand cmd len a1 a2 rest else .error .badSync
  | _ => .error .truncated

/-- The acknowledgment that two received bytes are: every pair is one (R66, R115, R116). -/
def ackInstr (status reserved : Byte) : Instr :=
  if status = Config.ackOk then .ackOk reserved else .ackFail status reserved

/-- Decode an acknowledgment; the bytes after it are given back (R66). -/
def decodeAck : List Byte → Except DecodeError (Instr × List Byte)
  | status :: reserved :: rest => .ok (ackInstr status reserved, rest)
  | _ => .error .truncated

/-- Which way bytes travel: R76, the frame is the one format sent and the acknowledgment the one received. -/
inductive Direction where
  | sent
  | received
deriving DecidableEq, Repr

/-- Decode the table's pattern at the front of a byte sequence, by its direction. -/
def decode : Direction → List Byte → Except DecodeError (Instr × List Byte)
  | .sent, bytes => decodeHeader bytes
  | .received, bytes => decodeAck bytes

/-- The direction in which a row of the table travels. -/
def Instr.direction : Instr → Direction
  | .erase => .sent
  | .program _ _ => .sent
  | .verify _ _ => .sent
  | .endCmd => .sent
  | .ackOk _ => .received
  | .ackFail _ _ => .received

/-- The six header bytes of a frame (R60). -/
def headerBytes (cmd len a1 a2 : Byte) : List Byte :=
  [Config.sync1, Config.sync2, cmd, len, a1, a2]

/-- Encode an instruction as the bytes of its row's pattern: six header bytes, or two acknowledgment bytes (R67). -/
def encode : Instr → List Byte
  | .erase => headerBytes Config.cmdErase Config.eraseLen 0 0
  | .program off n => headerBytes Config.cmdProgram n (arg1Of off) (arg2Of off)
  | .verify off n => headerBytes Config.cmdVerify n (arg1Of off) (arg2Of off)
  | .endCmd => headerBytes Config.cmdEnd Config.endLen 0 0
  | .ackOk reserved => [Config.ackOk, reserved]
  | .ackFail status reserved => [status, reserved]

/-- The bytes of a frame with its checksum: sync bytes, header, payload, and the sum of all but the sync bytes
(R60, R65). -/
def frameBytes (cmd len a1 a2 : Byte) (payload : List Byte) : List Byte :=
  headerBytes cmd len a1 a2 ++ payload ++ [cmd + len + a1 + a2 + sumBytes payload]

/-- The whole frame of a wire command with its payload; an acknowledgment has no frame around it (R66). -/
def encodeFrame (i : Instr) (payload : List Byte) : List Byte :=
  match i with
  | .erase => frameBytes Config.cmdErase Config.eraseLen 0 0 payload
  | .program off n => frameBytes Config.cmdProgram n (arg1Of off) (arg2Of off) payload
  | .verify off n => frameBytes Config.cmdVerify n (arg1Of off) (arg2Of off) payload
  | .endCmd => frameBytes Config.cmdEnd Config.endLen 0 0 payload
  | .ackOk reserved => [Config.ackOk, reserved]
  | .ackFail status reserved => [status, reserved]

/-- How many payload bytes follow the header: the length byte for Program and Verify, none for Erase and End whatever
their length byte holds (R71). -/
def payloadLength : Instr → Nat
  | .erase => 0
  | .program _ n => n.toNat
  | .verify _ n => n.toNat
  | .endCmd => 0
  | .ackOk _ => 0
  | .ackFail _ _ => 0

/-- Split a frame's tail into payload and the rest after a checksum byte that must equal `sum` plus the payload's sum. -/
def splitTail (i : Instr) (sum : Byte) (tail : List Byte) : Except DecodeError (Instr × List Byte × List Byte) :=
  match tail.drop (payloadLength i) with
  | [] => .error .truncated
  | ck :: rest =>
    if ck = sum + sumBytes (tail.take (payloadLength i)) then .ok (i, tail.take (payloadLength i), rest)
    else .error .badChecksum

/-- Whether the length byte is the one the command has: the parameters of R8 for Erase and End, any for the others,
where it is an operand (R63). -/
def lengthByteFits (i : Instr) (len : Byte) : Bool :=
  match i with
  | .erase => len == Config.eraseLen
  | .program _ _ => true
  | .verify _ _ => true
  | .endCmd => len == Config.endLen
  | .ackOk _ => true
  | .ackFail _ _ => true

/-- Read one whole frame off the wire: the command, its payload and the bytes after the frame (R60, R63, R65, R71). -/
def decodeFrame : List Byte → Except DecodeError (Instr × List Byte × List Byte)
  | s1 :: s2 :: cmd :: len :: a1 :: a2 :: tail =>
    match decodeHeader (s1 :: s2 :: cmd :: len :: a1 :: a2 :: tail) with
    | .error e => .error e
    | .ok (i, _) =>
      if lengthByteFits i len then splitTail i (cmd + len + a1 + a2) tail else .error .wrongLengthByte
  | _ => .error .truncated

/-- The `k` bytes of a table word, the first byte the most significant one: R67 reads the header bytes "as one 48-bit
number with byte 0 most significant", the acknowledgment's as a 16-bit number (log 22). -/
def bytesOfWord : Nat → Nat → List Byte
  | 0, _ => []
  | k + 1, w => BitVec.ofNat 8 (w / 256 ^ k) :: bytesOfWord k w

/-- The instruction the decoder reads from a word of the opcode table. The table gives a frame its 48 header bits and an
acknowledgment 16 bits, and the width tells the direction (log 22). -/
def decodeTableWord (nbits w : Nat) : Option Instr :=
  match decode (if nbits = 16 then .received else .sent) (bytesOfWord (nbits / 8) w) with
  | .ok (i, _) => some i
  | .error _ => none

end Sys2Proof
end

