-- ==== Sys2Proof/Machine/Operands.lean ====
section
/-! DEFINITION. The operand forms: the chunk a Program or Verify frame carries (43_sequencer.md R124, R130) and the
registers' values as numbers. -/

namespace Sys2Proof.Machine

/-- `min(60, ILEN - OFFSET)`, the size of the next chunk (10_state.md R13, 43_sequencer.md R124). -/
def nextChunk (s : State) : Nat := min Config.maxPayload (s.ilen.toNat - s.offset.toNat)

/-- The next chunk's size as the length byte of its frame (30_encoding.md R63). -/
def nextChunkByte (s : State) : Byte := BitVec.ofNat 8 (nextChunk s)

/-- The loop test `OFFSET < ILEN` (43_sequencer.md R124). -/
def moreToSend (s : State) : Bool := s.offset.toNat < s.ilen.toNat

/-- The size of a chunk as the register `CHUNK` holds it (10_state.md R13). -/
def chunkOf (n : Byte) : BitVec 6 := BitVec.ofNat 6 n.toNat

/-- `OFFSET + CHUNK` (43_sequencer.md R124, R126). -/
def advancedOffset (s : State) : BitVec 16 := s.offset + BitVec.ofNat 16 s.chunk.toNat

end Sys2Proof.Machine
end

