-- ==== Sys2Proof/Machine/Ops.lean ====
section
/-! DEFINITION. Operations over the byte spaces (20_memory.md R41), sets of tags (10_state.md R33), the Transport's part
(41_transport_guard.md R91, R103), and the failure entry (60_exceptions.md R150) with the way out of it beside it
(43_sequencer.md R120: there is no return, R153). Each register update has a name, so that lemmas say once what it does. -/

namespace Sys2Proof.Machine

/-- What an operation answers. -/
abbrev Out := Host.Outcome State Fault Refusal

/-- Go on with the next operation from the state the first one gives. -/
def andThen (o : Out) (k : State → Out) : Out :=
  match o with
  | .next s => k s
  | .fault r => .fault r
  | .refused r => .refused r

/-! ### Byte spaces -/

/-- The byte at an address, if one was written. -/
def Memory.read : Memory → Nat → Option Byte
  | [], _ => none
  | c :: m, a => if c.1 = a then some c.2 else Memory.read m a

/-- Write one byte, keeping the addresses rising. -/
def Memory.write : Memory → Nat → Byte → Memory
  | [], a, b => [(a, b)]
  | c :: m, a, b =>
    if a < c.1 then (a, b) :: c :: m
    else if a = c.1 then (a, b) :: m
    else c :: Memory.write m a b

/-- The `n` bytes at `a`, `a + 1`, ..., lowest address first, if all were written (20_memory.md R41). -/
def Memory.readBytes (m : Memory) (a : Nat) : Nat → Option (List Byte)
  | 0 => some []
  | n + 1 =>
    match Memory.read m a, Memory.readBytes m (a + 1) n with
    | some b, some bs => some (b :: bs)
    | _, _ => none

/-- Write a byte sequence at `a`, `a + 1`, ... (20_memory.md R41). -/
def Memory.writeBytes (m : Memory) (a : Nat) : List Byte → Memory
  | [] => m
  | b :: bs => Memory.writeBytes (Memory.write m a b) (a + 1) bs

/-- A byte sequence as the contents of a space, its first byte at `a`. -/
def Memory.ofBytes (a : Nat) : List Byte → Memory
  | [] => []
  | b :: bs => (a, b) :: Memory.ofBytes (a + 1) bs

/-- The canonical form: addresses strictly rising. No unlisted address reads as a byte, so no entry is superfluous. -/
abbrev Memory.wf (m : Memory) : Prop := m.Pairwise (fun c d => c.1 < d.1)

/-- The contents of a space. -/
def spaceOf (sp : Space) (s : State) : Memory :=
  match sp with
  | .img => s.img
  | .fbuf => s.fbuf
  | .rxbuf => s.rxbuf

/-- One byte of a space, if one was written there. -/
def readByte (sp : Space) (a : Nat) (s : State) : Option Byte := Memory.read (spaceOf sp s) a

/-- The `requires` clause of a read (20_memory.md R41). -/
def readAllowed (sp : Space) (a n : Nat) (s : State) : Bool :=
  match sp with
  | .img => a + n ≤ s.ilen.toNat && n ≤ Config.maxPayload
  | .fbuf => a + n ≤ s.flen.toNat
  | .rxbuf => a + n ≤ s.rxn.toNat

/-- `MemRead(sp, a, n)` and go on with the bytes: refused outside the `requires` clause (20_memory.md R41), a fault where
a byte was never written (10_state.md R15). -/
def memRead (sp : Space) (a n : Nat) (s : State) (k : List Byte → Out) : Out :=
  if readAllowed sp a n s then
    match Memory.readBytes (spaceOf sp s) a n with
    | some bs => k bs
    | none => .fault (.unwrittenByte sp a n)
  else .refused (.outOfRange sp a n)

/-! ### Sets of tags -/

/-- Add a tag to a set kept as a strictly rising list (10_state.md R33). -/
def insertTag (t : Nat) : List Nat → List Nat
  | [] => [t]
  | u :: us => if t < u then t :: u :: us else if t = u then u :: us else u :: insertTag t us

/-- Take a tag out of a set. -/
def removeTag (t : Nat) (us : List Nat) : List Nat := us.filter (fun u => u ≠ t)

/-! ### The Transport's part -/

/-- The bytes a live call still holds. -/
def callBytes (t : Nat) : List Call → List Byte
  | [] => []
  | c :: cs => if c.tag = t then c.bytes else callBytes t cs

/-- The call's bytes less its first `k`. -/
def advanceCall (t k : Nat) (c : Call) : Call :=
  if c.tag = t then ⟨c.tag, c.bytes.drop k⟩ else c

/-- The Transport accepts the first `k` bytes a call still holds, in order (41_transport_guard.md R103). -/
def acceptFirst (t k : Nat) (s : State) : State :=
  { s with
    wire := s.wire ++ (callBytes t s.calls).take k
    calls := s.calls.map (advanceCall t k) }

/-- The Transport accepts an unknown part of what a call still holds: the free value of 41_transport_guard.md R103
(log 12). -/
def acceptDrawn (t : Nat) (s : State) : State :=
  { acceptFirst t (Config.acceptedPart s.drawn) s with drawn := s.drawn + 1 }

/-- A call is gone from the Transport. -/
def dropCall (t : Nat) (s : State) : State :=
  { s with calls := s.calls.filter (fun c => c.tag ≠ t) }

/-! ### The failure entry and the new session -/

/-- `raise Kind(status)`, the failure entry, in one step (60_exceptions.md R150). The tag is read before `PHASE` is
changed. -/
def raise (kind : ErrKind) (status : Byte) (s : State) : State :=
  { s with
    errkind := kind
    errphase := phaseTag s.phase
    errstatus := if kind = .deviceRejected then status else 0
    phase := .failed
    rstep := .build }

/-- The first part of `SEQ.START`: create the Session, clear the error registers and the accumulator
(43_sequencer.md R120). It is the only way out of `Failed` (60_exceptions.md R153). -/
def createSession (s : State) : State :=
  { s with
    errkind := .none
    errphase := .none
    errstatus := 0
    offset := 0
    chunk := 0
    rstep := .build
    acc := 0 }

end Sys2Proof.Machine
end

