-- ==== Sys2Proof/Machine/FrameBuilder.lean ====
section
/-! DEFINITION. The Frame Builder operations (40_frame_builder.md R80 to R83, R88, R89). -/

namespace Sys2Proof.Machine

/-- `FB.CLEAR` (R80): the accumulator, and nothing else. -/
def fbClear (s : State) : State := { s with acc := 0 }

/-- The effect of `FB.HEADER` (R81): the six bytes at index 0, and the four header bytes added to the accumulator, which
is not loaded. -/
def putHeader (cmd len a1 a2 : Byte) (s : State) : State :=
  { s with
    fbuf := Memory.writeBytes s.fbuf 0 (headerBytes cmd len a1 a2)
    flen := 6
    acc := s.acc + cmd + len + a1 + a2
    fbst := .opened }

/-- The effect of `FB.APPEND` (R82). -/
def putPayloadByte (b : Byte) (s : State) : State :=
  { s with
    fbuf := Memory.write s.fbuf s.flen.toNat b
    flen := s.flen + 1
    acc := s.acc + b }

/-- The effect of `FB.FINALIZE` (R83): the accumulator is left as it is. -/
def putChecksum (s : State) : State :=
  { s with
    fbuf := Memory.write s.fbuf s.flen.toNat s.acc
    flen := s.flen + 1
    fbst := .idle }

/-- `FB.HEADER cmd, len, a1, a2` (R81). -/
def fbHeader (cmd len a1 a2 : Byte) (s : State) : Out :=
  if s.fbst = .idle then .next (putHeader cmd len a1 a2 s) else .refused .headerOnOpenFrame

/-- `FB.APPEND b` (R82). -/
def fbAppend (b : Byte) (s : State) : Out :=
  if s.fbst = .opened then
    if s.flen.toNat ≤ 65 then .next (putPayloadByte b s) else .refused .payloadFull
  else .refused .appendWithoutHeader

/-- `FB.FINALIZE` (R83). The write past the 67 bytes is refused by 20_memory.md R41; no run meets it. -/
def fbFinalize (s : State) : Out :=
  if s.fbst = .opened then
    if s.flen.toNat + 1 ≤ Config.frameCapacity then .next (putChecksum s)
    else .refused (.outOfRange .fbuf s.flen.toNat 1)
  else .refused .finalizeWithoutHeader

/-- `FB.APPEND` of each payload byte in ascending order (R88). -/
def fbAppendAll : List Byte → State → Out
  | [], s => .next s
  | b :: bs, s => andThen (fbAppend b s) (fbAppendAll bs)

/-- `FB.FRAME cmd, len, a1, a2, payload` (R88): header, appends, finalise, clear. -/
def fbFrame (cmd len a1 a2 : Byte) (payload : List Byte) (s : State) : Out :=
  andThen (fbHeader cmd len a1 a2 s) fun s1 =>
  andThen (fbAppendAll payload s1) fun s2 =>
  andThen (fbFinalize s2) fun s3 =>
  .next (fbClear s3)

end Sys2Proof.Machine
end

