-- ==== Sys2Proof/Machine/Guard.lean ====
section
/-! DEFINITION. The Transport Guard's own operations and its timer (41_transport_guard.md R91 to R94). -/

namespace Sys2Proof.Machine

/-- The effect of `TG.WRITE` (R91): a fresh tag, the length, the full deadline, and a call in the Transport with its own
copy of the bytes (20_memory.md R57). -/
def openWrite (bytes : List Byte) (s : State) : State :=
  { s with
    callid := s.callid + 1
    txlen := s.flen
    timer := Config.deadlineTicks
    tgst := .writing
    calls := s.calls ++ [⟨s.callid + 1, bytes⟩] }

/-- The effect of `TG.READ` (R92): a fresh tag, nothing received yet, the full deadline. -/
def openRead (s : State) : State :=
  { s with
    callid := s.callid + 1
    rxn := 0
    timer := Config.deadlineTicks
    tgst := .reading
    calls := s.calls ++ [⟨s.callid + 1, []⟩] }

/-- `TG.WRITE` (R91): one write call of the whole finished frame. -/
def tgWrite (s : State) : Out :=
  if s.tgst ≠ .idle then .refused .callPending
  else if s.fbst ≠ .idle then .refused .frameOpen
  else if s.flen.toNat < 7 then .refused .noFrame
  else memRead .fbuf 0 s.flen.toNat s fun bytes => .next (openWrite bytes s)

/-- `TG.READ` (R92): one read call of 2 bytes. -/
def tgRead (s : State) : Out :=
  if s.tgst = .idle then .next (openRead s) else .refused .callPending

/-- `TG.TICK` (R93): with no call pending, or no time left, it changes nothing. -/
def tgTick (s : State) : State :=
  if s.tgst ≠ .idle ∧ 0 < s.timer then { s with timer := s.timer - 1 } else s

/-- A completion disarms the timer and frees the guard (R95, R96). -/
def closeCall (s : State) : State := { s with timer := 0, tgst := .idle }

/-- An expiry abandons the call, which goes on living in the Transport (R94). -/
def abandonCall (s : State) : State :=
  { s with stragglers := insertTag s.callid s.stragglers, tgst := .idle }

/-- The two bytes of an acknowledgment, or fewer, come into `RXBUF` (R96). -/
def storeReceived (bytes : List Byte) (s : State) : State :=
  { s with rxn := BitVec.ofNat 2 bytes.length, rxbuf := Memory.writeBytes s.rxbuf 0 bytes }

end Sys2Proof.Machine
end

