-- ==== Sys2Proof/Machine/Sequencer.lean ====
section
/-! DEFINITION. The Session Sequencer: the command round and its reactions to outcomes (42_commands.md R110, R117), the
start of a session and the phase transitions (43_sequencer.md R120 to R128). -/

namespace Sys2Proof.Machine

/-- The frame of a round is built and its write issued (R110, at `S_BUILD`). -/
def sendRound (cmd len a1 a2 : Byte) (payload : List Byte) (s : State) : Out :=
  andThen (fbFrame cmd len a1 a2 payload s) fun s1 =>
  andThen (tgWrite s1) fun s2 =>
  .next { s2 with rstep := .send }

/-- A wire command begins only in its own phase and with no round in progress (R110 to R114; log 7). -/
def beginRound (p : Phase) (s : State) (k : Out) : Out :=
  if s.phase = p then
    if s.rstep = .build then k else .refused .roundInProgress
  else .refused .outOfPhase

/-- A Program or Verify round: `CHUNK` is set and the payload read from the image (R112, R113; 43_sequencer.md R124). -/
def chunkRound (p : Phase) (cmd : Byte) (off : BitVec 16) (n : Byte) (s : State) : Out :=
  beginRound p s <|
    memRead .img off.toNat n.toNat s fun payload =>
      sendRound cmd n (arg1Of off) (arg2Of off) payload { s with chunk := chunkOf n }

/-- `Erasing → WritingFirmware` (43_sequencer.md R122). -/
def enterWriting (s : State) : State :=
  { s with offset := 0, phase := .writingFirmware, rstep := .build }

/-- The acknowledged chunk is counted (43_sequencer.md R124, R126). -/
def countChunk (s : State) : State :=
  { s with offset := advancedOffset s, rstep := .build }

/-- `WritingFirmware → VerifyingFirmware` (43_sequencer.md R125). Re-obtaining the image gives the same bytes, by the
premise `SOURCE_STABLE` that `SEQ.START` checks (log 17). -/
def enterVerifying (s : State) : State :=
  { s with offset := 0, phase := .verifyingFirmware, rstep := .build }

/-- `Ending → Complete` (43_sequencer.md R128). -/
def completeSession (s : State) : State := { s with phase := .complete, rstep := .build }

/-- What a validated acknowledgment does in each phase (43_sequencer.md R122, R124, R126). -/
def roundSucceeds (s : State) : Out :=
  match s.phase with
  | .erasing => .next (enterWriting s)
  | .writingFirmware => .next (countChunk s)
  | .verifyingFirmware => .next (countChunk s)
  | .idle => .refused (.outcomeNotAwaited .success)
  | .ending => .refused (.outcomeNotAwaited .success)
  | .complete => .refused (.outcomeNotAwaited .success)
  | .failed => .refused (.outcomeNotAwaited .success)

/-- `ACK.CHECK` (R117): only byte 0 is examined. -/
def ackCheck (s : State) : Out :=
  if s.rxn.toNat = Config.ackLen then
    memRead .rxbuf 0 1 s fun bytes =>
      if bytes = [Config.ackOk] then roundSucceeds s
      else .next (raise .deviceRejected (bytes.headD 0) s)
  else .refused .ackIncomplete

/-- The write of an End frame completes the session; any other goes on to its acknowledgment (R110, R114). -/
def frameSent (s : State) : Out :=
  if s.phase = .ending then .next (completeSession s)
  else andThen (tgRead s) fun s1 => .next { s1 with rstep := .recv }

/-- The reaction to a write's outcome at `S_SEND` (R110). -/
def afterWrite (o : CallOutcome) (s : State) : Out :=
  match o with
  | .success => frameSent s
  | .timeout => .next (raise .transportTimeout 0 s)
  | .transportError => .next (raise .transportError 0 s)
  | .shortWrite => .next (raise .shortWrite 0 s)
  | .malformed => .refused (.outcomeNotAwaited .malformed)

/-- The reaction to a read's outcome at `S_RECV` (R110). -/
def afterRead (o : CallOutcome) (s : State) : Out :=
  match o with
  | .success => ackCheck s
  | .timeout => .next (raise .transportTimeout 0 s)
  | .transportError => .next (raise .transportError 0 s)
  | .malformed => .next (raise .malformedAcknowledgment 0 s)
  | .shortWrite => .refused (.outcomeNotAwaited .shortWrite)

/-- An outcome of a call is delivered, once, to the Sequencer, whose reaction is part of the same step (R110,
41_transport_guard.md R90). `g` is the kind of the call: a write's outcome is awaited at `S_SEND`, a read's at `S_RECV`. A
Sequencer that awaits no such outcome is reached by no run (log 20). -/
def deliver (g : GuardState) (o : CallOutcome) (s : State) : Out :=
  match g with
  | .idle => .refused (.outcomeNotAwaited o)
  | .writing =>
    if s.rstep = .send ∧ busy s.phase = true then afterWrite o s else .refused (.outcomeNotAwaited o)
  | .reading =>
    if s.rstep = .recv ∧ awaitsAck s.phase = true then afterRead o s else .refused (.outcomeNotAwaited o)

/-- The image of an accepted source is latched and the session begins (43_sequencer.md R120). -/
def beginErasing (bytes : List Byte) (s : State) : State :=
  { s with
    ilen := BitVec.ofNat 15 bytes.length
    img := Memory.ofBytes 0 bytes
    phase := .erasing }

/-- An image over the capacity is not kept (43_sequencer.md R120; log 17). -/
def discardImage (s : State) : State := { s with ilen := 0, img := [] }

/-- The size check on the true length, once, before any transport activity (43_sequencer.md R120, 60_exceptions.md R141,
70_reset_and_hazards.md R178). -/
def startOn (bytes : List Byte) (s : State) : State :=
  if Config.capacity < bytes.length then raise .oversizedImage 0 (discardImage (createSession s))
  else beginErasing bytes (createSession s)

/-- `SEQ.START img` (43_sequencer.md R120) under its premises (R121). R120 has `FBST = FB_IDLE` wherever a session may
start, so a start over a bare frame left open is not admitted (log 19); the order of the checks is log 34. -/
def seqStart (src : Source) (s : State) : Out :=
  if busy s.phase then .refused .sessionRunning
  else if s.fbst ≠ .idle then .refused .bareFrameOpen
  else if s.handleOpen = false then .refused .transportClosed
  else if s.stragglers ≠ [] ∨ s.calls ≠ [] then .refused .stragglersAlive
  else if src.readable = false then .refused .sourceNotReadable
  else if src.again ≠ src.bytes then .refused .sourceNotStable
  else .next (startOn src.bytes s)

/-- What `RESULT` returns (43_sequencer.md R133). -/
def resultOf (s : State) : Result := ⟨s.phase, s.errkind, s.errphase, s.errstatus⟩

end Sys2Proof.Machine
end

