-- ==== Sys2Proof/Machine/Completion.lean ====
section
/-! DEFINITION. How a call ends: by its deadline, by the Transport, or late (41_transport_guard.md R94 to R97). -/

namespace Sys2Proof.Machine

/-- `TG.EXPIRE` (R94): the call is abandoned, not cancelled; of a write an unknown part has reached the wire (R103). -/
def tgExpire (s : State) : Out :=
  if s.tgst ≠ .idle ∧ s.timer = 0 then
    deliver s.tgst .timeout (abandonCall (acceptDrawn s.callid s))
  else .refused .notExpired

/-- What the Transport does with the call that completes late: an unknown part of what it still holds goes out, and the
call is gone (R97, R103; 70_reset_and_hazards.md R175). -/
def endLate (id : Nat) (s : State) : State := dropCall id (acceptDrawn id s)

/-- `TG.LATE id` (R97): the tag leaves `STRAGGLERS`, and no other register, buffer or flag of the block changes. A call
that a reset made the block forget ends in the Transport alone (70_reset_and_hazards.md R171; log 14). -/
def tgLate (id : Nat) (s : State) : Out :=
  if id ∈ s.stragglers then
    .next { endLate id s with stragglers := removeTag id s.stragglers }
  else if s.tgst ≠ .idle ∧ id = s.callid then .refused (.noSuchCall id)
  else if s.calls.any (fun c => c.tag = id) then .next (endLate id s)
  else .refused (.noSuchCall id)

/-- What the wire has of a completed write: the counted bytes, or an unknown part if the Transport reports an error
(R103; 20_memory.md R58). R58 says the counted bytes were transferred by the completion and not when: that all of them
come onto the wire at this moment, and none while the call is pending, is the model's choice (log 15). -/
def endWrite (n : Nat) (err : Bool) (s : State) : State :=
  dropCall s.callid (closeCall (if err then acceptDrawn s.callid s else acceptFirst s.callid n s))

/-- `TG.WDONE id, n, err` (R95). A stale tag is `TG.LATE` (log 26). -/
def tgWdone (id n : Nat) (err : Bool) (s : State) : Out :=
  if s.tgst = .writing ∧ id = s.callid then
    if s.txlen.toNat < n then .refused (.countTooLarge n)
    else deliver .writing (writeOutcome n s.txlen.toNat err) (endWrite n err s)
  else tgLate id s

/-- The pending read is over and its bytes are in `RXBUF` (R96). -/
def endRead (bytes : List Byte) (s : State) : State :=
  storeReceived bytes (dropCall s.callid (closeCall s))

/-- `TG.RDONE id, bytes, eof, err` (R96). A stale tag is `TG.LATE` (log 26). -/
def tgRdone (id : Nat) (bytes : List Byte) (eof err : Bool) (s : State) : Out :=
  if s.tgst = .reading ∧ id = s.callid then
    if Config.ackLen < bytes.length then .refused (.readTooLong bytes.length)
    else deliver .reading (readOutcome bytes.length eof err) (endRead bytes s)
  else tgLate id s

/-- The pending read completes with an acknowledgment's two bytes and no error: the reception of `ACK_OK` or `ACK_FAIL`
(42_commands.md R115, R116; R96; log 6). -/
def receiveAck (status reserved : Byte) (s : State) : Out :=
  if s.tgst = .reading then deliver .reading .success (endRead [status, reserved] s)
  else .refused .noReadPending

end Sys2Proof.Machine
end

