-- ==== Sys2Proof/Machine/Acks.lean ====
section
/-! DEFINITION. The meanings of the two acknowledgment forms: the pending read receives them (42_commands.md R115 to
R117). -/

namespace Sys2Proof.Machine

/-- `ACK_OK`, the bytes `00 rr` (R115): the round succeeds. -/
def execAckOk (reserved : Byte) (s : State) : Out := receiveAck Config.ackOk reserved s

/-- `ACK_FAIL`, the bytes `ss rr` (R116): `DeviceRejected` with the status kept. -/
def execAckFail (status reserved : Byte) (s : State) : Out := receiveAck status reserved s

end Sys2Proof.Machine
end

