-- ==== Sys2Proof/Machine/Commands.lean ====
section
/-! DEFINITION. The meanings of the wire commands: the step of a round that builds the frame and issues its write
(42_commands.md R110 to R114). The rest of the round is the reaction to the outcomes (Sequencer.lean; log 5). -/

namespace Sys2Proof.Machine

/-- `ERASE` (R111), in phase `Erasing`. -/
def execErase (s : State) : Out :=
  beginRound .erasing s (sendRound Config.cmdErase Config.eraseLen 0 0 [] s)

/-- `PROGRAM off, n` (R112), in phase `WritingFirmware`. -/
def execProgram (off : BitVec 16) (n : Byte) (s : State) : Out :=
  chunkRound .writingFirmware Config.cmdProgram off n s

/-- `VERIFY off, n` (R113), in phase `VerifyingFirmware`. -/
def execVerify (off : BitVec 16) (n : Byte) (s : State) : Out :=
  chunkRound .verifyingFirmware Config.cmdVerify off n s

/-- `END` (R114), in phase `Ending`. -/
def execEnd (s : State) : Out :=
  beginRound .ending s (sendRound Config.cmdEnd Config.endLen 0 0 [] s)

end Sys2Proof.Machine
end

