-- ==== Sys2Proof/Machine/Dispatch.lean ====
section
/-! DEFINITION. One arm per row of the opcode table, each one call of its meaning. -/

namespace Sys2Proof.Machine

def exec (i : Instr) (s : State) : Host.Outcome State Fault Refusal :=
  match i with
  | .erase => Sys2Proof.Machine.execErase s
  | .program off n => Sys2Proof.Machine.execProgram off n s
  | .verify off n => Sys2Proof.Machine.execVerify off n s
  | .endCmd => Sys2Proof.Machine.execEnd s
  | .ackOk reserved => Sys2Proof.Machine.execAckOk reserved s
  | .ackFail status reserved => Sys2Proof.Machine.execAckFail status reserved s

end Sys2Proof.Machine
end

