-- ==== Sys2Proof/Machine/Events.lean ====
section
/-! DEFINITION. What the other agents' events do (60_exceptions.md R147, R156, R164), the reset of the block
(70_reset_and_hazards.md R170, R171), and what happens when the Sequencer has no command to send. -/

namespace Sys2Proof.Machine

/-- A bare Frame Builder operation is admitted while no session owns the builder (10_state.md R38; log 18). -/
def bareBuilder (s : State) (k : Out) : Out :=
  if busy s.phase then .refused .builderOwned else k

/-- The Caller opens or closes the handle outside a session (60_exceptions.md R164; log 27). -/
def setHandle (isOpen : Bool) (s : State) : Out :=
  if busy s.phase then .refused .handleInUse else .next { s with handleOpen := isOpen }

/-- A reset: every register of the block at its reset value and nothing else (R170). A pending call is abandoned as by a
timeout and the block forgets it, while the Transport does not (R171; log 13). -/
def resetBlock (s : State) : State :=
  let t := if s.tgst = .idle then s else acceptDrawn s.callid s
  { State.reset with
    wire := t.wire
    calls := t.calls
    handleOpen := t.handleOpen
    inbox := t.inbox
    results := t.results
    drawn := t.drawn }

/-- `RESULT` (43_sequencer.md R133): the answer goes to the Caller and no register changes (log 30). -/
def readResult (s : State) : State := { s with results := s.results ++ [resultOf s] }

/-- The effect of one event. -/
def takeEvent (e : Event) (s : State) : Out :=
  match e with
  | .fbClear => bareBuilder s (.next (fbClear s))
  | .fbHeader cmd len a1 a2 => bareBuilder s (fbHeader cmd len a1 a2 s)
  | .fbAppend b => bareBuilder s (fbAppend b s)
  | .fbFinalize => bareBuilder s (fbFinalize s)
  | .tick => .next (tgTick s)
  | .expire => tgExpire s
  | .wdone id n err => tgWdone id n err s
  | .rdone id bytes eof err => tgRdone id bytes eof err s
  | .late id => tgLate id s
  | .seqStart src => seqStart src s
  | .result => .next (readResult s)
  | .openTransport => setHandle true s
  | .closeTransport => setHandle false s
  | .reset => .next (resetBlock s)

/-- The Timer, when nothing else is offered and a call is pending: ticks, then the expiry, so that no call hangs
(41_transport_guard.md R100; log 3). -/
def timerMoves (s : State) : Out :=
  if 0 < s.timer then .next (tgTick s) else tgExpire s

/-- The next event is taken; with none, the Timer moves while a call is pending, and otherwise the block waits
(70_reset_and_hazards.md R172; log 4). -/
def awaitEvent (s : State) : Out :=
  match s.inbox with
  | e :: rest => takeEvent e { s with inbox := rest }
  | [] => if s.tgst = .idle then .next s else timerMoves s

/-- A step with no instruction to run: the write pass is over (43_sequencer.md R125), or the block waits. -/
def withoutInstr (s : State) : Out :=
  if s.phase = .writingFirmware ∧ s.rstep = .build then .next (enterVerifying s) else awaitEvent s

end Sys2Proof.Machine
end

