-- ==== Sys2Proof/Machine/Fetch.lean ====
section
/-! DEFINITION. Which instruction the next step runs. The block fetches nothing from a memory (10_state.md R21): its
commands are fixed by (`PHASE`, `STEP`, `OFFSET`) (43_sequencer.md R122 to R127), and an acknowledgment is what the
completion of the pending read brings (41_transport_guard.md R96). -/

namespace Sys2Proof.Machine

/-- The acknowledgment at the head of the queue: a completion of the current read with two bytes and no error; a clean
end of stream beside them is ignored (R96). -/
def arrivedAck (s : State) : Option Instr :=
  match s.inbox with
  | .rdone id bytes _ false :: _ =>
    if id = s.callid ∧ bytes.length = Config.ackLen then
      match decode .received bytes with
      | .ok (i, _) => some i
      | .error _ => none
    else none
  | _ => none

/-- The command a phase sends next (43_sequencer.md R122, R124, R126, R127). -/
def nextCommand (s : State) : Option Instr :=
  match s.phase with
  | .idle => none
  | .erasing => some .erase
  | .writingFirmware => if moreToSend s then some (.program s.offset (nextChunkByte s)) else none
  | .verifyingFirmware => if moreToSend s then some (.verify s.offset (nextChunkByte s)) else some .endCmd
  | .ending => some .endCmd
  | .complete => none
  | .failed => none

/-- The instruction the next step runs, if any. -/
def fetch (s : State) : Option Instr :=
  match s.rstep with
  | .build => nextCommand s
  | .send => none
  | .recv => if s.tgst = .reading then arrivedAck s else none

/-- The state in which the fetched instruction runs: an acknowledgment's event is taken from the queue, and the end of
the verify pass enters `Ending` in the step that sends the End frame (43_sequencer.md R127; log 25). -/
def prepare (s : State) : State :=
  match s.rstep with
  | .build =>
    if s.phase = .verifyingFirmware ∧ moreToSend s = false then { s with phase := .ending } else s
  | .send => s
  | .recv => { s with inbox := s.inbox.tail }

/-- A state in which the Sequencer is about to send a command in phase `p` (log 23). -/
def readyToSend (p : Phase) (s : State) : State :=
  { s with phase := p, rstep := .build, tgst := .idle, fbst := .idle }

/-- A state whose next chunk is `n` zero bytes at `off`, the last of the image (log 23). -/
def withZeroChunk (off : BitVec 16) (n : Byte) (s : State) : State :=
  { s with
    offset := off
    ilen := BitVec.ofNat 15 (off.toNat + n.toNat)
    img := Memory.ofBytes off.toNat (List.replicate n.toNat 0) }

/-- A state that waits for the acknowledgment of the Erase frame, which is about to arrive (log 23). -/
def withArrival (status reserved : Byte) (s : State) : State :=
  { s with
    phase := .erasing
    rstep := .recv
    tgst := .reading
    inbox := .rdone s.callid [status, reserved] false false :: s.inbox }

/-- Place an instruction where the next step finds it (log 23). -/
def placeInstr (i : Instr) (s : State) : State :=
  match i with
  | .erase => readyToSend .erasing s
  | .program off n => withZeroChunk off n (readyToSend .writingFirmware s)
  | .verify off n => withZeroChunk off n (readyToSend .verifyingFirmware s)
  | .endCmd => readyToSend .ending s
  | .ackOk reserved => withArrival Config.ackOk reserved s
  | .ackFail status reserved => withArrival status reserved s

/-- Place the instruction of a table word; a word that decodes to none places nothing. -/
def placeWord (nbits w : Nat) (s : State) : State :=
  match decodeTableWord nbits w with
  | some i => placeInstr i s
  | none => s

end Sys2Proof.Machine
end

