-- ==== Sys2Proof/Machine/Step.lean ====
section
/-! DEFINITION. One step of the machine: the Sequencer's next instruction if it has one, otherwise what the block does
without (00_scope.md section 6; the Sequencer's own steps take no time, 70_reset_and_hazards.md R181; log 2). -/

namespace Sys2Proof.Machine

/-- One step: three outcomes, next, fault, refusal. -/
def step (s : State) : Host.Outcome State Fault Refusal :=
  match fetch s with
  | some i => exec i (prepare s)
  | none => withoutInstr s

/-- The state with the instruction of a table word placed so that the very next step runs it (log 23). -/
def State.withFetchWord (s : State) (nbits w : Nat) : State := placeWord nbits w s

end Sys2Proof.Machine
end

