-- ==== Sys2Proof/Safety.lean ====
section
/-! DEFINITION. What counts as a sound state: the relations between the registers that the spec's prose promises. Each is
a property of every state a run reaches; the statements say which steps keep it. -/

namespace Sys2Proof.Machine

/-- Every byte space is in its canonical form (the form of `Memory.wf`). -/
def MemoryCanonical (s : State) : Prop :=
  Memory.wf s.fbuf ∧ Memory.wf s.rxbuf ∧ Memory.wf s.img

/-- The buffers hold nothing outside their sizes: 67 bytes and 2 bytes (10_state.md R16, R18, R32). -/
def BuffersInRange (s : State) : Prop :=
  (∀ a, Config.frameCapacity ≤ a → readByte .fbuf a s = none) ∧
  (∀ a, Config.ackLen ≤ a → readByte .rxbuf a s = none)

/-- The counters stay in the ranges of 10_state.md R10, and an open frame has 6 to 66 bytes (R16, R17; R85). -/
def CountsInRange (s : State) : Prop :=
  s.flen.toNat ≤ Config.frameCapacity ∧
  s.txlen.toNat ≤ Config.frameCapacity ∧
  s.rxn.toNat ≤ Config.ackLen ∧
  s.chunk.toNat ≤ Config.maxPayload ∧
  s.timer ≤ Config.deadlineTicks ∧
  (s.fbst = .opened → 6 ≤ s.flen.toNat ∧ s.flen.toNat ≤ 66)

/-- A session is in one of its two passes over the image. -/
def inPass (s : State) : Prop := s.phase = .writingFirmware ∨ s.phase = .verifyingFirmware

/-- `0 <= OFFSET <= ILEN <= 16384` (10_state.md R12, R14); `OFFSET` is a chunk's start or the end of the image
(20_memory.md R45, 43_sequencer.md R130); in a round of a pass `CHUNK = min(60, ILEN - OFFSET)` and is not 0 (R13). -/
def PassInRange (s : State) : Prop :=
  s.ilen.toNat ≤ Config.capacity ∧
  s.offset.toNat ≤ s.ilen.toNat ∧
  (s.offset.toNat % Config.maxPayload = 0 ∨ s.offset = s.ilen.setWidth 16) ∧
  (inPass s → s.rstep ≠ .build → s.offset.toNat < s.ilen.toNat ∧ s.chunk.toNat = nextChunk s)

/-- `TGST` and `STEP` agree, a call is pending only in a phase that waits on the transport, and with no call pending the
timer is disarmed (10_state.md R20, R22, R23; 60_exceptions.md R157). -/
def GuardMatchesRound (s : State) : Prop :=
  (s.tgst = .idle ↔ s.rstep = .build) ∧
  (s.tgst = .writing ↔ s.rstep = .send) ∧
  (s.tgst = .reading ↔ s.rstep = .recv) ∧
  (s.rstep ≠ .build → busy s.phase = true) ∧
  (s.rstep = .recv → awaitsAck s.phase = true) ∧
  (s.tgst = .idle → s.timer = 0)

/-- The error registers speak exactly in `Failed` (10_state.md R26 to R28): the status byte is kept for a rejection only,
an oversized image has no phase tag, every other kind has one, and none of the two kinds of an acknowledgment has the tag
of `Ending` (60_exceptions.md R140, R145). -/
def ErrorsRecorded (s : State) : Prop :=
  (s.phase = .failed ↔ s.errkind ≠ .none) ∧
  (s.errkind = .deviceRejected ↔ s.errstatus ≠ 0) ∧
  (s.errphase = .none ↔ (s.errkind = .none ∨ s.errkind = .oversizedImage)) ∧
  (s.errphase = .ending → s.errkind ≠ .deviceRejected ∧ s.errkind ≠ .malformedAcknowledgment)

/-- While a session runs the accumulator is zero and no frame is open between the Sequencer's steps (40_frame_builder.md
R88, D11; 43_sequencer.md R120). -/
def BuilderAtRest (s : State) : Prop :=
  (busy s.phase = true → s.acc = 0 ∧ s.fbst = .idle) ∧ (s.rstep ≠ .build → s.fbst = .idle)

/-- The calls alive in the Transport while a session runs: none between rounds, and otherwise the pending one, whose copy
is the frame in the buffer (41_transport_guard.md R91, 20_memory.md R50, R57). -/
def SessionOwnsCall (s : State) : Prop :=
  busy s.phase = true →
    s.stragglers = [] ∧
    (s.tgst = .idle → s.calls = []) ∧
    (s.tgst = .reading → s.calls = [⟨s.callid, []⟩]) ∧
    (s.tgst = .writing → s.txlen = s.flen ∧
      ∃ bytes, Memory.readBytes s.fbuf 0 s.flen.toNat = some bytes ∧ s.calls = [⟨s.callid, bytes⟩])

/-- `STRAGGLERS` is a set in its canonical form, and every tag in it was issued (10_state.md R24, R33). -/
def StragglersIssued (s : State) : Prop :=
  s.stragglers.Pairwise (fun a b => a < b) ∧ ∀ t ∈ s.stragglers, t ≤ s.callid

/-- The image of a running session is there, byte for byte (20_memory.md R40). -/
def ImageLoaded (s : State) : Prop :=
  ∀ a, (readByte .img a s).isSome = true ↔ a < s.ilen.toNat

/-- The bytes of a frame whose header is written while the accumulator holds `a0` (40_frame_builder.md R85, R87): with
`a0 = 0` they are those of `frameBytes`. -/
def frameFrom (a0 cmd len a1 a2 : Byte) (payload : List Byte) : List Byte :=
  headerBytes cmd len a1 a2 ++ payload ++ [a0 + cmd + len + a1 + a2 + sumBytes payload]

/-- The state in which a finished frame stands in the buffer and the accumulator is cleared (40_frame_builder.md R88). -/
def afterFrame (frame : List Byte) (s : State) : State :=
  { s with
    acc := 0
    fbuf := Memory.writeBytes s.fbuf 0 frame
    flen := BitVec.ofNat 7 frame.length
    fbst := .idle }

/-- The state in which a round's frame stands in the buffer and its write is pending (42_commands.md R110,
41_transport_guard.md R91). -/
def afterSend (frame : List Byte) (s : State) : State :=
  { afterFrame frame s with
    callid := s.callid + 1
    txlen := BitVec.ofNat 7 frame.length
    timer := Config.deadlineTicks
    tgst := .writing
    calls := s.calls ++ [⟨s.callid + 1, frame⟩]
    rstep := .send }

/-- What a sent round leaves: the frame in the buffer, whole; a cleared accumulator; one fresh write call with its own
copy of the frame and the full deadline; and nothing yet on the wire (42_commands.md R110; 41_transport_guard.md R91; log
15). -/
def SentFrame (frame : List Byte) (s t : State) : Prop :=
  Memory.readBytes t.fbuf 0 t.flen.toNat = some frame ∧
  t.flen.toNat = frame.length ∧
  t.txlen = t.flen ∧
  t.acc = 0 ∧
  t.fbst = .idle ∧
  t.callid = s.callid + 1 ∧
  t.timer = Config.deadlineTicks ∧
  t.tgst = .writing ∧
  t.rstep = .send ∧
  t.calls = s.calls ++ [⟨s.callid + 1, frame⟩] ∧
  t.wire = s.wire

/-- `t` records the failure `kind`, with the status byte `status`, of a round of `s` (60_exceptions.md R150). -/
def FailedWith (kind : ErrKind) (status : Byte) (s t : State) : Prop :=
  t.phase = .failed ∧ t.errkind = kind ∧ t.errphase = phaseTag s.phase ∧ t.errstatus = status ∧
  t.rstep = .build ∧ t.tgst = .idle ∧ t.offset = s.offset

/-- The calls `new` are some of the calls `old`, in their order and under their tags, each with the bytes it still holds
(41_transport_guard.md R91, R103). -/
def CallsKept (old new : List Call) : Prop :=
  (new.map Call.tag).Sublist (old.map Call.tag) ∧
  ∀ c ∈ new, ∃ d ∈ old, d.tag = c.tag ∧ c.bytes <:+ d.bytes

/-- What the block is left with when its session is over (43_sequencer.md R137). -/
def EndedAtRest (t : State) : Prop :=
  (t.phase = .complete ∨ t.phase = .failed) ∧ t.tgst = .idle ∧ t.timer = 0 ∧ t.fbst = .idle ∧ t.acc = 0

/-- From `t` to `u` nothing of the block changed but `STRAGGLERS` (41_transport_guard.md R97). -/
def OnlyStragglersMoved (t u : State) : Prop :=
  { u with stragglers := t.stragglers, wire := t.wire, calls := t.calls, drawn := t.drawn } = t

/-- Steps in turn, stopping at the first fault or refusal. -/
def runSteps : Nat → State → Out
  | 0, s => .next s
  | k + 1, s => andThen (step s) (runSteps k)

/-- The Transport's two answers to a chunk's round whose write has the tag `id + 1` and `len` bytes: all bytes written, and
a success acknowledgment (43_sequencer.md R124). -/
def chunkAnswers (id len : Nat) (reserved : Byte) : List Event :=
  [.wdone (id + 1) len false, .rdone (id + 2) [Config.ackOk, reserved] false false]

/-- Chunk `i` of an image: up to 60 bytes from offset `60 * i` (43_sequencer.md R130). -/
def chunkBytes (image : List Byte) (i : Nat) : List Byte :=
  (image.drop (Config.maxPayload * i)).take Config.maxPayload

/-- The instruction that sends chunk `i` of an image in the write pass or the verify pass (43_sequencer.md R124, R126). -/
def chunkInstr (verify : Bool) (image : List Byte) (i : Nat) : Instr :=
  let off := BitVec.ofNat 16 (Config.maxPayload * i)
  let n := BitVec.ofNat 8 (chunkBytes image i).length
  if verify then .verify off n else .program off n

/-- How many chunks an image has: `ceil(L / 60)` (43_sequencer.md R130). -/
def chunkCount (image : List Byte) : Nat := (image.length + 59) / Config.maxPayload

/-- The frames of a pass, in order (20_memory.md R51). -/
def passFrames (verify : Bool) (image : List Byte) : List Byte :=
  (List.range (chunkCount image)).flatMap fun i => encodeFrame (chunkInstr verify image i) (chunkBytes image i)

/-- The Transport's answers to a pass that meets no failure, its calls numbered from `id + 1`. -/
def passAnswers (image : List Byte) (id : Nat) : List Event :=
  (List.range (chunkCount image)).flatMap fun i => chunkAnswers (id + 2 * i) (7 + (chunkBytes image i).length) 0

end Sys2Proof.Machine
end

