-- ==== Sys2Proof/Certificates/Slice0/Obligations.lean ====
section
/-! DEFINITION. The statements for the provers, each a claim of a rule of spec/ about the machine. -/

open Sys2Proof Sys2Proof.Machine

/-! ### Encoding -/

/-- Decode inverts encode, for every well-formed instruction with every operand at every value (30_encoding.md R67); and
well formed is what R67's constraints say, no less: every chunk of 1 to 60 bytes at an offset up to 16380, every failure
status but 0. The length byte of Erase and End is an open parameter, and the statement holds for every value of it (log
8). That the further ranges of the machine-readable table are no part of decoding is log 33. -/
def Obligations.DecodeInvertsEncode : Prop :=
  (∀ (i : Instr) (rest : List Byte), i.WellFormed → decode i.direction (encode i ++ rest) = .ok (i, rest)) ∧
  (∀ (off : BitVec 16) (n : Byte),
    ((Instr.program off n).WellFormed ↔ 1 ≤ n.toNat ∧ n.toNat ≤ 60 ∧ off.toNat ≤ 16380) ∧
    ((Instr.verify off n).WellFormed ↔ 1 ≤ n.toNat ∧ n.toNat ≤ 60 ∧ off.toNat ≤ 16380)) ∧
  (∀ status reserved : Byte, (Instr.ackFail status reserved).WellFormed ↔ status ≠ 0) ∧
  Instr.erase.WellFormed ∧ Instr.endCmd.WellFormed ∧ ∀ reserved : Byte, (Instr.ackOk reserved).WellFormed

/-- A reader of the wire gets back the command, the payload and the bytes after the frame (30_encoding.md R60, R63, R65,
R71). -/
def Obligations.FrameReaderInvertsFrame : Prop :=
  ∀ (i : Instr) (payload rest : List Byte), i.WellFormed → i.direction = .sent →
    payload.length = payloadLength i →
    decodeFrame (encodeFrame i payload ++ rest) = .ok (i, payload, rest)

/-- What decodes is well formed and travels in the direction decoded; its bytes are the ones it encodes to, but for the
length byte of Erase and End, which is outside the table's mask (30_encoding.md R67; log 8). -/
def Obligations.DecodedBytesAreCanonical : Prop :=
  ∀ (d : Direction) (bytes rest : List Byte) (i : Instr), decode d bytes = .ok (i, rest) →
    i.WellFormed ∧ i.direction = d ∧
    (i ≠ .erase → i ≠ .endCmd → bytes = encode i ++ rest) ∧
    (i = .erase → ∃ len, bytes = headerBytes Config.cmdErase len 0 0 ++ rest) ∧
    (i = .endCmd → ∃ len, bytes = headerBytes Config.cmdEnd len 0 0 ++ rest)

/-- The address bytes (30_encoding.md R64): low byte first for Program and Verify, whose operand is `OFFSET` itself when the
Sequencer sends one, and zero for Erase and End. -/
def Obligations.AddressIsLittleEndianOffset : Prop :=
  (∀ (off : BitVec 16) (n : Byte),
    (encode (.program off n))[4]? = some (BitVec.ofNat 8 (off.toNat % 256)) ∧
    (encode (.program off n))[5]? = some (BitVec.ofNat 8 (off.toNat / 256)) ∧
    (encode (.verify off n))[4]? = some (BitVec.ofNat 8 (off.toNat % 256)) ∧
    (encode (.verify off n))[5]? = some (BitVec.ofNat 8 (off.toNat / 256))) ∧
  (∀ (s : State) (off : BitVec 16) (n : Byte),
    (fetch s = some (.program off n) ∨ fetch s = some (.verify off n)) → off = s.offset) ∧
  (encode .erase)[4]? = some 0 ∧ (encode .erase)[5]? = some 0 ∧
  (encode .endCmd)[4]? = some 0 ∧ (encode .endCmd)[5]? = some 0

/-- The checksum is the last byte of a frame and the sum modulo 256 of every byte but the two sync bytes, and changing any
one summed byte changes it (30_encoding.md R65; 40_frame_builder.md R86). -/
def Obligations.OneChangedByteChangesChecksum : Prop :=
  (∀ (cmd len a1 a2 : Byte) (payload : List Byte),
    (frameBytes cmd len a1 a2 payload).getLast? = some (sumBytes ([cmd, len, a1, a2] ++ payload))) ∧
  ∀ (xs ys : List Byte) (k : Nat), xs.length = ys.length → (∀ j, j ≠ k → xs[j]? = ys[j]?) → xs[k]? ≠ ys[k]? →
    sumBytes xs ≠ sumBytes ys

/-- Words written out from 30_encoding.md R67 and 95_test_vectors.md sections 2.2 and 2.3 (F24's header among them, whose
offset 16 is no chunk's start, log 33) decode to the instructions they stand for, and words outside the constraints of R67
decode to none. -/
def Obligations.SpecWordsDecode : Prop :=
  decodeTableWord 48 0x57AB81000000 = some .erase ∧
  decodeTableWord 48 0x57AB80283C00 = some (.program 60 40) ∧
  decodeTableWord 48 0x57AB8204FC3F = some (.verify 16380 4) ∧
  decodeTableWord 48 0x57AB82031000 = some (.verify 16 3) ∧
  decodeTableWord 48 0x57AB83000000 = some .endCmd ∧
  decodeTableWord 16 0x00A5 = some (.ackOk 0xA5) ∧
  decodeTableWord 16 0x0500 = some (.ackFail 5 0) ∧
  decodeTableWord 48 0x57AB80000000 = none ∧
  decodeTableWord 48 0x57AB803D0000 = none ∧
  decodeTableWord 48 0x57AB8001FD3F = none ∧
  decodeTableWord 48 0x57AB840000FF = none

/-! ### Frame Builder -/

/-- `FB.FRAME` from a clear accumulator with no frame open (40_frame_builder.md R88, 30_encoding.md R61, R65): the frame
stands in the buffer, the accumulator is clear again, and nothing else of the machine changes. The four operations are
the spec's own reading (92_eei_decisions.md D10, D11). -/
def Obligations.FrameBuilderBuildsFrame : Prop :=
  ∀ (cmd len a1 a2 : Byte) (payload : List Byte) (s : State), s.fbst = .idle → s.acc = 0 → payload.length ≤ 60 →
    ∃ t, fbFrame cmd len a1 a2 payload s = .next t ∧
      Memory.readBytes t.fbuf 0 t.flen.toNat = some (frameBytes cmd len a1 a2 payload) ∧
      t.flen.toNat = 7 + payload.length ∧ t.acc = 0 ∧ t.fbst = .idle ∧
      (∀ a, 7 + payload.length ≤ a → readByte .fbuf a t = readByte .fbuf a s) ∧
      { t with fbuf := s.fbuf, flen := s.flen } = s

/-- The checksum is the value of `ACC` when the frame is finalised, provided `ACC` was 0 when the header was written; with
another value `a0` there, the sum starts from it (30_encoding.md R65; 40_frame_builder.md R85, R87, which the spec derives).
That the header adds to `ACC` and does not load it, and the split into operations, are the spec's own choice
(92_eei_decisions.md D10). -/
def Obligations.ChecksumIsAccumulator : Prop :=
  ∀ (cmd len a1 a2 : Byte) (payload : List Byte) (s : State), s.fbst = .idle → payload.length ≤ 60 →
    ∃ t u, andThen (fbHeader cmd len a1 a2 s) (fbAppendAll payload) = .next t ∧ fbFinalize t = .next u ∧
      t.acc = s.acc + sumBytes ([cmd, len, a1, a2] ++ payload) ∧
      readByte .fbuf (6 + payload.length) u = some t.acc ∧ u.acc = t.acc ∧
      (s.acc = 0 → Memory.readBytes u.fbuf 0 u.flen.toNat = some (frameBytes cmd len a1 a2 payload))

/-- The contamination law (40_frame_builder.md R87, which the spec derives from its own R81 and D10): a second frame built
without a clear carries the first one's checksum in its own, and is wrong exactly when that is not 0. -/
def Obligations.UnclearedAccumulatorContaminates : Prop :=
  ∀ (c1 l1 a1 b1 c2 l2 a2 b2 : Byte) (p1 p2 : List Byte) (s : State), s.fbst = .idle → s.acc = 0 →
    p1.length ≤ 60 → p2.length ≤ 60 →
    ∃ t u v, andThen (fbHeader c1 l1 a1 b1 s) (fbAppendAll p1) = .next t ∧
      (∃ w, fbFinalize t = .next w ∧ andThen (fbHeader c2 l2 a2 b2 w) (fbAppendAll p2) = .next u) ∧
      fbFinalize u = .next v ∧
      ∃ bs, Memory.readBytes v.fbuf 0 v.flen.toNat = some bs ∧
        bs.getLast? = some (sumBytes ([c1, l1, a1, b1] ++ p1) + sumBytes ([c2, l2, a2, b2] ++ p2)) ∧
        (bs = frameBytes c2 l2 a2 b2 p2 ↔ sumBytes ([c1, l1, a1, b1] ++ p1) = 0)

/-- `FB.APPEND` writes one byte at `FLEN`, lengthens the frame and adds to the accumulator with wraparound, and changes
nothing else (40_frame_builder.md R82, R84; the operation's form is the spec's own choice, 92_eei_decisions.md D10). -/
def Obligations.AppendAddsOneByte : Prop :=
  ∀ (b : Byte) (s : State), s.fbst = .opened → s.flen.toNat ≤ 65 →
    ∃ t, fbAppend b s = .next t ∧
      t.flen.toNat = s.flen.toNat + 1 ∧ t.acc.toNat = (s.acc.toNat + b.toNat) % 256 ∧
      readByte .fbuf s.flen.toNat t = some b ∧
      (∀ a, a ≠ s.flen.toNat → readByte .fbuf a t = readByte .fbuf a s) ∧
      { t with fbuf := s.fbuf, flen := s.flen, acc := s.acc } = s

/-- The refused orders of the Frame Builder (40_frame_builder.md R89; the spec's own choice, 92_eei_decisions.md D10, D12),
and of a bare operation during a session (log 18). -/
def Obligations.BuilderOrdersRefused : Prop :=
  ∀ (cmd len a1 a2 b : Byte) (s : State),
    (s.fbst = .opened → fbHeader cmd len a1 a2 s = .refused .headerOnOpenFrame) ∧
    (s.fbst = .idle → fbAppend b s = .refused .appendWithoutHeader) ∧
    (s.fbst = .opened → s.flen = 66 → fbAppend b s = .refused .payloadFull) ∧
    (s.fbst = .idle → fbFinalize s = .refused .finalizeWithoutHeader) ∧
    (busy s.phase = true → takeEvent (.fbAppend b) s = .refused .builderOwned)

/-! ### The instructions -/

/-- ERASE in its place in a session issues the write of its frame (42_commands.md R110, R111). That its meaning is this
moment of the round is the model's choice (log 5), as is that nothing of a pending write is on the wire yet, here and in the
three statements below (log 15); the tag is the spec's own (92_eei_decisions.md D16). -/
def Obligations.EraseIssuesFrame : Prop :=
  ∀ s : State, s.phase = .erasing → s.rstep = .build → s.fbst = .idle → s.tgst = .idle → s.acc = 0 →
    ∃ t, exec .erase s = .next t ∧
      SentFrame [0x57, 0xAB, 0x81, Config.eraseLen, 0, 0, 0x81 + Config.eraseLen] s t ∧ t.phase = s.phase

/-- PROGRAM in its place in a session issues the write of its frame with the chunk's bytes of the image (42_commands.md
R110, R112). It ranges over `n = 0` and over offsets that are no chunk's start too, which R75 and R112 never have the block
emit: that the meaning goes on there is the model's reading (log 31). -/
def Obligations.ProgramIssuesFrame : Prop :=
  ∀ (off : BitVec 16) (n : Byte) (payload : List Byte) (s : State),
    s.phase = .writingFirmware → s.rstep = .build → s.fbst = .idle → s.tgst = .idle → s.acc = 0 →
    n.toNat ≤ 60 → off.toNat + n.toNat ≤ s.ilen.toNat →
    Memory.readBytes s.img off.toNat n.toNat = some payload →
    ∃ t, exec (.program off n) s = .next t ∧
      SentFrame (encodeFrame (.program off n) payload) s t ∧ t.phase = s.phase ∧ t.chunk.toNat = n.toNat

/-- VERIFY likewise, and its checksum is that of the Program frame of the same chunk plus 2 (42_commands.md R110, R113).
That it goes on for `n = 0` and for offsets that are no chunk's start is the model's reading (log 31). -/
def Obligations.VerifyIssuesFrame : Prop :=
  ∀ (off : BitVec 16) (n : Byte) (payload : List Byte) (s : State),
    s.phase = .verifyingFirmware → s.rstep = .build → s.fbst = .idle → s.tgst = .idle → s.acc = 0 →
    n.toNat ≤ 60 → off.toNat + n.toNat ≤ s.ilen.toNat →
    Memory.readBytes s.img off.toNat n.toNat = some payload →
    ∃ t, exec (.verify off n) s = .next t ∧
      SentFrame (encodeFrame (.verify off n) payload) s t ∧ t.phase = s.phase ∧ t.chunk.toNat = n.toNat ∧
      (encodeFrame (.verify off n) payload).getLast? =
        ((encodeFrame (.program off n) payload).getLast?).map (fun ck => ck + 2)

/-- END in its place in a session issues the write of its frame (42_commands.md R114). -/
def Obligations.EndIssuesFrame : Prop :=
  ∀ s : State, s.phase = .ending → s.rstep = .build → s.fbst = .idle → s.tgst = .idle → s.acc = 0 →
    ∃ t, exec .endCmd s = .next t ∧
      SentFrame [0x57, 0xAB, 0x83, Config.endLen, 0, 0, 0x83 + Config.endLen] s t ∧ t.phase = s.phase

/-- ACK_OK, with any reserved byte, lets the round succeed (42_commands.md R115, R117; 43_sequencer.md R122, R124, R126). -/
def Obligations.AckOkLetsRoundSucceed : Prop :=
  ∀ (reserved : Byte) (s : State), s.tgst = .reading → s.rstep = .recv → awaitsAck s.phase = true →
    ∃ t, exec (.ackOk reserved) s = .next t ∧
      t.tgst = .idle ∧ t.timer = 0 ∧ t.rstep = .build ∧ t.rxn = 2 ∧
      readByte .rxbuf 0 t = some 0 ∧ readByte .rxbuf 1 t = some reserved ∧
      t.errkind = s.errkind ∧ t.errphase = s.errphase ∧ t.errstatus = s.errstatus ∧
      (s.phase = .erasing → t.phase = .writingFirmware ∧ t.offset = 0) ∧
      (s.phase = .writingFirmware ∨ s.phase = .verifyingFirmware →
        t.phase = s.phase ∧ t.offset.toNat = (s.offset.toNat + s.chunk.toNat) % 65536)

/-- ACK_FAIL makes the round fail with `DeviceRejected`, the status kept and the phase named, and nothing is sent after it
(42_commands.md R116). -/
def Obligations.AckFailRejects : Prop :=
  ∀ (status reserved : Byte) (s : State), status ≠ 0 → s.tgst = .reading → s.rstep = .recv →
    awaitsAck s.phase = true →
    ∃ t, exec (.ackFail status reserved) s = .next t ∧ FailedWith .deviceRejected status s t ∧
      t.timer = 0 ∧ t.rxn = 2 ∧ readByte .rxbuf 0 t = some status ∧ readByte .rxbuf 1 t = some reserved ∧
      t.wire = s.wire ∧ t.callid = s.callid ∧ fetch t = none ∧
      (s.phase = .writingFirmware → t.errphase = .write)

/-- The reserved byte is kept in `RXBUF[1]` and has no other effect: any two values give the same behaviour, and no later
step depends on what `RXBUF` holds (30_encoding.md R69). -/
def Obligations.ReservedByteHasNoEffect : Prop :=
  (∀ (status r1 r2 : Byte) (s t1 : State), exec (ackInstr status r1) s = .next t1 →
    ∃ t2, exec (ackInstr status r2) s = .next t2 ∧ { t2 with rxbuf := t1.rxbuf } = t1 ∧
      readByte .rxbuf 1 t1 = some r1 ∧ readByte .rxbuf 1 t2 = some r2 ∧
      ∀ a, a ≠ 1 → readByte .rxbuf a t2 = readByte .rxbuf a t1) ∧
  ∀ (s t : State) (r : Byte), step s = .next t →
    ∃ u, step { s with rxbuf := Memory.write s.rxbuf 1 r } = .next u ∧ { u with rxbuf := t.rxbuf } = t

/-- Where the commands and acknowledgments stop by name: outside their place in a session, and with no read pending. That
they stop there is the model's choice (logs 6 and 7), from 42_commands.md R110 to R114 and 41_transport_guard.md R96. -/
def Obligations.InstructionsStopOutOfPlace : Prop :=
  ∀ (off : BitVec 16) (n a b : Byte) (s : State),
    (s.phase ≠ .erasing → exec .erase s = .refused .outOfPhase) ∧
    (s.phase ≠ .writingFirmware → exec (.program off n) s = .refused .outOfPhase) ∧
    (s.phase ≠ .verifyingFirmware → exec (.verify off n) s = .refused .outOfPhase) ∧
    (s.phase ≠ .ending → exec .endCmd s = .refused .outOfPhase) ∧
    (s.phase = .erasing → s.rstep ≠ .build → exec .erase s = .refused .roundInProgress) ∧
    (s.tgst ≠ .reading → exec (.ackOk b) s = .refused .noReadPending) ∧
    (s.tgst ≠ .reading → exec (.ackFail a b) s = .refused .noReadPending) ∧
    (s.phase = .erasing → s.rstep = .build → s.fbst = .opened → exec .erase s = .refused .headerOnOpenFrame) ∧
    (s.phase = .writingFirmware → s.rstep = .build → s.ilen.toNat < off.toNat + n.toNat ∨ 60 < n.toNat →
      exec (.program off n) s = .refused (.outOfRange .img off.toNat n.toNat)) ∧
    (s.phase = .verifyingFirmware → s.rstep = .build → s.ilen.toNat < off.toNat + n.toNat ∨ 60 < n.toNat →
      exec (.verify off n) s = .refused (.outOfRange .img off.toNat n.toNat))

/-- The frame of the four commands: the buffer changes in the bytes of the sent frame only, `CHUNK` only for Program and
Verify, and every other register and space is as before but for the ones the rules of R110 to R114 write. That the wire is
as before while the write is pending is the model's choice (log 15). -/
def Obligations.CommandFrame : Prop :=
  ∀ (i : Instr) (s t : State), i.direction = .sent → exec i s = .next t →
    (∀ a, 7 + payloadLength i ≤ a → readByte .fbuf a t = readByte .fbuf a s) ∧
    (∀ a, readByte .img a t = readByte .img a s) ∧
    (∀ a, readByte .rxbuf a t = readByte .rxbuf a s) ∧
    (i = .erase ∨ i = .endCmd → t.chunk = s.chunk) ∧
    { t with
      acc := s.acc, fbuf := s.fbuf, flen := s.flen, chunk := s.chunk, rstep := s.rstep, tgst := s.tgst,
      timer := s.timer, txlen := s.txlen, callid := s.callid, calls := s.calls } = s

/-- The frame of the two acknowledgments: of memory only the two bytes of `RXBUF` change; ACK_OK writes no error register,
ACK_FAIL no offset; every other register is as before but for the ones R96, R117 and R150 write. -/
def Obligations.AckFrame : Prop :=
  ∀ (i : Instr) (s t : State), i.direction = .received → i.WellFormed → exec i s = .next t →
    (∀ a, 2 ≤ a → readByte .rxbuf a t = readByte .rxbuf a s) ∧
    (∀ a, readByte .fbuf a t = readByte .fbuf a s) ∧
    (∀ a, readByte .img a t = readByte .img a s) ∧
    (∀ reserved, i = .ackOk reserved →
      t.errkind = s.errkind ∧ t.errphase = s.errphase ∧ t.errstatus = s.errstatus) ∧
    (∀ status reserved, i = .ackFail status reserved → t.offset = s.offset) ∧
    { t with
      offset := s.offset, phase := s.phase, rstep := s.rstep, tgst := s.tgst, timer := s.timer, rxbuf := s.rxbuf,
      rxn := s.rxn, errkind := s.errkind, errphase := s.errphase, errstatus := s.errstatus, calls := s.calls } = s

/-! ### The step -/

/-- A step runs the fetched instruction in the prepared state; and when a read is awaited, two bytes that complete it and
decode to an acknowledgment are run, their event taken from the queue (10_state.md R21, 41_transport_guard.md R96). That a
fetched command runs before any queued event is the model's reading (log 2). -/
def Obligations.StepRunsFetchedInstruction : Prop :=
  (∀ (s : State) (i : Instr), fetch s = some i → step s = exec i (prepare s)) ∧
  (∀ (s : State) (status reserved : Byte) (eof : Bool) (rest : List Event) (i : Instr),
    s.rstep = .recv → s.tgst = .reading →
    s.inbox = .rdone s.callid [status, reserved] eof false :: rest →
    decode .received [status, reserved] = .ok (i, []) →
    step s = exec i { s with inbox := rest })

/-- A placed table word is the very next instruction: whatever the word decodes to, the next step fetches and runs exactly
that. The placing is the model's choice (log 23). -/
def Obligations.PlacedWordIsFetched : Prop :=
  ∀ (s : State) (nbits w : Nat) (i : Instr), decodeTableWord nbits w = some i →
    fetch (s.withFetchWord nbits w) = some i ∧
    step (s.withFetchWord nbits w) = exec i (prepare (s.withFetchWord nbits w))

/-- What the Sequencer sends is well formed and in the operand ranges of 42_commands.md R112: no empty chunk, none over 60
bytes, no offset over 16380, none that is no multiple of 60, and no chunk past the image (30_encoding.md R67, R75;
43_sequencer.md R124, R130). -/
def Obligations.FetchedIsWellFormed : Prop :=
  ∀ (s : State) (i : Instr), PassInRange s → fetch s = some i →
    i.InSession s.ilen.toNat ∧ payloadLength i ≤ 60 ∧
    (i.direction = .sent → s.offset.toNat + payloadLength i ≤ s.ilen.toNat)

/-- The command codes are the four of R3, and a step that issues a write has put one of them in the frame's command byte,
in the buffer and in the call's own copy: no other is emitted (00_scope.md R3). -/
def Obligations.OnlyFourCodesAreSent : Prop :=
  Config.cmdErase = 0x81 ∧ Config.cmdProgram = 0x80 ∧ Config.cmdVerify = 0x82 ∧ Config.cmdEnd = 0x83 ∧
  ∀ s t : State, step s = .next t → s.tgst ≠ .writing → t.tgst = .writing →
    ∃ c ∈ [Config.cmdErase, Config.cmdProgram, Config.cmdVerify, Config.cmdEnd], readByte .fbuf 2 t = some c ∧
      ∃ call ∈ t.calls, call.tag = t.callid ∧ call.bytes[2]? = some c

/-! ### Starting a session -/

/-- `SEQ.START` under its premises (43_sequencer.md R120, R121): a length of at most 16384 begins the erase phase with the
image latched; 16385 and more fails as `OversizedImage`; either way the session's registers and the error registers are
new. That a session may follow a finished one is the spec's own choice (92_eei_decisions.md D17). The model's own are the
latching of the whole image (log 17), the record that stands for the source (log 16), the premise on the live calls (log
14) and the check that no bare frame is open (log 19). -/
def Obligations.StartChecksTrueLength : Prop :=
  ∀ (src : Source) (s : State), busy s.phase = false → s.fbst = .idle → s.handleOpen = true → s.stragglers = [] →
    s.calls = [] → src.readable = true → src.again = src.bytes →
    ∃ t, seqStart src s = .next t ∧ t.acc = 0 ∧ t.offset = 0 ∧ t.chunk = 0 ∧ t.rstep = .build ∧ t.errstatus = 0 ∧
      t.errphase = .none ∧
      (src.bytes.length ≤ 16384 → t.phase = .erasing ∧ t.errkind = .none ∧ t.ilen.toNat = src.bytes.length ∧
        ∀ a, readByte .img a t = src.bytes[a]?) ∧
      (16384 < src.bytes.length → t.phase = .failed ∧ t.errkind = .oversizedImage ∧ t.ilen = 0)

/-- `OversizedImage` is raised at `SEQ.START` only, by a true length over 16384, before any transport activity: no frame is
built, no call is issued, the timer is not armed; and never once a session runs (60_exceptions.md R141). -/
def Obligations.OversizedImageTouchesNothing : Prop :=
  (∀ (src : Source) (s t : State), seqStart src s = .next t →
    (t.errkind = .oversizedImage ↔ 16384 < src.bytes.length) ∧
    (t.errkind = .oversizedImage →
      (∀ a, readByte .fbuf a t = readByte .fbuf a s) ∧ t.flen = s.flen ∧ t.fbst = s.fbst ∧ t.tgst = s.tgst ∧
      t.callid = s.callid ∧ t.timer = s.timer ∧ t.calls = s.calls ∧ t.wire = s.wire)) ∧
  (∀ s t : State, step s = .next t → busy s.phase = true → s.errkind ≠ .oversizedImage → t.errkind ≠ .oversizedImage)

/-- Where `SEQ.START` stops by name: a running session (43_sequencer.md R135; the spec's own choice, 92_eei_decisions.md
D26), a bare frame left open, where R120 has `FBST = FB_IDLE` (log 19), and each of the four false premises (R121); in every
other state and on every other source it goes on. The model's own are the live calls in `NO_STRAGGLERS` (log 14), the form
of the source (log 16) and the order of the checks (log 34). -/
def Obligations.StartRefusedOnFalsePremise : Prop :=
  ∀ (src : Source) (s : State),
    (busy s.phase = true → seqStart src s = .refused .sessionRunning) ∧
    (busy s.phase = false → s.fbst = .opened → seqStart src s = .refused .bareFrameOpen) ∧
    (busy s.phase = false → s.fbst = .idle →
      (s.handleOpen = false → seqStart src s = .refused .transportClosed) ∧
      (s.handleOpen = true →
        (s.stragglers ≠ [] → seqStart src s = .refused .stragglersAlive) ∧
        (s.calls ≠ [] → seqStart src s = .refused .stragglersAlive) ∧
        (s.stragglers = [] → s.calls = [] →
          (src.readable = false → seqStart src s = .refused .sourceNotReadable) ∧
          (src.readable = true → src.again ≠ src.bytes → seqStart src s = .refused .sourceNotStable) ∧
          (src.readable = true → src.again = src.bytes → ∃ t, seqStart src s = .next t))))

/-! ### Completions, expiry and late calls -/

/-- A completed write (41_transport_guard.md R95, R103; 42_commands.md R110; 60_exceptions.md R149): an error report comes
first, then the count; the counted bytes are on the wire; on success the Sequencer goes on to the read, with its own full
deadline, but for End. The order of the tests is the spec's own choice (92_eei_decisions.md D9); that the counted bytes come
onto the wire at this moment and not before is the model's (log 15). -/
def Obligations.WriteCompletionReactions : Prop :=
  ∀ (s : State) (n : Nat) (err : Bool) (rest : List Event), s.tgst = .writing → s.rstep = .send →
    busy s.phase = true → s.inbox = .wdone s.callid n err :: rest → n ≤ s.txlen.toNat →
    ∃ t, step s = .next t ∧ t.inbox = rest ∧
      (err = true → FailedWith .transportError 0 s t ∧ t.timer = 0) ∧
      (err = false → t.wire = s.wire ++ (callBytes s.callid s.calls).take n) ∧
      (err = false → n < s.txlen.toNat → FailedWith .shortWrite 0 s t ∧ t.timer = 0) ∧
      (err = false → n = s.txlen.toNat → s.phase ≠ .ending →
        t.phase = s.phase ∧ t.rstep = .recv ∧ t.tgst = .reading ∧ t.callid = s.callid + 1 ∧ t.rxn = 0 ∧
        t.timer = Config.deadlineTicks)

/-- The transition from `Ending` to `Complete`: when the write of the End frame succeeds, the session is complete and no
read is issued; and `Complete` is terminal (43_sequencer.md R128). What may follow it, a new `SEQ.START` or the reset, is the
spec's own choice (92_eei_decisions.md D17, D18). -/
def Obligations.EndWriteCompletesSession : Prop :=
  (∀ (s : State) (rest : List Event), s.phase = .ending → s.tgst = .writing → s.rstep = .send →
    s.inbox = .wdone s.callid s.txlen.toNat false :: rest →
    ∃ t, step s = .next t ∧ t.phase = .complete ∧ t.rstep = .build ∧ t.tgst = .idle ∧ t.callid = s.callid ∧
      t.errkind = s.errkind ∧ fetch t = none) ∧
  ∀ s t : State, s.phase = .complete → step s = .next t →
    t.phase = .complete ∨ (∃ src rest, s.inbox = .seqStart src :: rest) ∨ ∃ rest, s.inbox = .reset :: rest

/-- A completed read (41_transport_guard.md R96; 42_commands.md R110, R117; 60_exceptions.md R149): error, two bytes, closed
stream, short return, in that order, and then the status byte. The order is the spec's own choice (92_eei_decisions.md
D9). -/
def Obligations.ReadCompletionReactions : Prop :=
  ∀ (s : State) (bytes : List Byte) (eof err : Bool) (rest : List Event), s.tgst = .reading → s.rstep = .recv →
    awaitsAck s.phase = true → s.inbox = .rdone s.callid bytes eof err :: rest → bytes.length ≤ 2 →
    ∃ t, step s = .next t ∧ t.inbox = rest ∧ t.tgst = .idle ∧ t.timer = 0 ∧ t.rstep = .build ∧
      t.rxn.toNat = bytes.length ∧ (∀ i, i < bytes.length → readByte .rxbuf i t = bytes[i]?) ∧
      (err = true → FailedWith .transportError 0 s t) ∧
      (err = false → bytes.length = 2 → bytes.head? = some 0 → t.phase ≠ .failed) ∧
      (err = false → ∀ status, bytes.length = 2 → bytes.head? = some status → status ≠ 0 →
        FailedWith .deviceRejected status s t) ∧
      (err = false → bytes.length < 2 → eof = true → FailedWith .transportError 0 s t) ∧
      (err = false → bytes.length < 2 → eof = false → FailedWith .malformedAcknowledgment 0 s t)

/-- A short return with the stream open is a malformed acknowledgment, and the block does not read again for the missing
byte (60_exceptions.md R144). -/
def Obligations.MalformedAckIsNotReadAgain : Prop :=
  ∀ (s : State) (bytes : List Byte) (rest : List Event), s.tgst = .reading → s.rstep = .recv →
    awaitsAck s.phase = true → s.inbox = .rdone s.callid bytes false false :: rest → bytes.length < 2 →
    ∃ t, step s = .next t ∧ t.phase = .failed ∧ t.errkind = .malformedAcknowledgment ∧ t.tgst = .idle ∧
      t.callid = s.callid ∧ fetch t = none

/-- The expiry of a call (41_transport_guard.md R94; 60_exceptions.md R142): the call is abandoned and its tag enters
`STRAGGLERS`, the session fails as a timeout, and the buffers and the accumulator are unchanged. The timer's form and the
tags are the spec's own choice (92_eei_decisions.md D14, D16). -/
def Obligations.ExpiryAbandonsCall : Prop :=
  ∀ (s : State) (rest : List Event), GuardMatchesRound s → s.tgst ≠ .idle → s.timer = 0 →
    s.inbox = .expire :: rest →
    ∃ t, step s = .next t ∧ FailedWith .transportTimeout 0 s t ∧
      (∀ u, u ∈ t.stragglers ↔ u = s.callid ∨ u ∈ s.stragglers) ∧
      (∀ sp a, readByte sp a t = readByte sp a s) ∧ t.rxn = s.rxn ∧ t.flen = s.flen ∧ t.acc = s.acc ∧
      t.calls.map Call.tag = s.calls.map Call.tag

/-- Completion and expiry at once, of a pending read and of a pending write: both orders are admitted, the first wins and
disables the other (41_transport_guard.md R99, 60_exceptions.md R148; the spec's own choice, 92_eei_decisions.md D15). The
completion first gives its own outcome, never a timeout; the expiry first makes the completion a late one, which moves
nothing of the block but `STRAGGLERS`. When the bytes of a write come onto the wire is the model's choice (logs 12, 15). -/
def Obligations.TieAdmitsBothOrders : Prop :=
  (∀ (s : State) (bytes : List Byte) (eof err : Bool), s.tgst = .reading → s.rstep = .recv →
    awaitsAck s.phase = true → s.timer = 0 → bytes.length ≤ 2 →
    (∃ t, takeEvent (.rdone s.callid bytes eof err) s = .next t ∧ t.rxn.toNat = bytes.length ∧
      (∀ i, i < bytes.length → readByte .rxbuf i t = bytes[i]?) ∧ t.stragglers = s.stragglers ∧
      (t.phase = .failed → t.errkind ≠ .transportTimeout) ∧ takeEvent .expire t = .refused .notExpired) ∧
    ∃ t u, takeEvent .expire s = .next t ∧ FailedWith .transportTimeout 0 s t ∧ t.rxbuf = s.rxbuf ∧ t.rxn = s.rxn ∧
      takeEvent (.rdone s.callid bytes eof err) t = .next u ∧ OnlyStragglersMoved t u ∧ s.callid ∉ u.stragglers) ∧
  ∀ (s : State) (n : Nat) (err : Bool), s.tgst = .writing → s.rstep = .send → busy s.phase = true → s.timer = 0 →
    n ≤ s.txlen.toNat →
    (∃ t, takeEvent (.wdone s.callid n err) s = .next t ∧ t.stragglers = s.stragglers ∧
      (err = false → t.wire = s.wire ++ (callBytes s.callid s.calls).take n) ∧
      (t.phase = .failed → t.errkind ≠ .transportTimeout) ∧ takeEvent .expire t = .refused .notExpired) ∧
    ∃ t u, takeEvent .expire s = .next t ∧ FailedWith .transportTimeout 0 s t ∧
      takeEvent (.wdone s.callid n err) t = .next u ∧ OnlyStragglersMoved t u ∧ s.callid ∉ u.stragglers ∧
      ∃ k, u.wire = s.wire ++ (callBytes s.callid s.calls).take k

/-- A late completion of an abandoned call, of whatever form, changes no register, buffer or flag of the block but
`STRAGGLERS`; on the wire there may be more bytes of the abandoned write (41_transport_guard.md R95 to R97, R103;
70_reset_and_hazards.md R175). That a stale completion of any form is `TG.LATE` is the model's reading (log 26). -/
def Obligations.LateCompletionIsInvisible : Prop :=
  ∀ (s : State) (id n : Nat) (err eof : Bool) (bytes : List Byte) (e : Event), id ∈ s.stragglers →
    (s.tgst = .idle ∨ id ≠ s.callid) → (e = .late id ∨ e = .wdone id n err ∨ e = .rdone id bytes eof err) →
    ∃ t, takeEvent e s = .next t ∧ (∀ u, u ∈ t.stragglers ↔ u ∈ s.stragglers ∧ u ≠ id) ∧
      { t with stragglers := s.stragglers, wire := s.wire, calls := s.calls, drawn := s.drawn } = s ∧
      ∃ k, t.wire = s.wire ++ (callBytes id s.calls).take k

/-- A completion that names no live call, a count over the request and an early expiry are refused
(41_transport_guard.md R94 to R97). The spec's own choice is the refusal of the count (92_eei_decisions.md D21); the others
are the model's reading (log 32), and that a completion of no live call is one by its tag is log 26. -/
def Obligations.ImpossibleEventsRefused : Prop :=
  ∀ (s : State) (id n : Nat) (err eof : Bool) (bytes : List Byte),
    (s.tgst = .writing → s.txlen.toNat < n → takeEvent (.wdone s.callid n err) s = .refused (.countTooLarge n)) ∧
    (s.tgst = .reading → 2 < bytes.length →
      takeEvent (.rdone s.callid bytes eof err) s = .refused (.readTooLong bytes.length)) ∧
    (0 < s.timer → takeEvent .expire s = .refused .notExpired) ∧
    (s.tgst = .idle → id ∉ s.stragglers → (∀ c ∈ s.calls, c.tag ≠ id) →
      takeEvent (.wdone id n err) s = .refused (.noSuchCall id) ∧
      takeEvent (.rdone id bytes eof err) s = .refused (.noSuchCall id) ∧
      takeEvent (.late id) s = .refused (.noSuchCall id))

/-- A tick counts a running deadline down by one, and changes nothing with no call pending or no time left
(41_transport_guard.md R93; the timer's form is the spec's own choice, 92_eei_decisions.md D14). -/
def Obligations.TickCountsDown : Prop :=
  ∀ s : State, ∃ t, takeEvent .tick s = .next t ∧ { t with timer := s.timer } = s ∧
    (s.tgst ≠ .idle → t.timer = s.timer - 1) ∧ (s.tgst = .idle → t.timer = s.timer)

/-- No hang (41_transport_guard.md R100): a call the Transport never completes is resolved as a timeout after the ticks its
timer has left, and one expiry. That the Timer moves when nothing is queued is the model's form of the rule (log 3). -/
def Obligations.PendingCallTimesOut : Prop :=
  ∀ s : State, GuardMatchesRound s → s.tgst ≠ .idle → s.inbox = [] →
    ∃ t, runSteps (s.timer + 1) s = .next t ∧ FailedWith .transportTimeout 0 s t ∧ s.callid ∈ t.stragglers ∧
      t.callid = s.callid

/-! ### Sessions -/

/-- One round of a pass that meets no failure (42_commands.md R110; 43_sequencer.md R124, R126): three steps send one frame
and count its chunk. That the queued answers wait for the calls they answer is the model's form (logs 1, 2). -/
def Obligations.RoundOfPass : Prop :=
  ∀ (s : State) (payload : List Byte) (reserved : Byte) (rest : List Event), inPass s →
    s.rstep = .build → s.tgst = .idle → s.fbst = .idle → s.acc = 0 → s.calls = [] →
    s.offset.toNat < s.ilen.toNat → Memory.readBytes s.img s.offset.toNat (nextChunk s) = some payload →
    s.inbox = chunkAnswers s.callid (7 + nextChunk s) reserved ++ rest →
    ∃ t, runSteps 3 s = .next t ∧ t.phase = s.phase ∧ t.rstep = .build ∧ t.tgst = .idle ∧ t.fbst = .idle ∧
      t.acc = 0 ∧ t.calls = [] ∧ t.inbox = rest ∧ t.callid = s.callid + 2 ∧ t.ilen = s.ilen ∧ t.img = s.img ∧
      t.offset.toNat = s.offset.toNat + nextChunk s ∧ t.chunk.toNat = nextChunk s ∧
      t.errkind = s.errkind ∧
      (s.phase = .writingFirmware →
        t.wire = s.wire ++ encodeFrame (.program s.offset (nextChunkByte s)) payload) ∧
      (s.phase = .verifyingFirmware →
        t.wire = s.wire ++ encodeFrame (.verify s.offset (nextChunkByte s)) payload)

/-- A whole pass that meets no failure (43_sequencer.md R124, R126, R130; 20_memory.md R51): for every image of 0 to 16384
bytes it sends `ceil(L / 60)` frames, in ascending offset, whose payloads joined are the image, and ends with
`OFFSET = L`. The queued answers wait for the calls they answer (logs 1, 2). -/
def Obligations.PassSendsWholeImage : Prop :=
  (∀ image : List Byte, (List.range (chunkCount image)).flatMap (chunkBytes image) = image) ∧
  ∀ (s : State) (image : List Byte) (rest : List Event) (verify : Bool), image.length ≤ 16384 →
    s.phase = (if verify then .verifyingFirmware else .writingFirmware) →
    s.rstep = .build → s.tgst = .idle → s.fbst = .idle → s.acc = 0 → s.calls = [] → s.offset = 0 →
    s.ilen.toNat = image.length → s.img = Memory.ofBytes 0 image →
    s.inbox = passAnswers image s.callid ++ rest →
    ∃ t, runSteps (3 * chunkCount image) s = .next t ∧ t.phase = s.phase ∧ t.rstep = .build ∧ t.tgst = .idle ∧
      t.offset.toNat = image.length ∧ t.callid = s.callid + 2 * chunkCount image ∧ t.inbox = rest ∧
      t.calls = [] ∧ t.acc = 0 ∧ t.fbst = .idle ∧ t.img = s.img ∧ t.ilen = s.ilen ∧
      t.wire = s.wire ++ passFrames verify image

/-- A zero-length image sends no Program and no Verify frame: from the start of the write pass the End frame is the next
one sent (43_sequencer.md R131). That two steps do it rests on log 25 (`Ending` and the End frame are one step), and that
they do so before any queued event, a reset or a `RESULT` included, on log 2. -/
def Obligations.EmptyImageSendsNoChunk : Prop :=
  ∀ s : State, s.phase = .writingFirmware → s.rstep = .build → s.tgst = .idle → s.fbst = .idle → s.acc = 0 →
    s.ilen = 0 →
    ∃ t, runSteps 2 s = .next t ∧ t.phase = .ending ∧ SentFrame (encodeFrame .endCmd []) s t ∧ t.inbox = s.inbox

/-- The phases are linear (43_sequencer.md R136): a step keeps the phase, goes one phase on, fails, starts a new session
from a phase where none runs, or is the reset (92_eei_decisions.md D18). -/
def Obligations.PhasesAreLinear : Prop :=
  ∀ s t : State, step s = .next t →
    t.phase = s.phase ∨
    (s.phase = .erasing ∧ t.phase = .writingFirmware) ∨
    (s.phase = .writingFirmware ∧ t.phase = .verifyingFirmware) ∨
    (s.phase = .verifyingFirmware ∧ t.phase = .ending) ∨
    (s.phase = .ending ∧ t.phase = .complete) ∨
    (busy s.phase = true ∧ t.phase = .failed) ∨
    (busy s.phase = false ∧ (t.phase = .erasing ∨ t.phase = .failed) ∧
      ∃ src rest, s.inbox = .seqStart src :: rest) ∨
    (t.phase = .idle ∧ ∃ rest, s.inbox = .reset :: rest)

/-- `Failed` is absorbing and reports its first error only (60_exceptions.md R153, R154): but for a new `SEQ.START` and the
reset (whose place is the spec's own choice, 92_eei_decisions.md D18), every step keeps the phase and the error registers,
and issues no call. -/
def Obligations.FailedIsAbsorbing : Prop :=
  ∀ s t : State, s.phase = .failed → step s = .next t →
    (t.phase = .failed ∧ t.errkind = s.errkind ∧ t.errphase = s.errphase ∧ t.errstatus = s.errstatus ∧
      t.callid = s.callid) ∨
    (∃ src rest, s.inbox = .seqStart src :: rest) ∨ (∃ rest, s.inbox = .reset :: rest)

/-- `OFFSET` moves only by the Sequencer: to 0 on entry to a pass, and by `CHUNK` on a validated acknowledgment, the first
byte of a completed read being 0 (10_state.md R12; 20_memory.md R50). -/
def Obligations.OffsetMovesOnAcknowledgmentOnly : Prop :=
  ∀ s t : State, step s = .next t →
    (∀ src rest, s.inbox ≠ .seqStart src :: rest) → (∀ rest, s.inbox ≠ .reset :: rest) →
    t.offset = s.offset ∨
    (t.offset = 0 ∧ ((s.phase = .erasing ∧ t.phase = .writingFirmware) ∨
      (s.phase = .writingFirmware ∧ t.phase = .verifyingFirmware))) ∨
    (t.offset = s.offset + BitVec.ofNat 16 s.chunk.toNat ∧ inPass s ∧ s.rstep = .recv ∧ s.tgst = .reading ∧
      ∃ reserved eof rest, s.inbox = .rdone s.callid [0, reserved] eof false :: rest)

/-- A session ends at rest, and a running one never stops between its rounds (43_sequencer.md R137; 60_exceptions.md R141).
A step after which no session runs, of a running session or of a `SEQ.START` whose image is too long, ends in `Complete` or
`Failed` with no call pending, the timer disarmed, no frame open and the accumulator clear; and at `S_BUILD` of a running
session the Sequencer always goes on. The second part is the model's own: that the Sequencer's step comes before any queued
event, a reset included, is log 2, which the rules do not say. That a start finds no frame open is the model's check (log
19). -/
def Obligations.SessionEndsAtRest : Prop :=
  (∀ s t : State, GuardMatchesRound s → BuilderAtRest s → step s = .next t →
    (busy s.phase = true ∨ ∃ src rest, s.inbox = .seqStart src :: rest) → busy t.phase = false →
    (∀ rest, s.inbox ≠ .reset :: rest) → EndedAtRest t) ∧
  ∀ s : State, GuardMatchesRound s → BuilderAtRest s → PassInRange s → ImageLoaded s → busy s.phase = true →
    s.rstep = .build → ∃ t, step s = .next t ∧ busy t.phase = true

/-- Every call has its own tag and its own full deadline. A step other than a reset either keeps `CALLID`, and then issues
no call: the calls alive after it were alive before, under their tags, no guard state is entered and no deadline lengthened;
or it adds 1 to `CALLID`, and then issues one call, of that tag, and loads the timer (10_state.md R23, R24;
41_transport_guard.md R91, R92; the tags are the spec's own choice, 92_eei_decisions.md D16). -/
def Obligations.OneFreshTagPerCall : Prop :=
  ∀ s t : State, step s = .next t → (∀ rest, s.inbox ≠ .reset :: rest) →
    (t.callid = s.callid ∧ CallsKept s.calls t.calls ∧ (t.tgst = .idle ∨ t.tgst = s.tgst) ∧ t.timer ≤ s.timer) ∨
    (t.callid = s.callid + 1 ∧ t.tgst ≠ .idle ∧ t.timer = Config.deadlineTicks ∧
      ∃ old bytes, t.calls = old ++ [⟨t.callid, bytes⟩] ∧ CallsKept s.calls old)

/-- The image is read-only (its latching is the model's choice, log 17): no step but a new `SEQ.START` and the reset changes a byte of it or its length
(20_memory.md R40, R41). -/
def Obligations.ImageIsReadOnly : Prop :=
  ∀ s t : State, step s = .next t →
    (∀ src rest, s.inbox ≠ .seqStart src :: rest) → (∀ rest, s.inbox ≠ .reset :: rest) →
    t.ilen = s.ilen ∧ ∀ a, readByte .img a t = readByte .img a s

/-! ### Reset and result -/

/-- Every register after reset (10_state.md R36, 70_reset_and_hazards.md R170, R172). The values are the spec's own choice
(92_eei_decisions.md D18). The model's own are the empty `IMG` (log 17), the buffers that hold no byte (log 10), the other
agents' part (log 11), and that a step with nothing queued waits, its form of R172 (log 4). -/
def Obligations.ResetRegisters : Prop :=
  let s := State.reset
  s.acc = 0 ∧ s.flen = 0 ∧ s.fbst = .idle ∧ s.offset = 0 ∧ s.chunk = 0 ∧ s.ilen = 0 ∧ s.phase = .idle ∧
  s.rstep = .build ∧ s.tgst = .idle ∧ s.timer = 0 ∧ s.txlen = 0 ∧ s.callid = 0 ∧ s.rxn = 0 ∧ s.errkind = .none ∧
  s.errphase = .none ∧ s.errstatus = 0 ∧ s.stragglers = [] ∧ (∀ sp a, readByte sp a s = none) ∧ step s = .next s

/-- The reset state is sound in every sense the invariants give (10_state.md R36; its values are the spec's own choice,
92_eei_decisions.md D18, and the model's for the other agents, log 11). -/
def Obligations.ResetIsSound : Prop :=
  MemoryCanonical State.reset ∧ BuffersInRange State.reset ∧ CountsInRange State.reset ∧ PassInRange State.reset ∧
  GuardMatchesRound State.reset ∧ ErrorsRecorded State.reset ∧ BuilderAtRest State.reset ∧
  SessionOwnsCall State.reset ∧ StragglersIssued State.reset ∧ ImageLoaded State.reset

/-- A reset taken at any moment puts every register at its reset value, empties `STRAGGLERS`, and leaves the Transport's
calls alive (70_reset_and_hazards.md R170, R171; the spec's own choice, 92_eei_decisions.md D18, which says that a reset
with a call pending is best refused). That it is done at any moment is the model's choice (log 13), as is that bytes of the
pending write may reach the wire then (log 12) and that `IMG` is emptied (log 17). -/
def Obligations.ResetForgetsCalls : Prop :=
  ∀ s : State, ∃ t, takeEvent .reset s = .next t ∧
    { t with wire := [], calls := [], handleOpen := false, inbox := [], results := [], drawn := 0 } = State.reset ∧
    t.calls.map Call.tag = s.calls.map Call.tag ∧ t.inbox = s.inbox ∧ t.handleOpen = s.handleOpen ∧
    (s.tgst = .idle → t.wire = s.wire) ∧ ∃ k, t.wire = s.wire ++ (callBytes s.callid s.calls).take k

/-- `RESULT` returns the phase and the error registers in every state, a terminal one included, and changes no state of the
block, so it may be repeated (43_sequencer.md R133; its form is the spec's own, 92_eei_decisions.md D25; the list of answers
is the model's, log 30). A step takes a queued one wherever the Sequencer has no step of its own to make (log 2). No session
runs exactly when the phase is one where it is done, failed or idle (10_state.md R25). -/
def Obligations.ResultReadsWithoutEffect : Prop :=
  (∀ s : State, ∃ t, takeEvent .result s = .next t ∧
    t.results = s.results ++ [⟨s.phase, s.errkind, s.errphase, s.errstatus⟩] ∧ { t with results := s.results } = s) ∧
  (∀ (s : State) (rest : List Event), s.rstep ≠ .build ∨ busy s.phase = false → s.inbox = .result :: rest →
    ∃ t, step s = .next t ∧ t.results = s.results ++ [⟨s.phase, s.errkind, s.errphase, s.errstatus⟩] ∧
      { t with results := s.results, inbox := s.inbox } = s) ∧
  ∀ s : State, busy s.phase = false ↔ (done s.phase = true ∨ fail s.phase = true ∨ s.phase = .idle)

/-! ### Invariants that every step keeps -/

/-- The byte spaces keep their canonical form, and the buffers never hold a byte outside their sizes (10_state.md R16, R18;
92_eei_decisions.md D12). The list form of the spaces is the model's (log 10). -/
def Obligations.StepKeepsMemoryCanonical : Prop :=
  ∀ s t : State, MemoryCanonical s → BuffersInRange s → step s = .next t → MemoryCanonical t ∧ BuffersInRange t

/-- The counters keep their ranges (10_state.md R10; the widths are the spec's own choice, 92_eei_decisions.md D4). -/
def Obligations.StepKeepsCountsInRange : Prop :=
  ∀ s t : State, CountsInRange s → step s = .next t → CountsInRange t

/-- `0 <= OFFSET <= ILEN <= 16384`, and `OFFSET` never wraps (10_state.md R12, R13, R14; 43_sequencer.md R130). -/
def Obligations.StepKeepsPassInRange : Prop :=
  ∀ s t : State, PassInRange s → step s = .next t → PassInRange t

/-- The timer is armed only in the states that wait on the transport (60_exceptions.md R157; 10_state.md R20, R22, R23; the
spec's own choice, 92_eei_decisions.md D6, D14, D29). -/
def Obligations.StepKeepsGuardMatchesRound : Prop :=
  ∀ s t : State, GuardMatchesRound s → step s = .next t → GuardMatchesRound t

/-- The error registers speak exactly in `Failed` (10_state.md R26, R27, R28; 60_exceptions.md R140). -/
def Obligations.StepKeepsErrorsRecorded : Prop :=
  ∀ s t : State, ErrorsRecorded s → step s = .next t → ErrorsRecorded t

/-- The accumulator is clear and no frame is open between the steps of a running session (40_frame_builder.md R88; the
spec's own choice, 92_eei_decisions.md D11). That a session starts with no frame open is the model's check (log 19). -/
def Obligations.StepKeepsBuilderAtRest : Prop :=
  ∀ s t : State, GuardMatchesRound s → BuilderAtRest s → step s = .next t → BuilderAtRest t

/-- A running session has no abandoned call and at most one call, whose copy is the frame in the buffer
(20_memory.md R50, R56, R57). -/
def Obligations.StepKeepsSessionOwnsCall : Prop :=
  ∀ s t : State, GuardMatchesRound s → SessionOwnsCall s → step s = .next t → SessionOwnsCall t

/-- `STRAGGLERS` stays a set of issued tags (10_state.md R24, R33; the tags are the spec's own choice,
92_eei_decisions.md D16). -/
def Obligations.StepKeepsStragglersIssued : Prop :=
  ∀ s t : State, StragglersIssued s → step s = .next t → StragglersIssued t

/-- `IMG` holds exactly `ILEN` bytes (20_memory.md R40; its latching at the start is the model's choice, log 17). -/
def Obligations.StepKeepsImageLoaded : Prop :=
  ∀ s t : State, ImageLoaded s → step s = .next t → ImageLoaded t
end

