-- ==== Sys2Proof/Laws/Decode.lean ====
section
/-! SUPPORT. The small laws of the encoding: the address bytes and the address are one another's inverse (30_encoding.md
R64), what is well formed, and what an acknowledgment's two bytes decode to (R66). -/

namespace Sys2Proof

/-- The low address byte as a number. -/
@[simp] theorem toNat_arg1Of (off : BitVec 16) : (arg1Of off).toNat = off.toNat % 256 := by
  simp [arg1Of]

/-- The high address byte as a number. -/
@[simp] theorem toNat_arg2Of (off : BitVec 16) : (arg2Of off).toNat = off.toNat / 256 := by
  have := off.isLt
  simp only [arg2Of, BitVec.extractLsb'_toNat, Nat.shiftRight_eq_div_pow]
  omega

/-- The address of two bytes as a number. -/
@[simp] theorem toNat_offsetOf (a1 a2 : Byte) : (offsetOf a1 a2).toNat = a2.toNat * 256 + a1.toNat := by
  have h := a1.isLt
  rw [offsetOf, BitVec.toNat_append, Nat.mul_comm, show (256 : Nat) = 2 ^ 8 from rfl,
    Nat.two_pow_add_eq_or_of_lt h, Nat.shiftLeft_eq, Nat.mul_comm]

/-- The address bytes of an address give it back. -/
@[simp] theorem offsetOf_args (off : BitVec 16) : offsetOf (arg1Of off) (arg2Of off) = off := by
  apply BitVec.eq_of_toNat_eq
  simp
  omega

/-- The low byte of an assembled address. -/
@[simp] theorem arg1Of_offsetOf (a1 a2 : Byte) : arg1Of (offsetOf a1 a2) = a1 := by
  apply BitVec.eq_of_toNat_eq
  have := a1.isLt
  simp
  omega

/-- The high byte of an assembled address. -/
@[simp] theorem arg2Of_offsetOf (a1 a2 : Byte) : arg2Of (offsetOf a1 a2) = a2 := by
  apply BitVec.eq_of_toNat_eq
  have := a1.isLt
  have := a2.isLt
  simp
  omega

/-- An accepted instruction is well formed. -/
theorem accept_ok {i j : Instr} {rest rest' : List Byte} (h : accept i rest = .ok (j, rest')) :
    i.WellFormed ∧ j = i ∧ rest' = rest := by
  unfold accept at h
  split at h
  · cases h
    exact ⟨‹_›, rfl, rfl⟩
  · cases h

/-- A well-formed instruction is accepted. -/
theorem accept_of_wellFormed {i : Instr} (h : i.WellFormed) (rest : List Byte) : accept i rest = .ok (i, rest) := by
  simp only [accept, show i.defect = none from h]

/-- The acknowledgment of any two bytes is well formed and encodes to them. -/
theorem ackInstr_canonical (status reserved : Byte) :
    (ackInstr status reserved).WellFormed ∧ encode (ackInstr status reserved) = [status, reserved] ∧
      (ackInstr status reserved).direction = .received := by
  unfold ackInstr
  split
  · subst_vars
    exact ⟨rfl, rfl, rfl⟩
  · rename_i h
    exact ⟨by simp [Instr.WellFormed, Instr.defect, h], rfl, rfl⟩

/-- What a well-formed failure acknowledgment satisfies (30_encoding.md R67). -/
theorem ackFail_wellFormed {status reserved : Byte} : (Instr.ackFail status reserved).WellFormed ↔ status ≠ 0 := by
  show (if status = Config.ackOk then some Defect.statusZero else none) = none ↔ status ≠ Config.ackOk
  split
  · exact iff_of_false nofun (not_not_intro ‹_›)
  · exact iff_of_true rfl ‹_›

/-- What a well-formed chunk satisfies: the constraints of 30_encoding.md R67 and no other. -/
theorem chunkDefect_none {off : BitVec 16} {n : Byte} :
    chunkDefect off n = none ↔ 1 ≤ n.toNat ∧ n.toNat ≤ 60 ∧ off.toNat ≤ 16380 := by
  unfold chunkDefect
  rw [show Config.maxPayload = 60 from rfl, show Config.maxOffset = 16380 from rfl]
  split
  · exact iff_of_false nofun (by omega)
  · split
    · exact iff_of_false nofun (by omega)
    · split
      · exact iff_of_false nofun (by omega)
      · exact iff_of_true rfl (by omega)

/-- What a chunk of a session satisfies beside (42_commands.md R112). -/
theorem chunkRangeDefect_none {off : BitVec 16} {n : Byte} {ilen : Nat} :
    chunkRangeDefect off n ilen = none ↔ off.toNat % 60 = 0 ∧ off.toNat + n.toNat ≤ ilen := by
  unfold chunkRangeDefect
  rw [show Config.maxPayload = 60 from rfl]
  split
  · exact iff_of_false nofun (by omega)
  · split
    · exact iff_of_false nofun (by omega)
    · exact iff_of_true rfl (by omega)

end Sys2Proof
end

