-- ==== Sys2Proof/Laws/Memory.lean ====
section
/-! SUPPORT. The laws of the byte spaces (20_memory.md R41): a read after a write, what a write leaves alone, and that
every operation keeps the canonical form. -/

namespace Sys2Proof.Machine

@[simp] theorem Memory.read_nil (a : Nat) : Memory.read [] a = none := rfl

@[simp] theorem Memory.readBytes_zero (m : Memory) (a : Nat) : Memory.readBytes m a 0 = some [] := rfl

@[simp] theorem Memory.writeBytes_nil (m : Memory) (a : Nat) : Memory.writeBytes m a [] = m := rfl

@[simp] theorem Memory.writeBytes_cons (m : Memory) (a : Nat) (b : Byte) (bs : List Byte) :
    Memory.writeBytes m a (b :: bs) = Memory.writeBytes (Memory.write m a b) (a + 1) bs := rfl

/-- A read of the written address gives the byte written, in any list. -/
@[simp] theorem Memory.read_write_same (m : Memory) (a : Nat) (b : Byte) :
    Memory.read (Memory.write m a b) a = some b := by
  induction m with
  | nil => simp [Memory.write, Memory.read]
  | cons c m ih =>
    simp only [Memory.write]
    split
    · simp [Memory.read]
    · split
      · simp [Memory.read]
      · rename_i h
        simp [Memory.read, ih, Ne.symm h]

/-- A write leaves every other address alone. -/
theorem Memory.read_write_other (m : Memory) (a a' : Nat) (b : Byte) (h : a' ≠ a) :
    Memory.read (Memory.write m a b) a' = Memory.read m a' := by
  induction m with
  | nil => simp [Memory.write, Memory.read, Ne.symm h]
  | cons c m ih =>
    simp only [Memory.write]
    split
    · simp [Memory.read, Ne.symm h]
    · split
      · rename_i h2
        subst h2
        simp [Memory.read, Ne.symm h]
      · simp [Memory.read, ih]

/-- Every cell of a written space is an old one or the written one. -/
theorem Memory.mem_write {m : Memory} {a : Nat} {b : Byte} {c : Host.Cell}
    (h : c ∈ Memory.write m a b) : c ∈ m ∨ c = (a, b) := by
  induction m with
  | nil => simpa [Memory.write] using h
  | cons d m ih =>
    simp only [Memory.write] at h
    split at h
    · simp only [List.mem_cons] at h ⊢
      exact h.elim .inr (fun h => .inl h)
    · split at h
      · simp only [List.mem_cons] at h ⊢
        exact h.elim .inr (fun h => .inl (.inr h))
      · simp only [List.mem_cons] at h ⊢
        rcases h with h | h
        · exact .inl (.inl h)
        · rcases ih h with h | h
          · exact .inl (.inr h)
          · exact .inr h

/-- A write keeps the canonical form. -/
theorem Memory.wf_write {m : Memory} (h : Memory.wf m) (a : Nat) (b : Byte) :
    Memory.wf (Memory.write m a b) := by
  induction m with
  | nil => simp [Memory.write]
  | cons c m ih =>
    rw [Memory.wf, List.pairwise_cons] at h
    simp only [Memory.write]
    split
    · rename_i hlt
      rw [Memory.wf, List.pairwise_cons]
      refine ⟨?_, List.pairwise_cons.2 h⟩
      intro d hd
      rcases List.mem_cons.1 hd with rfl | hd
      · exact hlt
      · exact Nat.lt_trans hlt (h.1 d hd)
    · split
      · rename_i heq
        subst heq
        exact List.pairwise_cons.2 h
      · rw [Memory.wf, List.pairwise_cons]
        refine ⟨?_, ih h.2⟩
        intro d hd
        rcases Memory.mem_write hd with hd | rfl
        · exact h.1 d hd
        · simp only
          omega

/-- A block write keeps the canonical form. -/
theorem Memory.wf_writeBytes {m : Memory} (h : Memory.wf m) (a : Nat) (bs : List Byte) :
    Memory.wf (Memory.writeBytes m a bs) := by
  induction bs generalizing m a with
  | nil => exact h
  | cons b bs ih => exact ih (Memory.wf_write h a b) (a + 1)

/-- A block write leaves every address outside the block alone. -/
theorem Memory.read_writeBytes_outside (m : Memory) (a a' : Nat) (bs : List Byte)
    (h : a' < a ∨ a + bs.length ≤ a') :
    Memory.read (Memory.writeBytes m a bs) a' = Memory.read m a' := by
  induction bs generalizing m a with
  | nil => rfl
  | cons b bs ih =>
    simp only [List.length_cons] at h
    rw [Memory.writeBytes_cons, ih _ _ (by omega), Memory.read_write_other _ _ _ _ (by omega)]

/-- A read inside a written block gives the block's byte. -/
theorem Memory.read_writeBytes_inside (m : Memory) (a i : Nat) (bs : List Byte) (h : i < bs.length) :
    Memory.read (Memory.writeBytes m a bs) (a + i) = bs[i]? := by
  induction bs generalizing m a i with
  | nil => simp at h
  | cons b bs ih =>
    rw [Memory.writeBytes_cons]
    cases i with
    | zero => rw [Memory.read_writeBytes_outside _ _ _ _ (by omega)]; simp
    | succ i =>
      have := ih (Memory.write m a b) (a + 1) i (by simpa using h)
      rw [show a + (i + 1) = a + 1 + i by omega, this]
      simp

/-- What `MemRead` reads depends on the addressed bytes only. -/
theorem Memory.readBytes_congr {m m' : Memory} {a n : Nat}
    (h : ∀ i, a ≤ i → i < a + n → Memory.read m i = Memory.read m' i) :
    Memory.readBytes m a n = Memory.readBytes m' a n := by
  induction n generalizing a with
  | zero => rfl
  | succ n ih =>
    simp only [Memory.readBytes]
    rw [h a (by omega) (by omega), ih (fun i h1 h2 => h i (by omega) (by omega))]

/-- A block read back whole. -/
theorem Memory.readBytes_writeBytes (m : Memory) (a : Nat) (bs : List Byte) :
    Memory.readBytes (Memory.writeBytes m a bs) a bs.length = some bs := by
  induction bs generalizing m a with
  | nil => rfl
  | cons b bs ih =>
    simp only [List.length_cons, Memory.readBytes, Memory.writeBytes_cons]
    rw [Memory.read_writeBytes_outside _ _ _ _ (by omega), ih]
    simp

/-- A read block has the length asked. -/
theorem Memory.length_of_readBytes {m : Memory} {a n : Nat} {bs : List Byte}
    (h : Memory.readBytes m a n = some bs) : bs.length = n := by
  induction n generalizing a bs with
  | zero => simp at h; simp [← h]
  | succ n ih =>
    simp only [Memory.readBytes] at h
    split at h
    · rename_i b bs' _ h2
      have := ih h2
      simp only [Option.some.injEq] at h
      simp [← h, this]
    · simp at h

/-- A one-byte read is the byte at its address. -/
theorem Memory.readBytes_one {m : Memory} {a : Nat} {bs : List Byte} (h : Memory.readBytes m a 1 = some bs) :
    Memory.read m a = bs.head? := by
  simp only [Memory.readBytes] at h
  split at h
  · rename_i b bs' h1 h2
    simp only [Option.some.injEq] at h2 h
    subst h2 h
    simpa using h1
  · cases h

/-- One block after another is one block. -/
theorem Memory.writeBytes_append (m : Memory) (a : Nat) (bs cs : List Byte) :
    Memory.writeBytes m a (bs ++ cs) = Memory.writeBytes (Memory.writeBytes m a bs) (a + bs.length) cs := by
  induction bs generalizing m a with
  | nil => rfl
  | cons b bs ih =>
    simp only [List.cons_append, Memory.writeBytes_cons, List.length_cons]
    rw [ih, show a + 1 + bs.length = a + (bs.length + 1) by omega]

/-- The cells of a byte sequence lie at rising addresses from its start. -/
theorem Memory.mem_ofBytes {a : Nat} {bs : List Byte} {c : Host.Cell} (h : c ∈ Memory.ofBytes a bs) :
    a ≤ c.1 ∧ c.1 < a + bs.length := by
  induction bs generalizing a with
  | nil => simp [Memory.ofBytes] at h
  | cons b bs ih =>
    simp only [Memory.ofBytes, List.mem_cons] at h
    rcases h with rfl | h
    · simp
    · have := ih h
      simp only [List.length_cons]
      omega

/-- A loaded byte sequence is in canonical form. -/
theorem Memory.wf_ofBytes (a : Nat) (bs : List Byte) : Memory.wf (Memory.ofBytes a bs) := by
  induction bs generalizing a with
  | nil => simp [Memory.ofBytes]
  | cons b bs ih =>
    simp only [Memory.ofBytes, Memory.wf, List.pairwise_cons]
    refine ⟨fun c hc => ?_, ih (a + 1)⟩
    have := Memory.mem_ofBytes hc
    omega

/-- The bytes of a loaded sequence are where they were put. -/
theorem Memory.read_ofBytes (a i : Nat) (bs : List Byte) :
    Memory.read (Memory.ofBytes a bs) (a + i) = bs[i]? := by
  induction bs generalizing a i with
  | nil => simp [Memory.ofBytes]
  | cons b bs ih =>
    cases i with
    | zero => simp [Memory.ofBytes, Memory.read]
    | succ i =>
      simp only [Memory.ofBytes, Memory.read]
      rw [if_neg (by omega), show a + (i + 1) = a + 1 + i by omega, ih]
      simp

/-- A part of a loaded sequence, read back. -/
theorem Memory.readBytes_ofBytes (bs : List Byte) (a n : Nat) (h : a + n ≤ bs.length) :
    Memory.readBytes (Memory.ofBytes 0 bs) a n = some ((bs.drop a).take n) := by
  induction n generalizing a with
  | zero => simp
  | succ n ih =>
    simp only [Memory.readBytes]
    have h1 := Memory.read_ofBytes 0 a bs
    rw [Nat.zero_add] at h1
    have h2 : a < bs.length := by omega
    rw [h1, ih (a + 1) (by omega), List.getElem?_eq_getElem h2, List.drop_eq_getElem_cons h2, List.take_succ_cons]

/-- `MemRead` answers what its continuation answers, or stops as 20_memory.md R41 and 10_state.md R15 say. -/
theorem memRead_of_bytes {sp : Space} {a n : Nat} {s : State} {k : List Byte → Out} {bs : List Byte}
    (h : readAllowed sp a n s = true) (hb : Memory.readBytes (spaceOf sp s) a n = some bs) :
    memRead sp a n s k = k bs := by
  simp [memRead, h, hb]

/-- What a `MemRead` that goes on to a next state has read. -/
theorem memRead_next {sp : Space} {a n : Nat} {s t : State} {k : List Byte → Out}
    (h : memRead sp a n s k = .next t) :
    ∃ bs, readAllowed sp a n s = true ∧ Memory.readBytes (spaceOf sp s) a n = some bs ∧ k bs = .next t := by
  unfold memRead at h
  split at h
  · rename_i h1
    split at h
    · rename_i bs h2
      exact ⟨bs, h1, h2, h⟩
    · cases h
  · cases h

/-- If two operations in turn go on to a next state, the first gave one and the second went on from it. -/
theorem andThen_next {o : Out} {k : State → Out} {t : State} (h : andThen o k = .next t) :
    ∃ s, o = .next s ∧ k s = .next t := by
  cases o with
  | next s => exact ⟨s, rfl, h⟩
  | fault r => cases h
  | refused r => cases h

@[simp] theorem andThen_of_next (s : State) (k : State → Out) : andThen (.next s) k = k s := rfl

/-- Every tag of a set with one more tag is an old one or the new one. -/
theorem mem_insertTag {t u : Nat} {us : List Nat} : u ∈ insertTag t us ↔ u = t ∨ u ∈ us := by
  induction us with
  | nil => simp [insertTag]
  | cons v vs ih =>
    simp only [insertTag]
    split
    · simp
    · split
      · rename_i h
        subst h
        simp
      · simp only [List.mem_cons, ih]
        exact or_left_comm

/-- Adding a tag keeps the set's canonical form. -/
theorem pairwise_insertTag {t : Nat} {us : List Nat} (h : us.Pairwise (fun a b => a < b)) :
    (insertTag t us).Pairwise (fun a b => a < b) := by
  induction us with
  | nil => simp [insertTag]
  | cons v vs ih =>
    rw [List.pairwise_cons] at h
    simp only [insertTag]
    split
    · rename_i hlt
      rw [List.pairwise_cons]
      refine ⟨fun w hw => ?_, List.pairwise_cons.2 h⟩
      rcases List.mem_cons.1 hw with rfl | hw
      · exact hlt
      · exact Nat.lt_trans hlt (h.1 w hw)
    · split
      · exact List.pairwise_cons.2 h
      · rw [List.pairwise_cons]
        refine ⟨fun w hw => ?_, ih h.2⟩
        rcases mem_insertTag.1 hw with rfl | hw
        · omega
        · exact h.1 w hw

/-- Taking a tag out keeps the set's canonical form. -/
theorem pairwise_removeTag {t : Nat} {us : List Nat} (h : us.Pairwise (fun a b => a < b)) :
    (removeTag t us).Pairwise (fun a b => a < b) :=
  h.filter _

/-- A tag of a set less one tag is one of the set. -/
theorem mem_of_mem_removeTag {t u : Nat} {us : List Nat} (h : u ∈ removeTag t us) : u ∈ us :=
  (List.mem_filter.1 h).1

end Sys2Proof.Machine
end

