-- ==== Sys2Proof/Laws/State.lean ====
section
/-! SUPPORT. One lemma per field per named update of the state: what the update writes, and that it writes nothing else. -/

namespace Sys2Proof.Machine

section Updates

@[simp] theorem fbClear_acc (s : State) : (fbClear s).acc = 0 := rfl
@[simp] theorem fbClear_fbuf (s : State) : (fbClear s).fbuf = s.fbuf := rfl
@[simp] theorem fbClear_flen (s : State) : (fbClear s).flen = s.flen := rfl
@[simp] theorem fbClear_fbst (s : State) : (fbClear s).fbst = s.fbst := rfl
@[simp] theorem fbClear_offset (s : State) : (fbClear s).offset = s.offset := rfl
@[simp] theorem fbClear_chunk (s : State) : (fbClear s).chunk = s.chunk := rfl
@[simp] theorem fbClear_ilen (s : State) : (fbClear s).ilen = s.ilen := rfl
@[simp] theorem fbClear_phase (s : State) : (fbClear s).phase = s.phase := rfl
@[simp] theorem fbClear_rstep (s : State) : (fbClear s).rstep = s.rstep := rfl
@[simp] theorem fbClear_tgst (s : State) : (fbClear s).tgst = s.tgst := rfl
@[simp] theorem fbClear_timer (s : State) : (fbClear s).timer = s.timer := rfl
@[simp] theorem fbClear_txlen (s : State) : (fbClear s).txlen = s.txlen := rfl
@[simp] theorem fbClear_callid (s : State) : (fbClear s).callid = s.callid := rfl
@[simp] theorem fbClear_rxbuf (s : State) : (fbClear s).rxbuf = s.rxbuf := rfl
@[simp] theorem fbClear_rxn (s : State) : (fbClear s).rxn = s.rxn := rfl
@[simp] theorem fbClear_errkind (s : State) : (fbClear s).errkind = s.errkind := rfl
@[simp] theorem fbClear_errphase (s : State) : (fbClear s).errphase = s.errphase := rfl
@[simp] theorem fbClear_errstatus (s : State) : (fbClear s).errstatus = s.errstatus := rfl
@[simp] theorem fbClear_stragglers (s : State) : (fbClear s).stragglers = s.stragglers := rfl
@[simp] theorem fbClear_img (s : State) : (fbClear s).img = s.img := rfl
@[simp] theorem fbClear_wire (s : State) : (fbClear s).wire = s.wire := rfl
@[simp] theorem fbClear_calls (s : State) : (fbClear s).calls = s.calls := rfl
@[simp] theorem fbClear_handleOpen (s : State) : (fbClear s).handleOpen = s.handleOpen := rfl
@[simp] theorem fbClear_inbox (s : State) : (fbClear s).inbox = s.inbox := rfl
@[simp] theorem fbClear_results (s : State) : (fbClear s).results = s.results := rfl
@[simp] theorem fbClear_drawn (s : State) : (fbClear s).drawn = s.drawn := rfl

@[simp] theorem putHeader_acc (cmd len a1 a2 : Byte) (s : State) : (putHeader cmd len a1 a2 s).acc = s.acc + cmd + len + a1 + a2 := rfl
@[simp] theorem putHeader_fbuf (cmd len a1 a2 : Byte) (s : State) : (putHeader cmd len a1 a2 s).fbuf = Memory.writeBytes s.fbuf 0 (headerBytes cmd len a1 a2) := rfl
@[simp] theorem putHeader_flen (cmd len a1 a2 : Byte) (s : State) : (putHeader cmd len a1 a2 s).flen = 6 := rfl
@[simp] theorem putHeader_fbst (cmd len a1 a2 : Byte) (s : State) : (putHeader cmd len a1 a2 s).fbst = .opened := rfl
@[simp] theorem putHeader_offset (cmd len a1 a2 : Byte) (s : State) : (putHeader cmd len a1 a2 s).offset = s.offset := rfl
@[simp] theorem putHeader_chunk (cmd len a1 a2 : Byte) (s : State) : (putHeader cmd len a1 a2 s).chunk = s.chunk := rfl
@[simp] theorem putHeader_ilen (cmd len a1 a2 : Byte) (s : State) : (putHeader cmd len a1 a2 s).ilen = s.ilen := rfl
@[simp] theorem putHeader_phase (cmd len a1 a2 : Byte) (s : State) : (putHeader cmd len a1 a2 s).phase = s.phase := rfl
@[simp] theorem putHeader_rstep (cmd len a1 a2 : Byte) (s : State) : (putHeader cmd len a1 a2 s).rstep = s.rstep := rfl
@[simp] theorem putHeader_tgst (cmd len a1 a2 : Byte) (s : State) : (putHeader cmd len a1 a2 s).tgst = s.tgst := rfl
@[simp] theorem putHeader_timer (cmd len a1 a2 : Byte) (s : State) : (putHeader cmd len a1 a2 s).timer = s.timer := rfl
@[simp] theorem putHeader_txlen (cmd len a1 a2 : Byte) (s : State) : (putHeader cmd len a1 a2 s).txlen = s.txlen := rfl
@[simp] theorem putHeader_callid (cmd len a1 a2 : Byte) (s : State) : (putHeader cmd len a1 a2 s).callid = s.callid := rfl
@[simp] theorem putHeader_rxbuf (cmd len a1 a2 : Byte) (s : State) : (putHeader cmd len a1 a2 s).rxbuf = s.rxbuf := rfl
@[simp] theorem putHeader_rxn (cmd len a1 a2 : Byte) (s : State) : (putHeader cmd len a1 a2 s).rxn = s.rxn := rfl
@[simp] theorem putHeader_errkind (cmd len a1 a2 : Byte) (s : State) : (putHeader cmd len a1 a2 s).errkind = s.errkind := rfl
@[simp] theorem putHeader_errphase (cmd len a1 a2 : Byte) (s : State) : (putHeader cmd len a1 a2 s).errphase = s.errphase := rfl
@[simp] theorem putHeader_errstatus (cmd len a1 a2 : Byte) (s : State) : (putHeader cmd len a1 a2 s).errstatus = s.errstatus := rfl
@[simp] theorem putHeader_stragglers (cmd len a1 a2 : Byte) (s : State) : (putHeader cmd len a1 a2 s).stragglers = s.stragglers := rfl
@[simp] theorem putHeader_img (cmd len a1 a2 : Byte) (s : State) : (putHeader cmd len a1 a2 s).img = s.img := rfl
@[simp] theorem putHeader_wire (cmd len a1 a2 : Byte) (s : State) : (putHeader cmd len a1 a2 s).wire = s.wire := rfl
@[simp] theorem putHeader_calls (cmd len a1 a2 : Byte) (s : State) : (putHeader cmd len a1 a2 s).calls = s.calls := rfl
@[simp] theorem putHeader_handleOpen (cmd len a1 a2 : Byte) (s : State) : (putHeader cmd len a1 a2 s).handleOpen = s.handleOpen := rfl
@[simp] theorem putHeader_inbox (cmd len a1 a2 : Byte) (s : State) : (putHeader cmd len a1 a2 s).inbox = s.inbox := rfl
@[simp] theorem putHeader_results (cmd len a1 a2 : Byte) (s : State) : (putHeader cmd len a1 a2 s).results = s.results := rfl
@[simp] theorem putHeader_drawn (cmd len a1 a2 : Byte) (s : State) : (putHeader cmd len a1 a2 s).drawn = s.drawn := rfl

@[simp] theorem putPayloadByte_acc (b : Byte) (s : State) : (putPayloadByte b s).acc = s.acc + b := rfl
@[simp] theorem putPayloadByte_fbuf (b : Byte) (s : State) : (putPayloadByte b s).fbuf = Memory.write s.fbuf s.flen.toNat b := rfl
@[simp] theorem putPayloadByte_flen (b : Byte) (s : State) : (putPayloadByte b s).flen = s.flen + 1 := rfl
@[simp] theorem putPayloadByte_fbst (b : Byte) (s : State) : (putPayloadByte b s).fbst = s.fbst := rfl
@[simp] theorem putPayloadByte_offset (b : Byte) (s : State) : (putPayloadByte b s).offset = s.offset := rfl
@[simp] theorem putPayloadByte_chunk (b : Byte) (s : State) : (putPayloadByte b s).chunk = s.chunk := rfl
@[simp] theorem putPayloadByte_ilen (b : Byte) (s : State) : (putPayloadByte b s).ilen = s.ilen := rfl
@[simp] theorem putPayloadByte_phase (b : Byte) (s : State) : (putPayloadByte b s).phase = s.phase := rfl
@[simp] theorem putPayloadByte_rstep (b : Byte) (s : State) : (putPayloadByte b s).rstep = s.rstep := rfl
@[simp] theorem putPayloadByte_tgst (b : Byte) (s : State) : (putPayloadByte b s).tgst = s.tgst := rfl
@[simp] theorem putPayloadByte_timer (b : Byte) (s : State) : (putPayloadByte b s).timer = s.timer := rfl
@[simp] theorem putPayloadByte_txlen (b : Byte) (s : State) : (putPayloadByte b s).txlen = s.txlen := rfl
@[simp] theorem putPayloadByte_callid (b : Byte) (s : State) : (putPayloadByte b s).callid = s.callid := rfl
@[simp] theorem putPayloadByte_rxbuf (b : Byte) (s : State) : (putPayloadByte b s).rxbuf = s.rxbuf := rfl
@[simp] theorem putPayloadByte_rxn (b : Byte) (s : State) : (putPayloadByte b s).rxn = s.rxn := rfl
@[simp] theorem putPayloadByte_errkind (b : Byte) (s : State) : (putPayloadByte b s).errkind = s.errkind := rfl
@[simp] theorem putPayloadByte_errphase (b : Byte) (s : State) : (putPayloadByte b s).errphase = s.errphase := rfl
@[simp] theorem putPayloadByte_errstatus (b : Byte) (s : State) : (putPayloadByte b s).errstatus = s.errstatus := rfl
@[simp] theorem putPayloadByte_stragglers (b : Byte) (s : State) : (putPayloadByte b s).stragglers = s.stragglers := rfl
@[simp] theorem putPayloadByte_img (b : Byte) (s : State) : (putPayloadByte b s).img = s.img := rfl
@[simp] theorem putPayloadByte_wire (b : Byte) (s : State) : (putPayloadByte b s).wire = s.wire := rfl
@[simp] theorem putPayloadByte_calls (b : Byte) (s : State) : (putPayloadByte b s).calls = s.calls := rfl
@[simp] theorem putPayloadByte_handleOpen (b : Byte) (s : State) : (putPayloadByte b s).handleOpen = s.handleOpen := rfl
@[simp] theorem putPayloadByte_inbox (b : Byte) (s : State) : (putPayloadByte b s).inbox = s.inbox := rfl
@[simp] theorem putPayloadByte_results (b : Byte) (s : State) : (putPayloadByte b s).results = s.results := rfl
@[simp] theorem putPayloadByte_drawn (b : Byte) (s : State) : (putPayloadByte b s).drawn = s.drawn := rfl

@[simp] theorem putChecksum_acc (s : State) : (putChecksum s).acc = s.acc := rfl
@[simp] theorem putChecksum_fbuf (s : State) : (putChecksum s).fbuf = Memory.write s.fbuf s.flen.toNat s.acc := rfl
@[simp] theorem putChecksum_flen (s : State) : (putChecksum s).flen = s.flen + 1 := rfl
@[simp] theorem putChecksum_fbst (s : State) : (putChecksum s).fbst = .idle := rfl
@[simp] theorem putChecksum_offset (s : State) : (putChecksum s).offset = s.offset := rfl
@[simp] theorem putChecksum_chunk (s : State) : (putChecksum s).chunk = s.chunk := rfl
@[simp] theorem putChecksum_ilen (s : State) : (putChecksum s).ilen = s.ilen := rfl
@[simp] theorem putChecksum_phase (s : State) : (putChecksum s).phase = s.phase := rfl
@[simp] theorem putChecksum_rstep (s : State) : (putChecksum s).rstep = s.rstep := rfl
@[simp] theorem putChecksum_tgst (s : State) : (putChecksum s).tgst = s.tgst := rfl
@[simp] theorem putChecksum_timer (s : State) : (putChecksum s).timer = s.timer := rfl
@[simp] theorem putChecksum_txlen (s : State) : (putChecksum s).txlen = s.txlen := rfl
@[simp] theorem putChecksum_callid (s : State) : (putChecksum s).callid = s.callid := rfl
@[simp] theorem putChecksum_rxbuf (s : State) : (putChecksum s).rxbuf = s.rxbuf := rfl
@[simp] theorem putChecksum_rxn (s : State) : (putChecksum s).rxn = s.rxn := rfl
@[simp] theorem putChecksum_errkind (s : State) : (putChecksum s).errkind = s.errkind := rfl
@[simp] theorem putChecksum_errphase (s : State) : (putChecksum s).errphase = s.errphase := rfl
@[simp] theorem putChecksum_errstatus (s : State) : (putChecksum s).errstatus = s.errstatus := rfl
@[simp] theorem putChecksum_stragglers (s : State) : (putChecksum s).stragglers = s.stragglers := rfl
@[simp] theorem putChecksum_img (s : State) : (putChecksum s).img = s.img := rfl
@[simp] theorem putChecksum_wire (s : State) : (putChecksum s).wire = s.wire := rfl
@[simp] theorem putChecksum_calls (s : State) : (putChecksum s).calls = s.calls := rfl
@[simp] theorem putChecksum_handleOpen (s : State) : (putChecksum s).handleOpen = s.handleOpen := rfl
@[simp] theorem putChecksum_inbox (s : State) : (putChecksum s).inbox = s.inbox := rfl
@[simp] theorem putChecksum_results (s : State) : (putChecksum s).results = s.results := rfl
@[simp] theorem putChecksum_drawn (s : State) : (putChecksum s).drawn = s.drawn := rfl

@[simp] theorem openWrite_acc (bs : List Byte) (s : State) : (openWrite bs s).acc = s.acc := rfl
@[simp] theorem openWrite_fbuf (bs : List Byte) (s : State) : (openWrite bs s).fbuf = s.fbuf := rfl
@[simp] theorem openWrite_flen (bs : List Byte) (s : State) : (openWrite bs s).flen = s.flen := rfl
@[simp] theorem openWrite_fbst (bs : List Byte) (s : State) : (openWrite bs s).fbst = s.fbst := rfl
@[simp] theorem openWrite_offset (bs : List Byte) (s : State) : (openWrite bs s).offset = s.offset := rfl
@[simp] theorem openWrite_chunk (bs : List Byte) (s : State) : (openWrite bs s).chunk = s.chunk := rfl
@[simp] theorem openWrite_ilen (bs : List Byte) (s : State) : (openWrite bs s).ilen = s.ilen := rfl
@[simp] theorem openWrite_phase (bs : List Byte) (s : State) : (openWrite bs s).phase = s.phase := rfl
@[simp] theorem openWrite_rstep (bs : List Byte) (s : State) : (openWrite bs s).rstep = s.rstep := rfl
@[simp] theorem openWrite_tgst (bs : List Byte) (s : State) : (openWrite bs s).tgst = .writing := rfl
@[simp] theorem openWrite_timer (bs : List Byte) (s : State) : (openWrite bs s).timer = Config.deadlineTicks := rfl
@[simp] theorem openWrite_txlen (bs : List Byte) (s : State) : (openWrite bs s).txlen = s.flen := rfl
@[simp] theorem openWrite_callid (bs : List Byte) (s : State) : (openWrite bs s).callid = s.callid + 1 := rfl
@[simp] theorem openWrite_rxbuf (bs : List Byte) (s : State) : (openWrite bs s).rxbuf = s.rxbuf := rfl
@[simp] theorem openWrite_rxn (bs : List Byte) (s : State) : (openWrite bs s).rxn = s.rxn := rfl
@[simp] theorem openWrite_errkind (bs : List Byte) (s : State) : (openWrite bs s).errkind = s.errkind := rfl
@[simp] theorem openWrite_errphase (bs : List Byte) (s : State) : (openWrite bs s).errphase = s.errphase := rfl
@[simp] theorem openWrite_errstatus (bs : List Byte) (s : State) : (openWrite bs s).errstatus = s.errstatus := rfl
@[simp] theorem openWrite_stragglers (bs : List Byte) (s : State) : (openWrite bs s).stragglers = s.stragglers := rfl
@[simp] theorem openWrite_img (bs : List Byte) (s : State) : (openWrite bs s).img = s.img := rfl
@[simp] theorem openWrite_wire (bs : List Byte) (s : State) : (openWrite bs s).wire = s.wire := rfl
@[simp] theorem openWrite_calls (bs : List Byte) (s : State) : (openWrite bs s).calls = s.calls ++ [⟨s.callid + 1, bs⟩] := rfl
@[simp] theorem openWrite_handleOpen (bs : List Byte) (s : State) : (openWrite bs s).handleOpen = s.handleOpen := rfl
@[simp] theorem openWrite_inbox (bs : List Byte) (s : State) : (openWrite bs s).inbox = s.inbox := rfl
@[simp] theorem openWrite_results (bs : List Byte) (s : State) : (openWrite bs s).results = s.results := rfl
@[simp] theorem openWrite_drawn (bs : List Byte) (s : State) : (openWrite bs s).drawn = s.drawn := rfl

@[simp] theorem openRead_acc (s : State) : (openRead s).acc = s.acc := rfl
@[simp] theorem openRead_fbuf (s : State) : (openRead s).fbuf = s.fbuf := rfl
@[simp] theorem openRead_flen (s : State) : (openRead s).flen = s.flen := rfl
@[simp] theorem openRead_fbst (s : State) : (openRead s).fbst = s.fbst := rfl
@[simp] theorem openRead_offset (s : State) : (openRead s).offset = s.offset := rfl
@[simp] theorem openRead_chunk (s : State) : (openRead s).chunk = s.chunk := rfl
@[simp] theorem openRead_ilen (s : State) : (openRead s).ilen = s.ilen := rfl
@[simp] theorem openRead_phase (s : State) : (openRead s).phase = s.phase := rfl
@[simp] theorem openRead_rstep (s : State) : (openRead s).rstep = s.rstep := rfl
@[simp] theorem openRead_tgst (s : State) : (openRead s).tgst = .reading := rfl
@[simp] theorem openRead_timer (s : State) : (openRead s).timer = Config.deadlineTicks := rfl
@[simp] theorem openRead_txlen (s : State) : (openRead s).txlen = s.txlen := rfl
@[simp] theorem openRead_callid (s : State) : (openRead s).callid = s.callid + 1 := rfl
@[simp] theorem openRead_rxbuf (s : State) : (openRead s).rxbuf = s.rxbuf := rfl
@[simp] theorem openRead_rxn (s : State) : (openRead s).rxn = 0 := rfl
@[simp] theorem openRead_errkind (s : State) : (openRead s).errkind = s.errkind := rfl
@[simp] theorem openRead_errphase (s : State) : (openRead s).errphase = s.errphase := rfl
@[simp] theorem openRead_errstatus (s : State) : (openRead s).errstatus = s.errstatus := rfl
@[simp] theorem openRead_stragglers (s : State) : (openRead s).stragglers = s.stragglers := rfl
@[simp] theorem openRead_img (s : State) : (openRead s).img = s.img := rfl
@[simp] theorem openRead_wire (s : State) : (openRead s).wire = s.wire := rfl
@[simp] theorem openRead_calls (s : State) : (openRead s).calls = s.calls ++ [⟨s.callid + 1, []⟩] := rfl
@[simp] theorem openRead_handleOpen (s : State) : (openRead s).handleOpen = s.handleOpen := rfl
@[simp] theorem openRead_inbox (s : State) : (openRead s).inbox = s.inbox := rfl
@[simp] theorem openRead_results (s : State) : (openRead s).results = s.results := rfl
@[simp] theorem openRead_drawn (s : State) : (openRead s).drawn = s.drawn := rfl

@[simp] theorem closeCall_acc (s : State) : (closeCall s).acc = s.acc := rfl
@[simp] theorem closeCall_fbuf (s : State) : (closeCall s).fbuf = s.fbuf := rfl
@[simp] theorem closeCall_flen (s : State) : (closeCall s).flen = s.flen := rfl
@[simp] theorem closeCall_fbst (s : State) : (closeCall s).fbst = s.fbst := rfl
@[simp] theorem closeCall_offset (s : State) : (closeCall s).offset = s.offset := rfl
@[simp] theorem closeCall_chunk (s : State) : (closeCall s).chunk = s.chunk := rfl
@[simp] theorem closeCall_ilen (s : State) : (closeCall s).ilen = s.ilen := rfl
@[simp] theorem closeCall_phase (s : State) : (closeCall s).phase = s.phase := rfl
@[simp] theorem closeCall_rstep (s : State) : (closeCall s).rstep = s.rstep := rfl
@[simp] theorem closeCall_tgst (s : State) : (closeCall s).tgst = .idle := rfl
@[simp] theorem closeCall_timer (s : State) : (closeCall s).timer = 0 := rfl
@[simp] theorem closeCall_txlen (s : State) : (closeCall s).txlen = s.txlen := rfl
@[simp] theorem closeCall_callid (s : State) : (closeCall s).callid = s.callid := rfl
@[simp] theorem closeCall_rxbuf (s : State) : (closeCall s).rxbuf = s.rxbuf := rfl
@[simp] theorem closeCall_rxn (s : State) : (closeCall s).rxn = s.rxn := rfl
@[simp] theorem closeCall_errkind (s : State) : (closeCall s).errkind = s.errkind := rfl
@[simp] theorem closeCall_errphase (s : State) : (closeCall s).errphase = s.errphase := rfl
@[simp] theorem closeCall_errstatus (s : State) : (closeCall s).errstatus = s.errstatus := rfl
@[simp] theorem closeCall_stragglers (s : State) : (closeCall s).stragglers = s.stragglers := rfl
@[simp] theorem closeCall_img (s : State) : (closeCall s).img = s.img := rfl
@[simp] theorem closeCall_wire (s : State) : (closeCall s).wire = s.wire := rfl
@[simp] theorem closeCall_calls (s : State) : (closeCall s).calls = s.calls := rfl
@[simp] theorem closeCall_handleOpen (s : State) : (closeCall s).handleOpen = s.handleOpen := rfl
@[simp] theorem closeCall_inbox (s : State) : (closeCall s).inbox = s.inbox := rfl
@[simp] theorem closeCall_results (s : State) : (closeCall s).results = s.results := rfl
@[simp] theorem closeCall_drawn (s : State) : (closeCall s).drawn = s.drawn := rfl

@[simp] theorem abandonCall_acc (s : State) : (abandonCall s).acc = s.acc := rfl
@[simp] theorem abandonCall_fbuf (s : State) : (abandonCall s).fbuf = s.fbuf := rfl
@[simp] theorem abandonCall_flen (s : State) : (abandonCall s).flen = s.flen := rfl
@[simp] theorem abandonCall_fbst (s : State) : (abandonCall s).fbst = s.fbst := rfl
@[simp] theorem abandonCall_offset (s : State) : (abandonCall s).offset = s.offset := rfl
@[simp] theorem abandonCall_chunk (s : State) : (abandonCall s).chunk = s.chunk := rfl
@[simp] theorem abandonCall_ilen (s : State) : (abandonCall s).ilen = s.ilen := rfl
@[simp] theorem abandonCall_phase (s : State) : (abandonCall s).phase = s.phase := rfl
@[simp] theorem abandonCall_rstep (s : State) : (abandonCall s).rstep = s.rstep := rfl
@[simp] theorem abandonCall_tgst (s : State) : (abandonCall s).tgst = .idle := rfl
@[simp] theorem abandonCall_timer (s : State) : (abandonCall s).timer = s.timer := rfl
@[simp] theorem abandonCall_txlen (s : State) : (abandonCall s).txlen = s.txlen := rfl
@[simp] theorem abandonCall_callid (s : State) : (abandonCall s).callid = s.callid := rfl
@[simp] theorem abandonCall_rxbuf (s : State) : (abandonCall s).rxbuf = s.rxbuf := rfl
@[simp] theorem abandonCall_rxn (s : State) : (abandonCall s).rxn = s.rxn := rfl
@[simp] theorem abandonCall_errkind (s : State) : (abandonCall s).errkind = s.errkind := rfl
@[simp] theorem abandonCall_errphase (s : State) : (abandonCall s).errphase = s.errphase := rfl
@[simp] theorem abandonCall_errstatus (s : State) : (abandonCall s).errstatus = s.errstatus := rfl
@[simp] theorem abandonCall_stragglers (s : State) : (abandonCall s).stragglers = insertTag s.callid s.stragglers := rfl
@[simp] theorem abandonCall_img (s : State) : (abandonCall s).img = s.img := rfl
@[simp] theorem abandonCall_wire (s : State) : (abandonCall s).wire = s.wire := rfl
@[simp] theorem abandonCall_calls (s : State) : (abandonCall s).calls = s.calls := rfl
@[simp] theorem abandonCall_handleOpen (s : State) : (abandonCall s).handleOpen = s.handleOpen := rfl
@[simp] theorem abandonCall_inbox (s : State) : (abandonCall s).inbox = s.inbox := rfl
@[simp] theorem abandonCall_results (s : State) : (abandonCall s).results = s.results := rfl
@[simp] theorem abandonCall_drawn (s : State) : (abandonCall s).drawn = s.drawn := rfl

@[simp] theorem storeReceived_acc (bs : List Byte) (s : State) : (storeReceived bs s).acc = s.acc := rfl
@[simp] theorem storeReceived_fbuf (bs : List Byte) (s : State) : (storeReceived bs s).fbuf = s.fbuf := rfl
@[simp] theorem storeReceived_flen (bs : List Byte) (s : State) : (storeReceived bs s).flen = s.flen := rfl
@[simp] theorem storeReceived_fbst (bs : List Byte) (s : State) : (storeReceived bs s).fbst = s.fbst := rfl
@[simp] theorem storeReceived_offset (bs : List Byte) (s : State) : (storeReceived bs s).offset = s.offset := rfl
@[simp] theorem storeReceived_chunk (bs : List Byte) (s : State) : (storeReceived bs s).chunk = s.chunk := rfl
@[simp] theorem storeReceived_ilen (bs : List Byte) (s : State) : (storeReceived bs s).ilen = s.ilen := rfl
@[simp] theorem storeReceived_phase (bs : List Byte) (s : State) : (storeReceived bs s).phase = s.phase := rfl
@[simp] theorem storeReceived_rstep (bs : List Byte) (s : State) : (storeReceived bs s).rstep = s.rstep := rfl
@[simp] theorem storeReceived_tgst (bs : List Byte) (s : State) : (storeReceived bs s).tgst = s.tgst := rfl
@[simp] theorem storeReceived_timer (bs : List Byte) (s : State) : (storeReceived bs s).timer = s.timer := rfl
@[simp] theorem storeReceived_txlen (bs : List Byte) (s : State) : (storeReceived bs s).txlen = s.txlen := rfl
@[simp] theorem storeReceived_callid (bs : List Byte) (s : State) : (storeReceived bs s).callid = s.callid := rfl
@[simp] theorem storeReceived_rxbuf (bs : List Byte) (s : State) : (storeReceived bs s).rxbuf = Memory.writeBytes s.rxbuf 0 bs := rfl
@[simp] theorem storeReceived_rxn (bs : List Byte) (s : State) : (storeReceived bs s).rxn = BitVec.ofNat 2 bs.length := rfl
@[simp] theorem storeReceived_errkind (bs : List Byte) (s : State) : (storeReceived bs s).errkind = s.errkind := rfl
@[simp] theorem storeReceived_errphase (bs : List Byte) (s : State) : (storeReceived bs s).errphase = s.errphase := rfl
@[simp] theorem storeReceived_errstatus (bs : List Byte) (s : State) : (storeReceived bs s).errstatus = s.errstatus := rfl
@[simp] theorem storeReceived_stragglers (bs : List Byte) (s : State) : (storeReceived bs s).stragglers = s.stragglers := rfl
@[simp] theorem storeReceived_img (bs : List Byte) (s : State) : (storeReceived bs s).img = s.img := rfl
@[simp] theorem storeReceived_wire (bs : List Byte) (s : State) : (storeReceived bs s).wire = s.wire := rfl
@[simp] theorem storeReceived_calls (bs : List Byte) (s : State) : (storeReceived bs s).calls = s.calls := rfl
@[simp] theorem storeReceived_handleOpen (bs : List Byte) (s : State) : (storeReceived bs s).handleOpen = s.handleOpen := rfl
@[simp] theorem storeReceived_inbox (bs : List Byte) (s : State) : (storeReceived bs s).inbox = s.inbox := rfl
@[simp] theorem storeReceived_results (bs : List Byte) (s : State) : (storeReceived bs s).results = s.results := rfl
@[simp] theorem storeReceived_drawn (bs : List Byte) (s : State) : (storeReceived bs s).drawn = s.drawn := rfl

@[simp] theorem raise_acc (kind : ErrKind) (status : Byte) (s : State) : (raise kind status s).acc = s.acc := rfl
@[simp] theorem raise_fbuf (kind : ErrKind) (status : Byte) (s : State) : (raise kind status s).fbuf = s.fbuf := rfl
@[simp] theorem raise_flen (kind : ErrKind) (status : Byte) (s : State) : (raise kind status s).flen = s.flen := rfl
@[simp] theorem raise_fbst (kind : ErrKind) (status : Byte) (s : State) : (raise kind status s).fbst = s.fbst := rfl
@[simp] theorem raise_offset (kind : ErrKind) (status : Byte) (s : State) : (raise kind status s).offset = s.offset := rfl
@[simp] theorem raise_chunk (kind : ErrKind) (status : Byte) (s : State) : (raise kind status s).chunk = s.chunk := rfl
@[simp] theorem raise_ilen (kind : ErrKind) (status : Byte) (s : State) : (raise kind status s).ilen = s.ilen := rfl
@[simp] theorem raise_phase (kind : ErrKind) (status : Byte) (s : State) : (raise kind status s).phase = .failed := rfl
@[simp] theorem raise_rstep (kind : ErrKind) (status : Byte) (s : State) : (raise kind status s).rstep = .build := rfl
@[simp] theorem raise_tgst (kind : ErrKind) (status : Byte) (s : State) : (raise kind status s).tgst = s.tgst := rfl
@[simp] theorem raise_timer (kind : ErrKind) (status : Byte) (s : State) : (raise kind status s).timer = s.timer := rfl
@[simp] theorem raise_txlen (kind : ErrKind) (status : Byte) (s : State) : (raise kind status s).txlen = s.txlen := rfl
@[simp] theorem raise_callid (kind : ErrKind) (status : Byte) (s : State) : (raise kind status s).callid = s.callid := rfl
@[simp] theorem raise_rxbuf (kind : ErrKind) (status : Byte) (s : State) : (raise kind status s).rxbuf = s.rxbuf := rfl
@[simp] theorem raise_rxn (kind : ErrKind) (status : Byte) (s : State) : (raise kind status s).rxn = s.rxn := rfl
@[simp] theorem raise_errkind (kind : ErrKind) (status : Byte) (s : State) : (raise kind status s).errkind = kind := rfl
@[simp] theorem raise_errphase (kind : ErrKind) (status : Byte) (s : State) : (raise kind status s).errphase = phaseTag s.phase := rfl
@[simp] theorem raise_errstatus (kind : ErrKind) (status : Byte) (s : State) : (raise kind status s).errstatus = if kind = .deviceRejected then status else 0 := rfl
@[simp] theorem raise_stragglers (kind : ErrKind) (status : Byte) (s : State) : (raise kind status s).stragglers = s.stragglers := rfl
@[simp] theorem raise_img (kind : ErrKind) (status : Byte) (s : State) : (raise kind status s).img = s.img := rfl
@[simp] theorem raise_wire (kind : ErrKind) (status : Byte) (s : State) : (raise kind status s).wire = s.wire := rfl
@[simp] theorem raise_calls (kind : ErrKind) (status : Byte) (s : State) : (raise kind status s).calls = s.calls := rfl
@[simp] theorem raise_handleOpen (kind : ErrKind) (status : Byte) (s : State) : (raise kind status s).handleOpen = s.handleOpen := rfl
@[simp] theorem raise_inbox (kind : ErrKind) (status : Byte) (s : State) : (raise kind status s).inbox = s.inbox := rfl
@[simp] theorem raise_results (kind : ErrKind) (status : Byte) (s : State) : (raise kind status s).results = s.results := rfl
@[simp] theorem raise_drawn (kind : ErrKind) (status : Byte) (s : State) : (raise kind status s).drawn = s.drawn := rfl

@[simp] theorem createSession_acc (s : State) : (createSession s).acc = 0 := rfl
@[simp] theorem createSession_fbuf (s : State) : (createSession s).fbuf = s.fbuf := rfl
@[simp] theorem createSession_flen (s : State) : (createSession s).flen = s.flen := rfl
@[simp] theorem createSession_fbst (s : State) : (createSession s).fbst = s.fbst := rfl
@[simp] theorem createSession_offset (s : State) : (createSession s).offset = 0 := rfl
@[simp] theorem createSession_chunk (s : State) : (createSession s).chunk = 0 := rfl
@[simp] theorem createSession_ilen (s : State) : (createSession s).ilen = s.ilen := rfl
@[simp] theorem createSession_phase (s : State) : (createSession s).phase = s.phase := rfl
@[simp] theorem createSession_rstep (s : State) : (createSession s).rstep = .build := rfl
@[simp] theorem createSession_tgst (s : State) : (createSession s).tgst = s.tgst := rfl
@[simp] theorem createSession_timer (s : State) : (createSession s).timer = s.timer := rfl
@[simp] theorem createSession_txlen (s : State) : (createSession s).txlen = s.txlen := rfl
@[simp] theorem createSession_callid (s : State) : (createSession s).callid = s.callid := rfl
@[simp] theorem createSession_rxbuf (s : State) : (createSession s).rxbuf = s.rxbuf := rfl
@[simp] theorem createSession_rxn (s : State) : (createSession s).rxn = s.rxn := rfl
@[simp] theorem createSession_errkind (s : State) : (createSession s).errkind = .none := rfl
@[simp] theorem createSession_errphase (s : State) : (createSession s).errphase = .none := rfl
@[simp] theorem createSession_errstatus (s : State) : (createSession s).errstatus = 0 := rfl
@[simp] theorem createSession_stragglers (s : State) : (createSession s).stragglers = s.stragglers := rfl
@[simp] theorem createSession_img (s : State) : (createSession s).img = s.img := rfl
@[simp] theorem createSession_wire (s : State) : (createSession s).wire = s.wire := rfl
@[simp] theorem createSession_calls (s : State) : (createSession s).calls = s.calls := rfl
@[simp] theorem createSession_handleOpen (s : State) : (createSession s).handleOpen = s.handleOpen := rfl
@[simp] theorem createSession_inbox (s : State) : (createSession s).inbox = s.inbox := rfl
@[simp] theorem createSession_results (s : State) : (createSession s).results = s.results := rfl
@[simp] theorem createSession_drawn (s : State) : (createSession s).drawn = s.drawn := rfl

@[simp] theorem discardImage_acc (s : State) : (discardImage s).acc = s.acc := rfl
@[simp] theorem discardImage_fbuf (s : State) : (discardImage s).fbuf = s.fbuf := rfl
@[simp] theorem discardImage_flen (s : State) : (discardImage s).flen = s.flen := rfl
@[simp] theorem discardImage_fbst (s : State) : (discardImage s).fbst = s.fbst := rfl
@[simp] theorem discardImage_offset (s : State) : (discardImage s).offset = s.offset := rfl
@[simp] theorem discardImage_chunk (s : State) : (discardImage s).chunk = s.chunk := rfl
@[simp] theorem discardImage_ilen (s : State) : (discardImage s).ilen = 0 := rfl
@[simp] theorem discardImage_phase (s : State) : (discardImage s).phase = s.phase := rfl
@[simp] theorem discardImage_rstep (s : State) : (discardImage s).rstep = s.rstep := rfl
@[simp] theorem discardImage_tgst (s : State) : (discardImage s).tgst = s.tgst := rfl
@[simp] theorem discardImage_timer (s : State) : (discardImage s).timer = s.timer := rfl
@[simp] theorem discardImage_txlen (s : State) : (discardImage s).txlen = s.txlen := rfl
@[simp] theorem discardImage_callid (s : State) : (discardImage s).callid = s.callid := rfl
@[simp] theorem discardImage_rxbuf (s : State) : (discardImage s).rxbuf = s.rxbuf := rfl
@[simp] theorem discardImage_rxn (s : State) : (discardImage s).rxn = s.rxn := rfl
@[simp] theorem discardImage_errkind (s : State) : (discardImage s).errkind = s.errkind := rfl
@[simp] theorem discardImage_errphase (s : State) : (discardImage s).errphase = s.errphase := rfl
@[simp] theorem discardImage_errstatus (s : State) : (discardImage s).errstatus = s.errstatus := rfl
@[simp] theorem discardImage_stragglers (s : State) : (discardImage s).stragglers = s.stragglers := rfl
@[simp] theorem discardImage_img (s : State) : (discardImage s).img = [] := rfl
@[simp] theorem discardImage_wire (s : State) : (discardImage s).wire = s.wire := rfl
@[simp] theorem discardImage_calls (s : State) : (discardImage s).calls = s.calls := rfl
@[simp] theorem discardImage_handleOpen (s : State) : (discardImage s).handleOpen = s.handleOpen := rfl
@[simp] theorem discardImage_inbox (s : State) : (discardImage s).inbox = s.inbox := rfl
@[simp] theorem discardImage_results (s : State) : (discardImage s).results = s.results := rfl
@[simp] theorem discardImage_drawn (s : State) : (discardImage s).drawn = s.drawn := rfl

@[simp] theorem beginErasing_acc (bs : List Byte) (s : State) : (beginErasing bs s).acc = s.acc := rfl
@[simp] theorem beginErasing_fbuf (bs : List Byte) (s : State) : (beginErasing bs s).fbuf = s.fbuf := rfl
@[simp] theorem beginErasing_flen (bs : List Byte) (s : State) : (beginErasing bs s).flen = s.flen := rfl
@[simp] theorem beginErasing_fbst (bs : List Byte) (s : State) : (beginErasing bs s).fbst = s.fbst := rfl
@[simp] theorem beginErasing_offset (bs : List Byte) (s : State) : (beginErasing bs s).offset = s.offset := rfl
@[simp] theorem beginErasing_chunk (bs : List Byte) (s : State) : (beginErasing bs s).chunk = s.chunk := rfl
@[simp] theorem beginErasing_ilen (bs : List Byte) (s : State) : (beginErasing bs s).ilen = BitVec.ofNat 15 bs.length := rfl
@[simp] theorem beginErasing_phase (bs : List Byte) (s : State) : (beginErasing bs s).phase = .erasing := rfl
@[simp] theorem beginErasing_rstep (bs : List Byte) (s : State) : (beginErasing bs s).rstep = s.rstep := rfl
@[simp] theorem beginErasing_tgst (bs : List Byte) (s : State) : (beginErasing bs s).tgst = s.tgst := rfl
@[simp] theorem beginErasing_timer (bs : List Byte) (s : State) : (beginErasing bs s).timer = s.timer := rfl
@[simp] theorem beginErasing_txlen (bs : List Byte) (s : State) : (beginErasing bs s).txlen = s.txlen := rfl
@[simp] theorem beginErasing_callid (bs : List Byte) (s : State) : (beginErasing bs s).callid = s.callid := rfl
@[simp] theorem beginErasing_rxbuf (bs : List Byte) (s : State) : (beginErasing bs s).rxbuf = s.rxbuf := rfl
@[simp] theorem beginErasing_rxn (bs : List Byte) (s : State) : (beginErasing bs s).rxn = s.rxn := rfl
@[simp] theorem beginErasing_errkind (bs : List Byte) (s : State) : (beginErasing bs s).errkind = s.errkind := rfl
@[simp] theorem beginErasing_errphase (bs : List Byte) (s : State) : (beginErasing bs s).errphase = s.errphase := rfl
@[simp] theorem beginErasing_errstatus (bs : List Byte) (s : State) : (beginErasing bs s).errstatus = s.errstatus := rfl
@[simp] theorem beginErasing_stragglers (bs : List Byte) (s : State) : (beginErasing bs s).stragglers = s.stragglers := rfl
@[simp] theorem beginErasing_img (bs : List Byte) (s : State) : (beginErasing bs s).img = Memory.ofBytes 0 bs := rfl
@[simp] theorem beginErasing_wire (bs : List Byte) (s : State) : (beginErasing bs s).wire = s.wire := rfl
@[simp] theorem beginErasing_calls (bs : List Byte) (s : State) : (beginErasing bs s).calls = s.calls := rfl
@[simp] theorem beginErasing_handleOpen (bs : List Byte) (s : State) : (beginErasing bs s).handleOpen = s.handleOpen := rfl
@[simp] theorem beginErasing_inbox (bs : List Byte) (s : State) : (beginErasing bs s).inbox = s.inbox := rfl
@[simp] theorem beginErasing_results (bs : List Byte) (s : State) : (beginErasing bs s).results = s.results := rfl
@[simp] theorem beginErasing_drawn (bs : List Byte) (s : State) : (beginErasing bs s).drawn = s.drawn := rfl

@[simp] theorem acceptFirst_acc (t k : Nat) (s : State) : (acceptFirst t k s).acc = s.acc := rfl
@[simp] theorem acceptFirst_fbuf (t k : Nat) (s : State) : (acceptFirst t k s).fbuf = s.fbuf := rfl
@[simp] theorem acceptFirst_flen (t k : Nat) (s : State) : (acceptFirst t k s).flen = s.flen := rfl
@[simp] theorem acceptFirst_fbst (t k : Nat) (s : State) : (acceptFirst t k s).fbst = s.fbst := rfl
@[simp] theorem acceptFirst_offset (t k : Nat) (s : State) : (acceptFirst t k s).offset = s.offset := rfl
@[simp] theorem acceptFirst_chunk (t k : Nat) (s : State) : (acceptFirst t k s).chunk = s.chunk := rfl
@[simp] theorem acceptFirst_ilen (t k : Nat) (s : State) : (acceptFirst t k s).ilen = s.ilen := rfl
@[simp] theorem acceptFirst_phase (t k : Nat) (s : State) : (acceptFirst t k s).phase = s.phase := rfl
@[simp] theorem acceptFirst_rstep (t k : Nat) (s : State) : (acceptFirst t k s).rstep = s.rstep := rfl
@[simp] theorem acceptFirst_tgst (t k : Nat) (s : State) : (acceptFirst t k s).tgst = s.tgst := rfl
@[simp] theorem acceptFirst_timer (t k : Nat) (s : State) : (acceptFirst t k s).timer = s.timer := rfl
@[simp] theorem acceptFirst_txlen (t k : Nat) (s : State) : (acceptFirst t k s).txlen = s.txlen := rfl
@[simp] theorem acceptFirst_callid (t k : Nat) (s : State) : (acceptFirst t k s).callid = s.callid := rfl
@[simp] theorem acceptFirst_rxbuf (t k : Nat) (s : State) : (acceptFirst t k s).rxbuf = s.rxbuf := rfl
@[simp] theorem acceptFirst_rxn (t k : Nat) (s : State) : (acceptFirst t k s).rxn = s.rxn := rfl
@[simp] theorem acceptFirst_errkind (t k : Nat) (s : State) : (acceptFirst t k s).errkind = s.errkind := rfl
@[simp] theorem acceptFirst_errphase (t k : Nat) (s : State) : (acceptFirst t k s).errphase = s.errphase := rfl
@[simp] theorem acceptFirst_errstatus (t k : Nat) (s : State) : (acceptFirst t k s).errstatus = s.errstatus := rfl
@[simp] theorem acceptFirst_stragglers (t k : Nat) (s : State) : (acceptFirst t k s).stragglers = s.stragglers := rfl
@[simp] theorem acceptFirst_img (t k : Nat) (s : State) : (acceptFirst t k s).img = s.img := rfl
@[simp] theorem acceptFirst_wire (t k : Nat) (s : State) : (acceptFirst t k s).wire = s.wire ++ (callBytes t s.calls).take k := rfl
@[simp] theorem acceptFirst_calls (t k : Nat) (s : State) : (acceptFirst t k s).calls = s.calls.map (advanceCall t k) := rfl
@[simp] theorem acceptFirst_handleOpen (t k : Nat) (s : State) : (acceptFirst t k s).handleOpen = s.handleOpen := rfl
@[simp] theorem acceptFirst_inbox (t k : Nat) (s : State) : (acceptFirst t k s).inbox = s.inbox := rfl
@[simp] theorem acceptFirst_results (t k : Nat) (s : State) : (acceptFirst t k s).results = s.results := rfl
@[simp] theorem acceptFirst_drawn (t k : Nat) (s : State) : (acceptFirst t k s).drawn = s.drawn := rfl

@[simp] theorem acceptDrawn_acc (t : Nat) (s : State) : (acceptDrawn t s).acc = s.acc := rfl
@[simp] theorem acceptDrawn_fbuf (t : Nat) (s : State) : (acceptDrawn t s).fbuf = s.fbuf := rfl
@[simp] theorem acceptDrawn_flen (t : Nat) (s : State) : (acceptDrawn t s).flen = s.flen := rfl
@[simp] theorem acceptDrawn_fbst (t : Nat) (s : State) : (acceptDrawn t s).fbst = s.fbst := rfl
@[simp] theorem acceptDrawn_offset (t : Nat) (s : State) : (acceptDrawn t s).offset = s.offset := rfl
@[simp] theorem acceptDrawn_chunk (t : Nat) (s : State) : (acceptDrawn t s).chunk = s.chunk := rfl
@[simp] theorem acceptDrawn_ilen (t : Nat) (s : State) : (acceptDrawn t s).ilen = s.ilen := rfl
@[simp] theorem acceptDrawn_phase (t : Nat) (s : State) : (acceptDrawn t s).phase = s.phase := rfl
@[simp] theorem acceptDrawn_rstep (t : Nat) (s : State) : (acceptDrawn t s).rstep = s.rstep := rfl
@[simp] theorem acceptDrawn_tgst (t : Nat) (s : State) : (acceptDrawn t s).tgst = s.tgst := rfl
@[simp] theorem acceptDrawn_timer (t : Nat) (s : State) : (acceptDrawn t s).timer = s.timer := rfl
@[simp] theorem acceptDrawn_txlen (t : Nat) (s : State) : (acceptDrawn t s).txlen = s.txlen := rfl
@[simp] theorem acceptDrawn_callid (t : Nat) (s : State) : (acceptDrawn t s).callid = s.callid := rfl
@[simp] theorem acceptDrawn_rxbuf (t : Nat) (s : State) : (acceptDrawn t s).rxbuf = s.rxbuf := rfl
@[simp] theorem acceptDrawn_rxn (t : Nat) (s : State) : (acceptDrawn t s).rxn = s.rxn := rfl
@[simp] theorem acceptDrawn_errkind (t : Nat) (s : State) : (acceptDrawn t s).errkind = s.errkind := rfl
@[simp] theorem acceptDrawn_errphase (t : Nat) (s : State) : (acceptDrawn t s).errphase = s.errphase := rfl
@[simp] theorem acceptDrawn_errstatus (t : Nat) (s : State) : (acceptDrawn t s).errstatus = s.errstatus := rfl
@[simp] theorem acceptDrawn_stragglers (t : Nat) (s : State) : (acceptDrawn t s).stragglers = s.stragglers := rfl
@[simp] theorem acceptDrawn_img (t : Nat) (s : State) : (acceptDrawn t s).img = s.img := rfl
@[simp] theorem acceptDrawn_wire (t : Nat) (s : State) : (acceptDrawn t s).wire = s.wire ++ (callBytes t s.calls).take (Config.acceptedPart s.drawn) := rfl
@[simp] theorem acceptDrawn_calls (t : Nat) (s : State) : (acceptDrawn t s).calls = s.calls.map (advanceCall t (Config.acceptedPart s.drawn)) := rfl
@[simp] theorem acceptDrawn_handleOpen (t : Nat) (s : State) : (acceptDrawn t s).handleOpen = s.handleOpen := rfl
@[simp] theorem acceptDrawn_inbox (t : Nat) (s : State) : (acceptDrawn t s).inbox = s.inbox := rfl
@[simp] theorem acceptDrawn_results (t : Nat) (s : State) : (acceptDrawn t s).results = s.results := rfl
@[simp] theorem acceptDrawn_drawn (t : Nat) (s : State) : (acceptDrawn t s).drawn = s.drawn + 1 := rfl

@[simp] theorem dropCall_acc (t : Nat) (s : State) : (dropCall t s).acc = s.acc := rfl
@[simp] theorem dropCall_fbuf (t : Nat) (s : State) : (dropCall t s).fbuf = s.fbuf := rfl
@[simp] theorem dropCall_flen (t : Nat) (s : State) : (dropCall t s).flen = s.flen := rfl
@[simp] theorem dropCall_fbst (t : Nat) (s : State) : (dropCall t s).fbst = s.fbst := rfl
@[simp] theorem dropCall_offset (t : Nat) (s : State) : (dropCall t s).offset = s.offset := rfl
@[simp] theorem dropCall_chunk (t : Nat) (s : State) : (dropCall t s).chunk = s.chunk := rfl
@[simp] theorem dropCall_ilen (t : Nat) (s : State) : (dropCall t s).ilen = s.ilen := rfl
@[simp] theorem dropCall_phase (t : Nat) (s : State) : (dropCall t s).phase = s.phase := rfl
@[simp] theorem dropCall_rstep (t : Nat) (s : State) : (dropCall t s).rstep = s.rstep := rfl
@[simp] theorem dropCall_tgst (t : Nat) (s : State) : (dropCall t s).tgst = s.tgst := rfl
@[simp] theorem dropCall_timer (t : Nat) (s : State) : (dropCall t s).timer = s.timer := rfl
@[simp] theorem dropCall_txlen (t : Nat) (s : State) : (dropCall t s).txlen = s.txlen := rfl
@[simp] theorem dropCall_callid (t : Nat) (s : State) : (dropCall t s).callid = s.callid := rfl
@[simp] theorem dropCall_rxbuf (t : Nat) (s : State) : (dropCall t s).rxbuf = s.rxbuf := rfl
@[simp] theorem dropCall_rxn (t : Nat) (s : State) : (dropCall t s).rxn = s.rxn := rfl
@[simp] theorem dropCall_errkind (t : Nat) (s : State) : (dropCall t s).errkind = s.errkind := rfl
@[simp] theorem dropCall_errphase (t : Nat) (s : State) : (dropCall t s).errphase = s.errphase := rfl
@[simp] theorem dropCall_errstatus (t : Nat) (s : State) : (dropCall t s).errstatus = s.errstatus := rfl
@[simp] theorem dropCall_stragglers (t : Nat) (s : State) : (dropCall t s).stragglers = s.stragglers := rfl
@[simp] theorem dropCall_img (t : Nat) (s : State) : (dropCall t s).img = s.img := rfl
@[simp] theorem dropCall_wire (t : Nat) (s : State) : (dropCall t s).wire = s.wire := rfl
@[simp] theorem dropCall_calls (t : Nat) (s : State) : (dropCall t s).calls = s.calls.filter (fun c => c.tag ≠ t) := rfl
@[simp] theorem dropCall_handleOpen (t : Nat) (s : State) : (dropCall t s).handleOpen = s.handleOpen := rfl
@[simp] theorem dropCall_inbox (t : Nat) (s : State) : (dropCall t s).inbox = s.inbox := rfl
@[simp] theorem dropCall_results (t : Nat) (s : State) : (dropCall t s).results = s.results := rfl
@[simp] theorem dropCall_drawn (t : Nat) (s : State) : (dropCall t s).drawn = s.drawn := rfl

@[simp] theorem endLate_acc (t : Nat) (s : State) : (endLate t s).acc = s.acc := rfl
@[simp] theorem endLate_fbuf (t : Nat) (s : State) : (endLate t s).fbuf = s.fbuf := rfl
@[simp] theorem endLate_flen (t : Nat) (s : State) : (endLate t s).flen = s.flen := rfl
@[simp] theorem endLate_fbst (t : Nat) (s : State) : (endLate t s).fbst = s.fbst := rfl
@[simp] theorem endLate_offset (t : Nat) (s : State) : (endLate t s).offset = s.offset := rfl
@[simp] theorem endLate_chunk (t : Nat) (s : State) : (endLate t s).chunk = s.chunk := rfl
@[simp] theorem endLate_ilen (t : Nat) (s : State) : (endLate t s).ilen = s.ilen := rfl
@[simp] theorem endLate_phase (t : Nat) (s : State) : (endLate t s).phase = s.phase := rfl
@[simp] theorem endLate_rstep (t : Nat) (s : State) : (endLate t s).rstep = s.rstep := rfl
@[simp] theorem endLate_tgst (t : Nat) (s : State) : (endLate t s).tgst = s.tgst := rfl
@[simp] theorem endLate_timer (t : Nat) (s : State) : (endLate t s).timer = s.timer := rfl
@[simp] theorem endLate_txlen (t : Nat) (s : State) : (endLate t s).txlen = s.txlen := rfl
@[simp] theorem endLate_callid (t : Nat) (s : State) : (endLate t s).callid = s.callid := rfl
@[simp] theorem endLate_rxbuf (t : Nat) (s : State) : (endLate t s).rxbuf = s.rxbuf := rfl
@[simp] theorem endLate_rxn (t : Nat) (s : State) : (endLate t s).rxn = s.rxn := rfl
@[simp] theorem endLate_errkind (t : Nat) (s : State) : (endLate t s).errkind = s.errkind := rfl
@[simp] theorem endLate_errphase (t : Nat) (s : State) : (endLate t s).errphase = s.errphase := rfl
@[simp] theorem endLate_errstatus (t : Nat) (s : State) : (endLate t s).errstatus = s.errstatus := rfl
@[simp] theorem endLate_stragglers (t : Nat) (s : State) : (endLate t s).stragglers = s.stragglers := rfl
@[simp] theorem endLate_img (t : Nat) (s : State) : (endLate t s).img = s.img := rfl
@[simp] theorem endLate_wire (t : Nat) (s : State) : (endLate t s).wire = s.wire ++ (callBytes t s.calls).take (Config.acceptedPart s.drawn) := rfl
@[simp] theorem endLate_calls (t : Nat) (s : State) : (endLate t s).calls = (s.calls.map (advanceCall t (Config.acceptedPart s.drawn))).filter (fun c => c.tag ≠ t) := rfl
@[simp] theorem endLate_handleOpen (t : Nat) (s : State) : (endLate t s).handleOpen = s.handleOpen := rfl
@[simp] theorem endLate_inbox (t : Nat) (s : State) : (endLate t s).inbox = s.inbox := rfl
@[simp] theorem endLate_results (t : Nat) (s : State) : (endLate t s).results = s.results := rfl
@[simp] theorem endLate_drawn (t : Nat) (s : State) : (endLate t s).drawn = s.drawn + 1 := rfl

@[simp] theorem endRead_acc (bs : List Byte) (s : State) : (endRead bs s).acc = s.acc := rfl
@[simp] theorem endRead_fbuf (bs : List Byte) (s : State) : (endRead bs s).fbuf = s.fbuf := rfl
@[simp] theorem endRead_flen (bs : List Byte) (s : State) : (endRead bs s).flen = s.flen := rfl
@[simp] theorem endRead_fbst (bs : List Byte) (s : State) : (endRead bs s).fbst = s.fbst := rfl
@[simp] theorem endRead_offset (bs : List Byte) (s : State) : (endRead bs s).offset = s.offset := rfl
@[simp] theorem endRead_chunk (bs : List Byte) (s : State) : (endRead bs s).chunk = s.chunk := rfl
@[simp] theorem endRead_ilen (bs : List Byte) (s : State) : (endRead bs s).ilen = s.ilen := rfl
@[simp] theorem endRead_phase (bs : List Byte) (s : State) : (endRead bs s).phase = s.phase := rfl
@[simp] theorem endRead_rstep (bs : List Byte) (s : State) : (endRead bs s).rstep = s.rstep := rfl
@[simp] theorem endRead_tgst (bs : List Byte) (s : State) : (endRead bs s).tgst = .idle := rfl
@[simp] theorem endRead_timer (bs : List Byte) (s : State) : (endRead bs s).timer = 0 := rfl
@[simp] theorem endRead_txlen (bs : List Byte) (s : State) : (endRead bs s).txlen = s.txlen := rfl
@[simp] theorem endRead_callid (bs : List Byte) (s : State) : (endRead bs s).callid = s.callid := rfl
@[simp] theorem endRead_rxbuf (bs : List Byte) (s : State) : (endRead bs s).rxbuf = Memory.writeBytes s.rxbuf 0 bs := rfl
@[simp] theorem endRead_rxn (bs : List Byte) (s : State) : (endRead bs s).rxn = BitVec.ofNat 2 bs.length := rfl
@[simp] theorem endRead_errkind (bs : List Byte) (s : State) : (endRead bs s).errkind = s.errkind := rfl
@[simp] theorem endRead_errphase (bs : List Byte) (s : State) : (endRead bs s).errphase = s.errphase := rfl
@[simp] theorem endRead_errstatus (bs : List Byte) (s : State) : (endRead bs s).errstatus = s.errstatus := rfl
@[simp] theorem endRead_stragglers (bs : List Byte) (s : State) : (endRead bs s).stragglers = s.stragglers := rfl
@[simp] theorem endRead_img (bs : List Byte) (s : State) : (endRead bs s).img = s.img := rfl
@[simp] theorem endRead_wire (bs : List Byte) (s : State) : (endRead bs s).wire = s.wire := rfl
@[simp] theorem endRead_calls (bs : List Byte) (s : State) : (endRead bs s).calls = s.calls.filter (fun c => c.tag ≠ s.callid) := rfl
@[simp] theorem endRead_handleOpen (bs : List Byte) (s : State) : (endRead bs s).handleOpen = s.handleOpen := rfl
@[simp] theorem endRead_inbox (bs : List Byte) (s : State) : (endRead bs s).inbox = s.inbox := rfl
@[simp] theorem endRead_results (bs : List Byte) (s : State) : (endRead bs s).results = s.results := rfl
@[simp] theorem endRead_drawn (bs : List Byte) (s : State) : (endRead bs s).drawn = s.drawn := rfl

@[simp] theorem enterWriting_acc (s : State) : (enterWriting s).acc = s.acc := rfl
@[simp] theorem enterWriting_fbuf (s : State) : (enterWriting s).fbuf = s.fbuf := rfl
@[simp] theorem enterWriting_flen (s : State) : (enterWriting s).flen = s.flen := rfl
@[simp] theorem enterWriting_fbst (s : State) : (enterWriting s).fbst = s.fbst := rfl
@[simp] theorem enterWriting_offset (s : State) : (enterWriting s).offset = 0 := rfl
@[simp] theorem enterWriting_chunk (s : State) : (enterWriting s).chunk = s.chunk := rfl
@[simp] theorem enterWriting_ilen (s : State) : (enterWriting s).ilen = s.ilen := rfl
@[simp] theorem enterWriting_phase (s : State) : (enterWriting s).phase = .writingFirmware := rfl
@[simp] theorem enterWriting_rstep (s : State) : (enterWriting s).rstep = .build := rfl
@[simp] theorem enterWriting_tgst (s : State) : (enterWriting s).tgst = s.tgst := rfl
@[simp] theorem enterWriting_timer (s : State) : (enterWriting s).timer = s.timer := rfl
@[simp] theorem enterWriting_txlen (s : State) : (enterWriting s).txlen = s.txlen := rfl
@[simp] theorem enterWriting_callid (s : State) : (enterWriting s).callid = s.callid := rfl
@[simp] theorem enterWriting_rxbuf (s : State) : (enterWriting s).rxbuf = s.rxbuf := rfl
@[simp] theorem enterWriting_rxn (s : State) : (enterWriting s).rxn = s.rxn := rfl
@[simp] theorem enterWriting_errkind (s : State) : (enterWriting s).errkind = s.errkind := rfl
@[simp] theorem enterWriting_errphase (s : State) : (enterWriting s).errphase = s.errphase := rfl
@[simp] theorem enterWriting_errstatus (s : State) : (enterWriting s).errstatus = s.errstatus := rfl
@[simp] theorem enterWriting_stragglers (s : State) : (enterWriting s).stragglers = s.stragglers := rfl
@[simp] theorem enterWriting_img (s : State) : (enterWriting s).img = s.img := rfl
@[simp] theorem enterWriting_wire (s : State) : (enterWriting s).wire = s.wire := rfl
@[simp] theorem enterWriting_calls (s : State) : (enterWriting s).calls = s.calls := rfl
@[simp] theorem enterWriting_handleOpen (s : State) : (enterWriting s).handleOpen = s.handleOpen := rfl
@[simp] theorem enterWriting_inbox (s : State) : (enterWriting s).inbox = s.inbox := rfl
@[simp] theorem enterWriting_results (s : State) : (enterWriting s).results = s.results := rfl
@[simp] theorem enterWriting_drawn (s : State) : (enterWriting s).drawn = s.drawn := rfl

@[simp] theorem countChunk_acc (s : State) : (countChunk s).acc = s.acc := rfl
@[simp] theorem countChunk_fbuf (s : State) : (countChunk s).fbuf = s.fbuf := rfl
@[simp] theorem countChunk_flen (s : State) : (countChunk s).flen = s.flen := rfl
@[simp] theorem countChunk_fbst (s : State) : (countChunk s).fbst = s.fbst := rfl
@[simp] theorem countChunk_offset (s : State) : (countChunk s).offset = advancedOffset s := rfl
@[simp] theorem countChunk_chunk (s : State) : (countChunk s).chunk = s.chunk := rfl
@[simp] theorem countChunk_ilen (s : State) : (countChunk s).ilen = s.ilen := rfl
@[simp] theorem countChunk_phase (s : State) : (countChunk s).phase = s.phase := rfl
@[simp] theorem countChunk_rstep (s : State) : (countChunk s).rstep = .build := rfl
@[simp] theorem countChunk_tgst (s : State) : (countChunk s).tgst = s.tgst := rfl
@[simp] theorem countChunk_timer (s : State) : (countChunk s).timer = s.timer := rfl
@[simp] theorem countChunk_txlen (s : State) : (countChunk s).txlen = s.txlen := rfl
@[simp] theorem countChunk_callid (s : State) : (countChunk s).callid = s.callid := rfl
@[simp] theorem countChunk_rxbuf (s : State) : (countChunk s).rxbuf = s.rxbuf := rfl
@[simp] theorem countChunk_rxn (s : State) : (countChunk s).rxn = s.rxn := rfl
@[simp] theorem countChunk_errkind (s : State) : (countChunk s).errkind = s.errkind := rfl
@[simp] theorem countChunk_errphase (s : State) : (countChunk s).errphase = s.errphase := rfl
@[simp] theorem countChunk_errstatus (s : State) : (countChunk s).errstatus = s.errstatus := rfl
@[simp] theorem countChunk_stragglers (s : State) : (countChunk s).stragglers = s.stragglers := rfl
@[simp] theorem countChunk_img (s : State) : (countChunk s).img = s.img := rfl
@[simp] theorem countChunk_wire (s : State) : (countChunk s).wire = s.wire := rfl
@[simp] theorem countChunk_calls (s : State) : (countChunk s).calls = s.calls := rfl
@[simp] theorem countChunk_handleOpen (s : State) : (countChunk s).handleOpen = s.handleOpen := rfl
@[simp] theorem countChunk_inbox (s : State) : (countChunk s).inbox = s.inbox := rfl
@[simp] theorem countChunk_results (s : State) : (countChunk s).results = s.results := rfl
@[simp] theorem countChunk_drawn (s : State) : (countChunk s).drawn = s.drawn := rfl

@[simp] theorem enterVerifying_acc (s : State) : (enterVerifying s).acc = s.acc := rfl
@[simp] theorem enterVerifying_fbuf (s : State) : (enterVerifying s).fbuf = s.fbuf := rfl
@[simp] theorem enterVerifying_flen (s : State) : (enterVerifying s).flen = s.flen := rfl
@[simp] theorem enterVerifying_fbst (s : State) : (enterVerifying s).fbst = s.fbst := rfl
@[simp] theorem enterVerifying_offset (s : State) : (enterVerifying s).offset = 0 := rfl
@[simp] theorem enterVerifying_chunk (s : State) : (enterVerifying s).chunk = s.chunk := rfl
@[simp] theorem enterVerifying_ilen (s : State) : (enterVerifying s).ilen = s.ilen := rfl
@[simp] theorem enterVerifying_phase (s : State) : (enterVerifying s).phase = .verifyingFirmware := rfl
@[simp] theorem enterVerifying_rstep (s : State) : (enterVerifying s).rstep = .build := rfl
@[simp] theorem enterVerifying_tgst (s : State) : (enterVerifying s).tgst = s.tgst := rfl
@[simp] theorem enterVerifying_timer (s : State) : (enterVerifying s).timer = s.timer := rfl
@[simp] theorem enterVerifying_txlen (s : State) : (enterVerifying s).txlen = s.txlen := rfl
@[simp] theorem enterVerifying_callid (s : State) : (enterVerifying s).callid = s.callid := rfl
@[simp] theorem enterVerifying_rxbuf (s : State) : (enterVerifying s).rxbuf = s.rxbuf := rfl
@[simp] theorem enterVerifying_rxn (s : State) : (enterVerifying s).rxn = s.rxn := rfl
@[simp] theorem enterVerifying_errkind (s : State) : (enterVerifying s).errkind = s.errkind := rfl
@[simp] theorem enterVerifying_errphase (s : State) : (enterVerifying s).errphase = s.errphase := rfl
@[simp] theorem enterVerifying_errstatus (s : State) : (enterVerifying s).errstatus = s.errstatus := rfl
@[simp] theorem enterVerifying_stragglers (s : State) : (enterVerifying s).stragglers = s.stragglers := rfl
@[simp] theorem enterVerifying_img (s : State) : (enterVerifying s).img = s.img := rfl
@[simp] theorem enterVerifying_wire (s : State) : (enterVerifying s).wire = s.wire := rfl
@[simp] theorem enterVerifying_calls (s : State) : (enterVerifying s).calls = s.calls := rfl
@[simp] theorem enterVerifying_handleOpen (s : State) : (enterVerifying s).handleOpen = s.handleOpen := rfl
@[simp] theorem enterVerifying_inbox (s : State) : (enterVerifying s).inbox = s.inbox := rfl
@[simp] theorem enterVerifying_results (s : State) : (enterVerifying s).results = s.results := rfl
@[simp] theorem enterVerifying_drawn (s : State) : (enterVerifying s).drawn = s.drawn := rfl

@[simp] theorem completeSession_acc (s : State) : (completeSession s).acc = s.acc := rfl
@[simp] theorem completeSession_fbuf (s : State) : (completeSession s).fbuf = s.fbuf := rfl
@[simp] theorem completeSession_flen (s : State) : (completeSession s).flen = s.flen := rfl
@[simp] theorem completeSession_fbst (s : State) : (completeSession s).fbst = s.fbst := rfl
@[simp] theorem completeSession_offset (s : State) : (completeSession s).offset = s.offset := rfl
@[simp] theorem completeSession_chunk (s : State) : (completeSession s).chunk = s.chunk := rfl
@[simp] theorem completeSession_ilen (s : State) : (completeSession s).ilen = s.ilen := rfl
@[simp] theorem completeSession_phase (s : State) : (completeSession s).phase = .complete := rfl
@[simp] theorem completeSession_rstep (s : State) : (completeSession s).rstep = .build := rfl
@[simp] theorem completeSession_tgst (s : State) : (completeSession s).tgst = s.tgst := rfl
@[simp] theorem completeSession_timer (s : State) : (completeSession s).timer = s.timer := rfl
@[simp] theorem completeSession_txlen (s : State) : (completeSession s).txlen = s.txlen := rfl
@[simp] theorem completeSession_callid (s : State) : (completeSession s).callid = s.callid := rfl
@[simp] theorem completeSession_rxbuf (s : State) : (completeSession s).rxbuf = s.rxbuf := rfl
@[simp] theorem completeSession_rxn (s : State) : (completeSession s).rxn = s.rxn := rfl
@[simp] theorem completeSession_errkind (s : State) : (completeSession s).errkind = s.errkind := rfl
@[simp] theorem completeSession_errphase (s : State) : (completeSession s).errphase = s.errphase := rfl
@[simp] theorem completeSession_errstatus (s : State) : (completeSession s).errstatus = s.errstatus := rfl
@[simp] theorem completeSession_stragglers (s : State) : (completeSession s).stragglers = s.stragglers := rfl
@[simp] theorem completeSession_img (s : State) : (completeSession s).img = s.img := rfl
@[simp] theorem completeSession_wire (s : State) : (completeSession s).wire = s.wire := rfl
@[simp] theorem completeSession_calls (s : State) : (completeSession s).calls = s.calls := rfl
@[simp] theorem completeSession_handleOpen (s : State) : (completeSession s).handleOpen = s.handleOpen := rfl
@[simp] theorem completeSession_inbox (s : State) : (completeSession s).inbox = s.inbox := rfl
@[simp] theorem completeSession_results (s : State) : (completeSession s).results = s.results := rfl
@[simp] theorem completeSession_drawn (s : State) : (completeSession s).drawn = s.drawn := rfl

@[simp] theorem readResult_acc (s : State) : (readResult s).acc = s.acc := rfl
@[simp] theorem readResult_fbuf (s : State) : (readResult s).fbuf = s.fbuf := rfl
@[simp] theorem readResult_flen (s : State) : (readResult s).flen = s.flen := rfl
@[simp] theorem readResult_fbst (s : State) : (readResult s).fbst = s.fbst := rfl
@[simp] theorem readResult_offset (s : State) : (readResult s).offset = s.offset := rfl
@[simp] theorem readResult_chunk (s : State) : (readResult s).chunk = s.chunk := rfl
@[simp] theorem readResult_ilen (s : State) : (readResult s).ilen = s.ilen := rfl
@[simp] theorem readResult_phase (s : State) : (readResult s).phase = s.phase := rfl
@[simp] theorem readResult_rstep (s : State) : (readResult s).rstep = s.rstep := rfl
@[simp] theorem readResult_tgst (s : State) : (readResult s).tgst = s.tgst := rfl
@[simp] theorem readResult_timer (s : State) : (readResult s).timer = s.timer := rfl
@[simp] theorem readResult_txlen (s : State) : (readResult s).txlen = s.txlen := rfl
@[simp] theorem readResult_callid (s : State) : (readResult s).callid = s.callid := rfl
@[simp] theorem readResult_rxbuf (s : State) : (readResult s).rxbuf = s.rxbuf := rfl
@[simp] theorem readResult_rxn (s : State) : (readResult s).rxn = s.rxn := rfl
@[simp] theorem readResult_errkind (s : State) : (readResult s).errkind = s.errkind := rfl
@[simp] theorem readResult_errphase (s : State) : (readResult s).errphase = s.errphase := rfl
@[simp] theorem readResult_errstatus (s : State) : (readResult s).errstatus = s.errstatus := rfl
@[simp] theorem readResult_stragglers (s : State) : (readResult s).stragglers = s.stragglers := rfl
@[simp] theorem readResult_img (s : State) : (readResult s).img = s.img := rfl
@[simp] theorem readResult_wire (s : State) : (readResult s).wire = s.wire := rfl
@[simp] theorem readResult_calls (s : State) : (readResult s).calls = s.calls := rfl
@[simp] theorem readResult_handleOpen (s : State) : (readResult s).handleOpen = s.handleOpen := rfl
@[simp] theorem readResult_inbox (s : State) : (readResult s).inbox = s.inbox := rfl
@[simp] theorem readResult_results (s : State) : (readResult s).results = s.results ++ [resultOf s] := rfl
@[simp] theorem readResult_drawn (s : State) : (readResult s).drawn = s.drawn := rfl

@[simp] theorem endWrite_acc (n : Nat) (err : Bool) (s : State) : (endWrite n err s).acc = s.acc := by cases err <;> rfl
@[simp] theorem endWrite_fbuf (n : Nat) (err : Bool) (s : State) : (endWrite n err s).fbuf = s.fbuf := by cases err <;> rfl
@[simp] theorem endWrite_flen (n : Nat) (err : Bool) (s : State) : (endWrite n err s).flen = s.flen := by cases err <;> rfl
@[simp] theorem endWrite_fbst (n : Nat) (err : Bool) (s : State) : (endWrite n err s).fbst = s.fbst := by cases err <;> rfl
@[simp] theorem endWrite_offset (n : Nat) (err : Bool) (s : State) : (endWrite n err s).offset = s.offset := by cases err <;> rfl
@[simp] theorem endWrite_chunk (n : Nat) (err : Bool) (s : State) : (endWrite n err s).chunk = s.chunk := by cases err <;> rfl
@[simp] theorem endWrite_ilen (n : Nat) (err : Bool) (s : State) : (endWrite n err s).ilen = s.ilen := by cases err <;> rfl
@[simp] theorem endWrite_phase (n : Nat) (err : Bool) (s : State) : (endWrite n err s).phase = s.phase := by cases err <;> rfl
@[simp] theorem endWrite_rstep (n : Nat) (err : Bool) (s : State) : (endWrite n err s).rstep = s.rstep := by cases err <;> rfl
@[simp] theorem endWrite_tgst (n : Nat) (err : Bool) (s : State) : (endWrite n err s).tgst = .idle := by cases err <;> rfl
@[simp] theorem endWrite_timer (n : Nat) (err : Bool) (s : State) : (endWrite n err s).timer = 0 := by cases err <;> rfl
@[simp] theorem endWrite_txlen (n : Nat) (err : Bool) (s : State) : (endWrite n err s).txlen = s.txlen := by cases err <;> rfl
@[simp] theorem endWrite_callid (n : Nat) (err : Bool) (s : State) : (endWrite n err s).callid = s.callid := by cases err <;> rfl
@[simp] theorem endWrite_rxbuf (n : Nat) (err : Bool) (s : State) : (endWrite n err s).rxbuf = s.rxbuf := by cases err <;> rfl
@[simp] theorem endWrite_rxn (n : Nat) (err : Bool) (s : State) : (endWrite n err s).rxn = s.rxn := by cases err <;> rfl
@[simp] theorem endWrite_errkind (n : Nat) (err : Bool) (s : State) : (endWrite n err s).errkind = s.errkind := by cases err <;> rfl
@[simp] theorem endWrite_errphase (n : Nat) (err : Bool) (s : State) : (endWrite n err s).errphase = s.errphase := by cases err <;> rfl
@[simp] theorem endWrite_errstatus (n : Nat) (err : Bool) (s : State) : (endWrite n err s).errstatus = s.errstatus := by cases err <;> rfl
@[simp] theorem endWrite_stragglers (n : Nat) (err : Bool) (s : State) : (endWrite n err s).stragglers = s.stragglers := by cases err <;> rfl
@[simp] theorem endWrite_img (n : Nat) (err : Bool) (s : State) : (endWrite n err s).img = s.img := by cases err <;> rfl
@[simp] theorem endWrite_handleOpen (n : Nat) (err : Bool) (s : State) : (endWrite n err s).handleOpen = s.handleOpen := by cases err <;> rfl
@[simp] theorem endWrite_inbox (n : Nat) (err : Bool) (s : State) : (endWrite n err s).inbox = s.inbox := by cases err <;> rfl
@[simp] theorem endWrite_results (n : Nat) (err : Bool) (s : State) : (endWrite n err s).results = s.results := by cases err <;> rfl

/-- The Transport's part after a write completion with a count. -/
@[simp] theorem endWrite_counted_wire (n : Nat) (s : State) :
    (endWrite n false s).wire = s.wire ++ (callBytes s.callid s.calls).take n := rfl

@[simp] theorem endWrite_counted_drawn (n : Nat) (s : State) : (endWrite n false s).drawn = s.drawn := rfl

@[simp] theorem endWrite_failed_drawn (n : Nat) (s : State) : (endWrite n true s).drawn = s.drawn + 1 := rfl

end Updates

end Sys2Proof.Machine
end

