-- ==== Sys2Proof/Laws/FrameBuilder.lean ====
section
/-! SUPPORT. What building and sending a frame does, said once (40_frame_builder.md R88, 42_commands.md R110): an
equation for the admitted case, and that a next state means the admitted case. -/

namespace Sys2Proof.Machine

@[simp] theorem length_headerBytes (cmd len a1 a2 : Byte) : (headerBytes cmd len a1 a2).length = 6 := rfl

@[simp] theorem length_frameFrom (a0 cmd len a1 a2 : Byte) (payload : List Byte) :
    (frameFrom a0 cmd len a1 a2 payload).length = 7 + payload.length := by
  simp [frameFrom]
  omega

theorem frameFrom_zero (cmd len a1 a2 : Byte) (payload : List Byte) :
    frameFrom 0 cmd len a1 a2 payload = frameBytes cmd len a1 a2 payload := by
  simp [frameFrom, frameBytes]

@[simp] theorem sumBytes_nil : sumBytes [] = 0 := rfl

@[simp] theorem sumBytes_cons (b : Byte) (bs : List Byte) : sumBytes (b :: bs) = b + sumBytes bs := rfl

theorem sumBytes_append (bs cs : List Byte) : sumBytes (bs ++ cs) = sumBytes bs + sumBytes cs := by
  induction bs with
  | nil => simp
  | cons b bs ih => simp [ih, BitVec.add_assoc]

/-- The counter `FLEN` grows by one without wrapping while there is room. -/
theorem toNat_flen_succ {x : BitVec 7} (h : x.toNat ≤ 66) : (x + 1).toNat = x.toNat + 1 := by
  rw [BitVec.toNat_add]
  simp
  omega

/-- The appends of a whole payload to an open frame with room for it. -/
theorem fbAppendAll_eq (bs : List Byte) (s : State) (ho : s.fbst = .opened)
    (hl : s.flen.toNat + bs.length ≤ 66) :
    fbAppendAll bs s = .next { s with
      fbuf := Memory.writeBytes s.fbuf s.flen.toNat bs
      flen := BitVec.ofNat 7 (s.flen.toNat + bs.length)
      acc := s.acc + sumBytes bs } := by
  induction bs generalizing s with
  | nil => simp [fbAppendAll]
  | cons b bs ih =>
    simp only [List.length_cons] at hl
    have h1 : fbAppend b s = .next (putPayloadByte b s) := by
      simp [fbAppend, ho, show s.flen.toNat ≤ 65 by omega]
    have h2 := toNat_flen_succ (x := s.flen) (by omega)
    rw [fbAppendAll, h1, andThen_of_next, ih _ (by simpa using ho) (by simp; omega)]
    simp only [putPayloadByte_fbuf, putPayloadByte_flen, putPayloadByte_acc, h2, sumBytes_cons,
      Memory.writeBytes_cons, List.length_cons, BitVec.add_assoc]
    rw [show s.flen.toNat + 1 + bs.length = s.flen.toNat + (bs.length + 1) by omega]
    rfl

/-- Appends that go on to a next state had an open frame and room. -/
theorem fbAppendAll_next {bs : List Byte} {s t : State} (ho : s.fbst = .opened) (hf : s.flen.toNat ≤ 66)
    (h : fbAppendAll bs s = .next t) : s.flen.toNat + bs.length ≤ 66 := by
  induction bs generalizing s with
  | nil => simpa using hf
  | cons b bs ih =>
    obtain ⟨u, h1, h2⟩ := andThen_next h
    unfold fbAppend at h1
    rw [if_pos ho] at h1
    split at h1
    · rename_i hr
      cases h1
      have h3 := toNat_flen_succ (x := s.flen) (by omega)
      have h4 := ih (by simpa using ho) (by simp; omega) h2
      simp only [putPayloadByte_flen, h3] at h4
      simp only [List.length_cons]
      omega
    · cases h1

/-- `FB.FINALIZE` of an open frame with room for its checksum (R83). -/
theorem fbFinalize_eq (s : State) (ho : s.fbst = .opened) (hl : s.flen.toNat ≤ 66) :
    fbFinalize s = .next (putChecksum s) := by
  rw [fbFinalize, if_pos ho, if_pos (by simp only [Config.frameCapacity]; omega)]

/-- `FB.FRAME` with no frame open and at most 60 payload bytes (R88). -/
theorem fbFrame_eq (cmd len a1 a2 : Byte) (payload : List Byte) (s : State) (hi : s.fbst = .idle)
    (hl : payload.length ≤ 60) :
    fbFrame cmd len a1 a2 payload s =
      .next (afterFrame (frameFrom s.acc cmd len a1 a2 payload) s) := by
  have h6 : (6 : BitVec 7).toNat = 6 := rfl
  have hf : (BitVec.ofNat 7 (6 + payload.length)).toNat = 6 + payload.length := by
    simp
    omega
  have hw : Memory.write (Memory.writeBytes (Memory.writeBytes s.fbuf 0 (headerBytes cmd len a1 a2)) 6 payload)
      (6 + payload.length) (s.acc + cmd + len + a1 + a2 + sumBytes payload) =
      Memory.writeBytes s.fbuf 0 (frameFrom s.acc cmd len a1 a2 payload) := by
    rw [frameFrom, Memory.writeBytes_append, Memory.writeBytes_append]
    simp
  have hlen : BitVec.ofNat 7 (6 + payload.length) + 1 =
      BitVec.ofNat 7 (frameFrom s.acc cmd len a1 a2 payload).length := by
    apply BitVec.eq_of_toNat_eq
    simp
    omega
  unfold fbFrame
  rw [fbHeader, if_pos hi, andThen_of_next,
    fbAppendAll_eq payload _ (by simp) (by simp; omega), andThen_of_next,
    fbFinalize_eq _ (by simp) (by simp only [putHeader_flen, h6, hf]; omega), andThen_of_next]
  simp only [fbClear, putChecksum, afterFrame, putHeader_flen, putHeader_fbuf, putHeader_acc, h6, hf, hw, hlen]
  rfl

/-- A built frame had no other frame open and at most 60 payload bytes. -/
theorem fbFrame_next {cmd len a1 a2 : Byte} {payload : List Byte} {s t : State}
    (h : fbFrame cmd len a1 a2 payload s = .next t) :
    s.fbst = .idle ∧ payload.length ≤ 60 ∧ t = afterFrame (frameFrom s.acc cmd len a1 a2 payload) s := by
  have hi : s.fbst = .idle := by
    obtain ⟨u, h1, _⟩ := andThen_next h
    unfold fbHeader at h1
    split at h1
    · assumption
    · cases h1
  have hl : payload.length ≤ 60 := by
    obtain ⟨u, h1, h2⟩ := andThen_next h
    rw [fbHeader, if_pos hi] at h1
    cases h1
    obtain ⟨v, h3, _⟩ := andThen_next h2
    have h6 : (6 : BitVec 7).toNat = 6 := rfl
    have := fbAppendAll_next (by simp) (by simp) h3
    simp only [putHeader_flen, h6] at this
    omega
  refine ⟨hi, hl, ?_⟩
  rw [fbFrame_eq _ _ _ _ _ _ hi hl] at h
  cases h
  rfl

/-- `TG.WRITE` of the frame that stands in the buffer. -/
theorem tgWrite_afterFrame (frame : List Byte) (s : State) (hg : s.tgst = .idle) (h7 : 7 ≤ frame.length)
    (h67 : frame.length ≤ 67) :
    tgWrite (afterFrame frame s) = .next (openWrite frame (afterFrame frame s)) := by
  have hlen : (BitVec.ofNat 7 frame.length).toNat = frame.length := by
    simp
    omega
  have hb : Memory.readBytes (spaceOf .fbuf (afterFrame frame s)) 0 (afterFrame frame s).flen.toNat = some frame := by
    simp only [afterFrame, spaceOf, hlen]
    exact Memory.readBytes_writeBytes _ _ _
  unfold tgWrite
  rw [if_neg (by simp [afterFrame, hg]), if_neg (by simp [afterFrame]),
    if_neg (by simp only [afterFrame, hlen]; omega),
    memRead_of_bytes (by simp [readAllowed]) hb]

/-- The send of a round: from no open frame, no pending call and at most 60 payload bytes (R110). -/
theorem sendRound_eq (cmd len a1 a2 : Byte) (payload : List Byte) (s : State) (hi : s.fbst = .idle)
    (hg : s.tgst = .idle) (hl : payload.length ≤ 60) :
    sendRound cmd len a1 a2 payload s =
      .next (afterSend (frameFrom s.acc cmd len a1 a2 payload) s) := by
  unfold sendRound
  rw [fbFrame_eq _ _ _ _ _ _ hi hl, andThen_of_next,
    tgWrite_afterFrame _ _ hg (by simp) (by simp; omega), andThen_of_next]
  rfl

/-- A send that goes on to a next state was from no open frame and no pending call, and leaves that state. -/
theorem sendRound_next {cmd len a1 a2 : Byte} {payload : List Byte} {s t : State}
    (h : sendRound cmd len a1 a2 payload s = .next t) :
    s.fbst = .idle ∧ s.tgst = .idle ∧ payload.length ≤ 60 ∧
      t = afterSend (frameFrom s.acc cmd len a1 a2 payload) s := by
  obtain ⟨u, h1, h2⟩ := andThen_next h
  obtain ⟨hi, hl, rfl⟩ := fbFrame_next h1
  have hg : s.tgst = .idle := by
    obtain ⟨v, h3, _⟩ := andThen_next h2
    unfold tgWrite at h3
    split at h3
    · cases h3
    · rename_i hn
      simpa [afterFrame] using hn
  refine ⟨hi, hg, hl, ?_⟩
  rw [sendRound_eq _ _ _ _ _ _ hi hg hl] at h
  cases h
  rfl

end Sys2Proof.Machine
end

