-- ==== Sys2Proof/Laws/PerInstr.lean ====
section
/-! SUPPORT. Statements about every instruction as syntax, one lemma per constructor. -/

namespace Sys2Proof.Laws.EncodedForm

/-- The encoded form of an instruction (30_encoding.md R60, R66, R67): a sent one has six header bytes that begin with the
two sync bytes, a received one has two bytes; and the payload it announces is at most 60 bytes if it is well formed. -/
def Statement (i : Instr) : Prop :=
  (i.direction = .sent → (encode i).length = 6 ∧ (encode i).take 2 = [Config.sync1, Config.sync2]) ∧
  (i.direction = .received → (encode i).length = 2) ∧
  (i.WellFormed → payloadLength i ≤ Config.maxPayload)

theorem erase : Statement .erase := ⟨fun _ => ⟨rfl, rfl⟩, nofun, fun _ => Nat.zero_le _⟩

theorem program (off : BitVec 16) (n : Byte) : Statement (.program off n) :=
  ⟨fun _ => ⟨rfl, rfl⟩, nofun, fun h => (chunkDefect_none.1 h).2.1⟩

theorem verify (off : BitVec 16) (n : Byte) : Statement (.verify off n) :=
  ⟨fun _ => ⟨rfl, rfl⟩, nofun, fun h => (chunkDefect_none.1 h).2.1⟩

theorem endCmd : Statement .endCmd := ⟨fun _ => ⟨rfl, rfl⟩, nofun, fun _ => Nat.zero_le _⟩

theorem ackOk (reserved : Byte) : Statement (.ackOk reserved) := ⟨nofun, fun _ => rfl, fun _ => Nat.zero_le _⟩

theorem ackFail (status reserved : Byte) : Statement (.ackFail status reserved) :=
  ⟨nofun, fun _ => rfl, fun _ => Nat.zero_le _⟩

end Sys2Proof.Laws.EncodedForm
end

