-- ==== Sys2Proof/Laws/Sequencer.lean ====
section
/-! SUPPORT. Everything a delivered outcome, an event and a step can do, said once: if it answers a next state, then one of
the cases of `Delivered`, `Taken`, `Stepped` holds. -/

namespace Sys2Proof.Machine

/-! ### Reactions to an outcome -/

/-- Everything the delivery of an outcome of a call of kind `g` can do (42_commands.md R110, R117). -/
inductive Delivered (g : GuardState) (o : CallOutcome) (s : State) : State → Prop
  | failed (kind : ErrKind) (status : Byte) (hb : busy s.phase = true) (hr : s.rstep ≠ .build)
      (hw : g = .writing → s.rstep = .send) (hv : g = .reading → s.rstep = .recv)
      (hk : kind ≠ .none ∧ kind ≠ .oversizedImage) (hs : kind = .deviceRejected ↔ status ≠ 0)
      (h0 : kind = .deviceRejected → readByte .rxbuf 0 s = some status)
      (ha : kind = .deviceRejected ∨ kind = .malformedAcknowledgment → awaitsAck s.phase = true) :
      Delivered g o s (raise kind status s)
  | completed (hg : g = .writing) (ho : o = .success) (hr : s.rstep = .send) (hp : s.phase = .ending) :
      Delivered g o s (completeSession s)
  | sent (hg : g = .writing) (ho : o = .success) (hr : s.rstep = .send) (hb : busy s.phase = true)
      (hp : s.phase ≠ .ending) (hi : s.tgst = .idle) : Delivered g o s { openRead s with rstep := .recv }
  | erased (hg : g = .reading) (ho : o = .success) (hr : s.rstep = .recv) (hp : s.phase = .erasing)
      (h0 : readByte .rxbuf 0 s = some Config.ackOk) : Delivered g o s (enterWriting s)
  | counted (hg : g = .reading) (ho : o = .success) (hr : s.rstep = .recv) (hp : inPass s)
      (h0 : readByte .rxbuf 0 s = some Config.ackOk) : Delivered g o s (countChunk s)

/-- A next state from `ACK.CHECK` is a validated round or a rejection (R117). -/
theorem ackCheck_next {s t : State} (h : ackCheck s = .next t) :
    (s.phase = .erasing ∧ readByte .rxbuf 0 s = some Config.ackOk ∧ t = enterWriting s) ∨
      (inPass s ∧ readByte .rxbuf 0 s = some Config.ackOk ∧ t = countChunk s) ∨
      ∃ status, status ≠ 0 ∧ readByte .rxbuf 0 s = some status ∧ t = raise .deviceRejected status s := by
  unfold ackCheck at h
  split at h
  · obtain ⟨bs, _, h2, h3⟩ := memRead_next h
    have hb := Memory.readBytes_one h2
    split at h3
    · rename_i hz
      subst hz
      have hb0 : readByte .rxbuf 0 s = some Config.ackOk := hb
      unfold roundSucceeds at h3
      split at h3 <;> cases h3
      · exact .inl ⟨‹_›, hb0, rfl⟩
      · exact .inr (.inl ⟨.inl ‹_›, hb0, rfl⟩)
      · exact .inr (.inl ⟨.inr ‹_›, hb0, rfl⟩)
    · rename_i hne
      cases h3
      have hl := Memory.length_of_readBytes h2
      match bs, hl with
      | [b], _ => exact .inr (.inr ⟨b, by simpa [Config.ackOk] using hne, hb, rfl⟩)
  · cases h

/-- The inversion of `deliver`. -/
theorem deliver_next {g : GuardState} {o : CallOutcome} {s t : State} (h : deliver g o s = .next t) :
    Delivered g o s t := by
  cases g with
  | idle => cases h
  | writing =>
    simp only [deliver] at h
    split at h
    · rename_i hc
      obtain ⟨hr, hb⟩ := hc
      have hne : s.rstep ≠ .build := by simp [hr]
      cases o with
      | success =>
        simp only [afterWrite, frameSent] at h
        split at h
        · cases h
          exact .completed rfl rfl hr ‹_›
        · obtain ⟨u, h1, h2⟩ := andThen_next h
          cases h2
          unfold tgRead at h1
          split at h1
          · cases h1
            exact .sent rfl rfl hr hb ‹_› ‹_›
          · cases h1
      | timeout => cases h; exact .failed _ _ hb hne (fun _ => hr) nofun (by simp) (by simp) (by simp) (by simp)
      | transportError => cases h; exact .failed _ _ hb hne (fun _ => hr) nofun (by simp) (by simp) (by simp) (by simp)
      | shortWrite => cases h; exact .failed _ _ hb hne (fun _ => hr) nofun (by simp) (by simp) (by simp) (by simp)
      | malformed => cases h
    · cases h
  | reading =>
    simp only [deliver] at h
    split at h
    · rename_i hc
      obtain ⟨hr, hb⟩ := hc
      have hne : s.rstep ≠ .build := by simp [hr]
      have hb' : busy s.phase = true := by
        revert hb
        cases s.phase <;> simp [awaitsAck, busy]
      cases o with
      | success =>
        rcases ackCheck_next h with ⟨hp, h0, rfl⟩ | ⟨hp, h0, rfl⟩ | ⟨st, hn, h0, rfl⟩
        · exact .erased rfl rfl hr hp h0
        · exact .counted rfl rfl hr hp h0
        · exact .failed _ _ hb' hne nofun (fun _ => hr) (by simp) (by simpa using hn) (fun _ => h0) (fun _ => hb)
      | timeout => cases h; exact .failed _ _ hb' hne nofun (fun _ => hr) (by simp) (by simp) (by simp) (by simp)
      | transportError => cases h; exact .failed _ _ hb' hne nofun (fun _ => hr) (by simp) (by simp) (by simp) (by simp)
      | malformed => cases h; exact .failed _ _ hb' hne nofun (fun _ => hr) (by simp) (by simp) (by simp) (fun _ => hb)
      | shortWrite => cases h
    · cases h

/-! ### The commands -/

/-- A round that begins did so in its phase and at `S_BUILD`. -/
theorem beginRound_next {p : Phase} {s t : State} {k : Out} (h : beginRound p s k = .next t) :
    s.phase = p ∧ s.rstep = .build ∧ k = .next t := by
  unfold beginRound at h
  split at h
  · split at h
    · exact ⟨‹_›, ‹_›, h⟩
    · cases h
  · cases h

/-- A round in its phase and at `S_BUILD` begins. -/
theorem beginRound_eq {p : Phase} {s : State} (k : Out) (hp : s.phase = p) (hr : s.rstep = .build) :
    beginRound p s k = k := by
  simp [beginRound, hp, hr]

/-- The admitted Program or Verify round (R112, R113). -/
theorem chunkRound_eq {p : Phase} {cmd : Byte} {off : BitVec 16} {n : Byte} {s : State} {payload : List Byte}
    (hp : s.phase = p) (hr : s.rstep = .build) (hi : s.fbst = .idle) (hg : s.tgst = .idle)
    (hn : n.toNat ≤ 60) (hl : off.toNat + n.toNat ≤ s.ilen.toNat)
    (hb : Memory.readBytes s.img off.toNat n.toNat = some payload) :
    chunkRound p cmd off n s = .next (afterSend (frameFrom s.acc cmd n (arg1Of off) (arg2Of off) payload)
      { s with chunk := chunkOf n }) := by
  have hlen := Memory.length_of_readBytes hb
  unfold chunkRound
  rw [beginRound_eq _ hp hr, memRead_of_bytes (sp := .img) (by simp [readAllowed, hl, Config.maxPayload, hn]) hb,
    sendRound_eq _ _ _ _ _ _ (by simpa using hi) (by simpa using hg) (by omega)]

/-- A Program or Verify round that goes on to a next state was the admitted one. -/
theorem chunkRound_next {p : Phase} {cmd : Byte} {off : BitVec 16} {n : Byte} {s t : State}
    (h : chunkRound p cmd off n s = .next t) :
    ∃ payload, s.phase = p ∧ s.rstep = .build ∧ s.fbst = .idle ∧ s.tgst = .idle ∧ n.toNat ≤ 60 ∧
      off.toNat + n.toNat ≤ s.ilen.toNat ∧ Memory.readBytes s.img off.toNat n.toNat = some payload ∧
      t = afterSend (frameFrom s.acc cmd n (arg1Of off) (arg2Of off) payload) { s with chunk := chunkOf n } := by
  obtain ⟨hp, hr, h1⟩ := beginRound_next h
  obtain ⟨payload, h2, h3, h4⟩ := memRead_next h1
  obtain ⟨hi, hg, _, rfl⟩ := sendRound_next h4
  simp only [readAllowed, Config.maxPayload, Bool.and_eq_true, decide_eq_true_eq] at h2
  exact ⟨payload, hp, hr, hi, hg, of_decide_eq_true h2.2, h2.1, h3, rfl⟩

/-- The admitted Erase round (R111). -/
theorem execErase_eq {s : State} (hp : s.phase = .erasing) (hr : s.rstep = .build) (hi : s.fbst = .idle)
    (hg : s.tgst = .idle) :
    execErase s = .next (afterSend (frameFrom s.acc Config.cmdErase Config.eraseLen 0 0 []) s) := by
  rw [execErase, beginRound_eq _ hp hr, sendRound_eq _ _ _ _ _ _ hi hg (by simp)]

/-- An Erase round that goes on to a next state was the admitted one. -/
theorem execErase_next {s t : State} (h : execErase s = .next t) :
    s.phase = .erasing ∧ s.rstep = .build ∧ s.fbst = .idle ∧ s.tgst = .idle ∧
      t = afterSend (frameFrom s.acc Config.cmdErase Config.eraseLen 0 0 []) s := by
  unfold execErase at h
  obtain ⟨hp, hr, h1⟩ := beginRound_next h
  obtain ⟨hi, hg, _, ht⟩ := sendRound_next h1
  exact ⟨hp, hr, hi, hg, ht⟩

/-- The admitted End frame (R114). -/
theorem execEnd_eq {s : State} (hp : s.phase = .ending) (hr : s.rstep = .build) (hi : s.fbst = .idle)
    (hg : s.tgst = .idle) :
    execEnd s = .next (afterSend (frameFrom s.acc Config.cmdEnd Config.endLen 0 0 []) s) := by
  rw [execEnd, beginRound_eq _ hp hr, sendRound_eq _ _ _ _ _ _ hi hg (by simp)]

/-- An End frame that goes on to a next state was the admitted one. -/
theorem execEnd_next {s t : State} (h : execEnd s = .next t) :
    s.phase = .ending ∧ s.rstep = .build ∧ s.fbst = .idle ∧ s.tgst = .idle ∧
      t = afterSend (frameFrom s.acc Config.cmdEnd Config.endLen 0 0 []) s := by
  unfold execEnd at h
  obtain ⟨hp, hr, h1⟩ := beginRound_next h
  obtain ⟨hi, hg, _, ht⟩ := sendRound_next h1
  exact ⟨hp, hr, hi, hg, ht⟩

/-- A received acknowledgment completed the pending read and was delivered as a success. -/
theorem receiveAck_next {status reserved : Byte} {s t : State} (h : receiveAck status reserved s = .next t) :
    s.tgst = .reading ∧ Delivered .reading .success (endRead [status, reserved] s) t := by
  by_cases hg : s.tgst = .reading
  · rw [receiveAck, if_pos hg] at h
    exact ⟨hg, deliver_next h⟩
  · rw [receiveAck, if_neg hg] at h
    cases h

/-! ### Events -/

/-- The call a completion names, whatever its form. -/
def completionTag : Event → Option Nat
  | .wdone id _ _ => some id
  | .rdone id _ _ _ => some id
  | .late id => some id
  | _ => none

/-- Everything an event can do (41_transport_guard.md R93 to R97; 43_sequencer.md R120, R133). -/
inductive Taken (s : State) : Event → State → Prop
  | cleared (hb : busy s.phase = false) : Taken s .fbClear (fbClear s)
  | headed (cmd len a1 a2 : Byte) (hb : busy s.phase = false) (hi : s.fbst = .idle) :
      Taken s (.fbHeader cmd len a1 a2) (putHeader cmd len a1 a2 s)
  | appended (b : Byte) (hb : busy s.phase = false) (ho : s.fbst = .opened) (hl : s.flen.toNat ≤ 65) :
      Taken s (.fbAppend b) (putPayloadByte b s)
  | finalized (hb : busy s.phase = false) (ho : s.fbst = .opened) (hl : s.flen.toNat ≤ 66) :
      Taken s .fbFinalize (putChecksum s)
  | ticked : Taken s .tick (tgTick s)
  | expired (t : State) (hg : s.tgst ≠ .idle) (hz : s.timer = 0)
      (hd : Delivered s.tgst .timeout (abandonCall (acceptDrawn s.callid s)) t) : Taken s .expire t
  | written (n : Nat) (err : Bool) (t : State) (hg : s.tgst = .writing) (hn : n ≤ s.txlen.toNat)
      (hd : Delivered .writing (writeOutcome n s.txlen.toNat err) (endWrite n err s) t) : Taken s (.wdone s.callid n err) t
  | received (bytes : List Byte) (eof err : Bool) (t : State) (hg : s.tgst = .reading) (hn : bytes.length ≤ 2)
      (hd : Delivered .reading (readOutcome bytes.length eof err) (endRead bytes s) t) :
      Taken s (.rdone s.callid bytes eof err) t
  | straggled (e : Event) (id : Nat) (he : completionTag e = some id) (hm : id ∈ s.stragglers) :
      Taken s e { endLate id s with stragglers := removeTag id s.stragglers }
  | forgotten (e : Event) (id : Nat) (he : completionTag e = some id) (hm : id ∉ s.stragglers)
      (hc : ∃ c ∈ s.calls, c.tag = id) (hn : ¬(s.tgst ≠ .idle ∧ id = s.callid)) : Taken s e (endLate id s)
  | started (src : Source) (hb : busy s.phase = false) (hi : s.fbst = .idle) (hh : s.handleOpen = true) (hs : s.stragglers = [])
      (hc : s.calls = []) (hr : src.readable = true) (ha : src.again = src.bytes) :
      Taken s (.seqStart src) (startOn src.bytes s)
  | answered : Taken s .result (readResult s)
  | opened (hb : busy s.phase = false) : Taken s .openTransport { s with handleOpen := true }
  | closed (hb : busy s.phase = false) : Taken s .closeTransport { s with handleOpen := false }
  | restarted : Taken s .reset (resetBlock s)

/-- The inversion of `TG.EXPIRE`. -/
theorem tgExpire_next {s t : State} (h : tgExpire s = .next t) :
    s.tgst ≠ .idle ∧ s.timer = 0 ∧ Delivered s.tgst .timeout (abandonCall (acceptDrawn s.callid s)) t := by
  unfold tgExpire at h
  split at h
  · rename_i hg
    exact ⟨hg.1, hg.2, deliver_next h⟩
  · cases h

/-- The inversion of `TG.LATE`. -/
theorem tgLate_next {id : Nat} {s t : State} (e : Event) (he : completionTag e = some id)
    (h : tgLate id s = .next t) : Taken s e t := by
  unfold tgLate at h
  split at h
  · cases h
    exact .straggled e id he ‹_›
  · split at h
    · cases h
    · split at h
      · rename_i hc
        cases h
        exact .forgotten e id he ‹_› (by simpa using hc) ‹_›
      · cases h

/-- A session that starts had every premise (43_sequencer.md R120, R121; logs 14, 19). -/
theorem seqStart_next {src : Source} {s t : State} (h : seqStart src s = .next t) :
    busy s.phase = false ∧ s.fbst = .idle ∧ s.handleOpen = true ∧ s.stragglers = [] ∧ s.calls = [] ∧
      src.readable = true ∧ src.again = src.bytes ∧ t = startOn src.bytes s := by
  unfold seqStart at h
  split at h
  · cases h
  split at h
  · cases h
  split at h
  · cases h
  split at h
  · cases h
  split at h
  · cases h
  split at h
  · cases h
  rename_i hb hi hh hl hr ha
  cases h
  rw [not_or] at hl
  exact ⟨by simpa using hb, by simpa using hi, by simpa using hh, by simpa using hl.1, by simpa using hl.2,
    by simpa using hr, by simpa using ha, rfl⟩

/-- A session starts under every premise. -/
theorem seqStart_eq {src : Source} {s : State} (hb : busy s.phase = false) (hi : s.fbst = .idle)
    (hh : s.handleOpen = true) (hs : s.stragglers = []) (hc : s.calls = []) (hr : src.readable = true)
    (ha : src.again = src.bytes) : seqStart src s = .next (startOn src.bytes s) := by
  simp [seqStart, hb, hi, hh, hs, hc, hr, ha]

/-- The inversion of `takeEvent`. -/
theorem takeEvent_next {e : Event} {s t : State} (h : takeEvent e s = .next t) : Taken s e t := by
  cases e with
  | fbClear =>
    simp only [takeEvent, bareBuilder] at h
    split at h
    · cases h
    · cases h
      exact .cleared (by simpa using ‹¬ busy s.phase = true›)
  | fbHeader cmd len a1 a2 =>
    simp only [takeEvent, bareBuilder, fbHeader] at h
    split at h
    · cases h
    · split at h
      · cases h
        exact .headed _ _ _ _ (by simpa using ‹¬ busy s.phase = true›) ‹_›
      · cases h
  | fbAppend b =>
    simp only [takeEvent, bareBuilder, fbAppend] at h
    split at h
    · cases h
    · split at h
      · split at h
        · cases h
          exact .appended _ (by simpa using ‹¬ busy s.phase = true›) ‹_› ‹_›
        · cases h
      · cases h
  | fbFinalize =>
    simp only [takeEvent, bareBuilder, fbFinalize] at h
    split at h
    · cases h
    · split at h
      · split at h
        · rename_i hl
          cases h
          simp only [Config.frameCapacity] at hl
          exact .finalized (by simpa using ‹¬ busy s.phase = true›) ‹_› (by omega)
        · cases h
      · cases h
  | tick =>
    cases h
    exact .ticked
  | expire =>
    obtain ⟨hg, hz, hd⟩ := tgExpire_next h
    exact .expired t hg hz hd
  | wdone id n err =>
    simp only [takeEvent, tgWdone] at h
    split at h
    · rename_i hg
      split at h
      · cases h
      · obtain ⟨hg, rfl⟩ := hg
        exact .written n err t hg (by omega) (deliver_next h)
    · exact tgLate_next _ rfl h
  | rdone id bytes eof err =>
    simp only [takeEvent, tgRdone] at h
    split at h
    · rename_i hg
      split at h
      · cases h
      · rename_i hl
        obtain ⟨hg, rfl⟩ := hg
        simp only [Config.ackLen] at hl
        exact .received bytes eof err t hg (by omega) (deliver_next h)
    · exact tgLate_next _ rfl h
  | late id => exact tgLate_next _ rfl h
  | seqStart src =>
    obtain ⟨hb, hi, hh, hs, hc, hr, ha, rfl⟩ := seqStart_next h
    exact .started src hb hi hh hs hc hr ha
  | result =>
    cases h
    exact .answered
  | openTransport =>
    simp only [takeEvent, setHandle] at h
    split at h
    · cases h
    · cases h
      exact .opened (by simpa using ‹¬ busy s.phase = true›)
  | closeTransport =>
    simp only [takeEvent, setHandle] at h
    split at h
    · cases h
    · cases h
      exact .closed (by simpa using ‹¬ busy s.phase = true›)
  | reset =>
    cases h
    exact .restarted

/-! ### The step -/

/-- Everything a step can do. -/
inductive Stepped (s : State) : State → Prop
  | erase (hp : s.phase = .erasing) (hr : s.rstep = .build) (hi : s.fbst = .idle) (hg : s.tgst = .idle) :
      Stepped s (afterSend (frameFrom s.acc Config.cmdErase Config.eraseLen 0 0 []) s)
  | chunk (cmd : Byte) (payload : List Byte)
      (hc : (s.phase = .writingFirmware ∧ cmd = Config.cmdProgram) ∨
        (s.phase = .verifyingFirmware ∧ cmd = Config.cmdVerify))
      (hr : s.rstep = .build) (hi : s.fbst = .idle) (hg : s.tgst = .idle)
      (hm : s.offset.toNat < s.ilen.toNat)
      (hb : Memory.readBytes s.img s.offset.toNat (nextChunk s) = some payload) :
      Stepped s (afterSend
        (frameFrom s.acc cmd (nextChunkByte s) (arg1Of s.offset) (arg2Of s.offset) payload)
        { s with chunk := chunkOf (nextChunkByte s) })
  | ending (hp : s.phase = .ending ∨ (s.phase = .verifyingFirmware ∧ ¬ s.offset.toNat < s.ilen.toNat))
      (hr : s.rstep = .build) (hi : s.fbst = .idle) (hg : s.tgst = .idle) :
      Stepped s (afterSend (frameFrom s.acc Config.cmdEnd Config.endLen 0 0 []) { s with phase := .ending })
  | acked (status reserved : Byte) (eof : Bool) (rest : List Event) (t : State)
      (hr : s.rstep = .recv) (hg : s.tgst = .reading)
      (hq : s.inbox = .rdone s.callid [status, reserved] eof false :: rest)
      (hd : Delivered .reading .success (endRead [status, reserved] { s with inbox := rest }) t) : Stepped s t
  | verifying (hp : s.phase = .writingFirmware) (hr : s.rstep = .build) (hm : ¬ s.offset.toNat < s.ilen.toNat) :
      Stepped s (enterVerifying s)
  | event (e : Event) (rest : List Event) (t : State) (hf : fetch s = none) (hq : s.inbox = e :: rest)
      (ht : Taken { s with inbox := rest } e t) : Stepped s t
  | ticked (hf : fetch s = none) (hq : s.inbox = []) (hg : s.tgst ≠ .idle) (hz : 0 < s.timer) : Stepped s (tgTick s)
  | expired (t : State) (hf : fetch s = none) (hq : s.inbox = []) (hg : s.tgst ≠ .idle) (hz : s.timer = 0)
      (hd : Delivered s.tgst .timeout (abandonCall (acceptDrawn s.callid s)) t) : Stepped s t
  | waited (hf : fetch s = none) (hq : s.inbox = []) (hg : s.tgst = .idle) : Stepped s s

/-- The next chunk is at most 60 bytes. -/
theorem nextChunk_le (s : State) : nextChunk s ≤ 60 := by
  simp only [nextChunk, Config.maxPayload]
  omega

/-- The length byte of the next chunk is its size. -/
@[simp] theorem toNat_nextChunkByte (s : State) : (nextChunkByte s).toNat = nextChunk s := by
  have := nextChunk_le s
  simp only [nextChunkByte, BitVec.toNat_ofNat]
  omega

/-- `CHUNK` holds the size of a chunk of at most 60 bytes. -/
theorem toNat_chunkOf {n : Byte} (h : n.toNat ≤ 60) : (chunkOf n).toNat = n.toNat := by
  simp only [chunkOf, BitVec.toNat_ofNat]
  omega

/-- An arrived acknowledgment is a two-byte completion of the current read. -/
theorem arrivedAck_some {s : State} {i : Instr} (h : arrivedAck s = some i) :
    ∃ status reserved eof rest, s.inbox = .rdone s.callid [status, reserved] eof false :: rest ∧
      i = ackInstr status reserved := by
  unfold arrivedAck at h
  split at h
  · rename_i id bytes eof rest hq
    split at h
    · rename_i hc
      obtain ⟨rfl, hl⟩ := hc
      match bytes, hl with
      | [a, b], _ =>
        simp only [decode, decodeAck, Option.some.injEq] at h
        exact ⟨a, b, eof, rest, hq, h.symm⟩
    · cases h
  · cases h

/-- Running the acknowledgment two bytes decode to is receiving them. -/
theorem exec_ackInstr (status reserved : Byte) (s : State) :
    exec (ackInstr status reserved) s = receiveAck status reserved s := by
  unfold ackInstr
  split
  · subst_vars
    rfl
  · rfl

/-- The inversion of `step`. -/
theorem step_next {s t : State} (h : step s = .next t) : Stepped s t := by
  unfold step at h
  split at h
  · rename_i i hf
    unfold fetch at hf
    split at hf
    · rename_i hr
      unfold nextCommand at hf
      split at hf
      · cases hf
      · rename_i hp
        cases hf
        have hpr : prepare s = s := by simp [prepare, hr, hp]
        rw [hpr] at h
        obtain ⟨_, _, hi, hg, rfl⟩ := execErase_next h
        exact .erase hp hr hi hg
      · rename_i hp
        split at hf
        · rename_i hm
          cases hf
          have hpr : prepare s = s := by simp [prepare, hr, hp]
          rw [hpr] at h
          obtain ⟨payload, _, _, hi, hg, _, _, hb, rfl⟩ := chunkRound_next h
          rw [toNat_nextChunkByte] at hb
          exact .chunk _ payload (.inl ⟨hp, rfl⟩) hr hi hg (by simpa [moreToSend] using hm) hb
        · cases hf
      · rename_i hp
        split at hf
        · rename_i hm
          cases hf
          have hpr : prepare s = s := by simp [prepare, hr, hp, hm]
          rw [hpr] at h
          obtain ⟨payload, _, _, hi, hg, _, _, hb, rfl⟩ := chunkRound_next h
          rw [toNat_nextChunkByte] at hb
          exact .chunk _ payload (.inr ⟨hp, rfl⟩) hr hi hg (by simpa [moreToSend] using hm) hb
        · rename_i hm
          cases hf
          have hm' : moreToSend s = false := by simpa using hm
          have hpr : prepare s = { s with phase := .ending } := by simp [prepare, hr, hp, hm']
          rw [hpr] at h
          obtain ⟨_, _, hi, hg, rfl⟩ := execEnd_next h
          exact .ending (.inr ⟨hp, by simpa [moreToSend] using hm'⟩) hr hi hg
      · rename_i hp
        cases hf
        have hpr : prepare s = { s with phase := .ending } := by
          cases s
          simp_all [prepare]
        rw [hpr] at h
        obtain ⟨_, _, hi, hg, rfl⟩ := execEnd_next h
        exact .ending (.inl hp) hr hi hg
      · cases hf
      · cases hf
    · cases hf
    · rename_i hr
      split at hf
      · rename_i hg
        obtain ⟨status, reserved, eof, rest, hq, rfl⟩ := arrivedAck_some hf
        have hpr : prepare s = { s with inbox := rest } := by simp [prepare, hr, hq]
        rw [hpr, exec_ackInstr] at h
        exact .acked status reserved eof rest t hr hg hq (receiveAck_next h).2
      · cases hf
  · rename_i hf
    unfold withoutInstr at h
    split at h
    · rename_i hp
      cases h
      refine .verifying hp.1 hp.2 ?_
      simpa [fetch, nextCommand, hp.1, hp.2, moreToSend] using hf
    · unfold awaitEvent at h
      split at h
      · rename_i e rest hq
        exact .event e rest t hf hq (takeEvent_next h)
      · rename_i hq
        split at h
        · cases h
          exact .waited hf hq ‹_›
        · rename_i hg
          unfold timerMoves at h
          split at h
          · cases h
            exact .ticked hf hq hg ‹_›
          · obtain ⟨_, hz, hd⟩ := tgExpire_next h
            exact .expired t hf hq hg hz hd

end Sys2Proof.Machine
end

