-- ==== Sys2Proof/Tests/Slice0.lean ====
section
/-! SUPPORT. The model's own tests. Expected values come from spec/95_test_vectors.md (its numbers stand in the comments)
or from the encodings of 30_encoding.md; the witnesses show states and operands that meet the hypotheses of the
statements. -/

namespace Sys2Proof.Tests

open Sys2Proof Sys2Proof.Machine

/-! ### Helpers -/

/-- A value read off the next state, if there is one. -/
def after {α : Type} (o : Out) (f : State → α) : Option α :=
  match o with
  | .next s => some (f s)
  | .fault _ => none
  | .refused _ => none

/-- Why an operation was refused, if it was. -/
def refusal (o : Out) : Option Refusal :=
  match o with
  | .next _ => none
  | .fault _ => none
  | .refused r => some r

/-- Why decoding failed, if it did. -/
def decodeError {α : Type} (r : Except DecodeError α) : Option DecodeError :=
  match r with
  | .ok _ => none
  | .error e => some e

/-- What was decoded, if anything. -/
def decoded {α : Type} (r : Except DecodeError α) : Option α :=
  match r with
  | .ok a => some a
  | .error _ => none

/-- A session in phase `p` about to send, its image all `0xFF` up to address 60 (program P3's image of 61 bytes). -/
def building (p : Phase) (off : BitVec 16) (len : BitVec 15) : State :=
  { State.reset with phase := p, offset := off, ilen := len, img := Memory.ofBytes 60 [0xFF] }

/-- A session in phase `p` whose write of a 7-byte frame, tag 1, is pending; the events follow. -/
def sending (p : Phase) (events : List Event) : State :=
  { State.reset with
    phase := p, rstep := .send, tgst := .writing, callid := 1, txlen := 7, flen := 7,
    fbuf := Memory.ofBytes 0 [1, 2, 3, 4, 5, 6, 7], calls := [⟨1, [1, 2, 3, 4, 5, 6, 7]⟩], inbox := events }

/-- A session in phase `p` whose read, tag 2, is pending; the events follow. -/
def reading (p : Phase) (events : List Event) : State :=
  { State.reset with
    phase := p, rstep := .recv, tgst := .reading, callid := 2, calls := [⟨2, []⟩], inbox := events }

/-- A bare builder with a frame open, `k` bytes long, and an accumulator. -/
def opened (k : BitVec 7) (a : Byte) : State := { State.reset with fbst := .opened, flen := k, acc := a }

/-- A block at rest with its handle open. -/
def ready : State := { State.reset with handleOpen := true }

/-- A stable source of `n` zero bytes. -/
def zeros (n : Nat) : Source := ⟨List.replicate n 0, List.replicate n 0, true⟩

/-! ### Well-formedness: an ill-formed term for each check -/

theorem test_defects :
    (Instr.program 0 0).defect = some .emptyChunk ∧
    (Instr.verify 0 61).defect = some .chunkOverSixty ∧
    (Instr.verify 16381 1).defect = some .offsetTooHigh ∧
    (Instr.ackFail 0 7).defect = some .statusZero ∧
    (Instr.program 1 60).rangeDefect 61 = some .offsetNotChunkStart ∧
    (Instr.verify 60 2).rangeDefect 61 = some .chunkPastImage := by decide

theorem test_wellFormed_bounds :
    (Instr.program 0 1).WellFormed ∧ (Instr.verify 0 60).WellFormed ∧ (Instr.program 16380 4).WellFormed ∧
    (Instr.verify 16 3).WellFormed ∧ (Instr.program 16380 60).WellFormed ∧ (Instr.program 60 1).InSession 61 ∧
    (Instr.ackFail 255 255).WellFormed ∧ Instr.erase.WellFormed ∧ Instr.endCmd.WellFormed ∧
    (Instr.ackOk 255).WellFormed := by decide

/-! ### Decoding, from the patterns of R67 written out bit by bit -/

theorem test_decode_erase :
    decodeTableWord 48 0b010101111010101110000001000001000000000000000000 = some .erase := by decide

/-- Section 2.2, chunk 5: `off = 300`, arguments `2C 01`; 60 bytes. -/
theorem test_decode_program :
    decodeTableWord 48 0b010101111010101110000000001111000010110000000001 = some (.program 300 60) := by decide

/-- Section 2.2, chunk 273: `off = 16380`, arguments `FC 3F`; 4 bytes. -/
theorem test_decode_verify :
    decodeTableWord 48 0b010101111010101110000010000001001111110000111111 = some (.verify 16380 4) := by decide

theorem test_decode_end :
    decodeTableWord 48 0b010101111010101110000011000000000000000000000000 = some .endCmd := by decide

theorem test_decode_acks :
    decodeTableWord 16 0b0000000010100101 = some (.ackOk 0xA5) ∧
    decodeTableWord 16 0b0000010100000000 = some (.ackFail 5 0) := by decide

theorem test_decode_refuses :
    decodeError (decode .sent [0x57, 0xAA, 0x80, 1, 0, 0]) = some .badSync ∧
    decodeError (decode .sent [0x57, 0xAB, 0x84, 1, 0, 0]) = some (.unknownCommand 0x84) ∧
    decodeError (decode .sent [0x57, 0xAB, 0x81, 0, 1, 0]) = some .argsNotZero ∧
    decodeError (decode .sent [0x57, 0xAB, 0x80, 0, 0, 0]) = some (.illFormed .emptyChunk) ∧
    decodeError (decode .sent [0x57, 0xAB, 0x80, 1, 0]) = some .truncated ∧
    decodeError (decode .received [0]) = some .truncated := by decide

/-- F20, F21 and F24 are frames a reader accepts, and F20 with another checksum is not. -/
theorem test_decodeFrame :
    decoded (decodeFrame [0x57, 0xAB, 0x80, 1, 0, 0, 0x00, 0x81]) = some (.program 0 1, [0x00], []) ∧
    decoded (decodeFrame [0x57, 0xAB, 0x80, 1, 0, 0, 0x7F, 0x00]) = some (.program 0 1, [0x7F], []) ∧
    decoded (decodeFrame [0x57, 0xAB, 0x82, 3, 0x10, 0, 0xDE, 0xAD, 0xBE, 0xDE]) =
      some (.verify 16 3, [0xDE, 0xAD, 0xBE], []) ∧
    decodeError (decodeFrame [0x57, 0xAB, 0x80, 1, 0, 0, 0x00, 0x82]) = some .badChecksum := by decide

/-! ### Frame Builder -/

/-- F3, F4 and F11: an append wraps the accumulator, and the 60th payload byte is admitted. -/
theorem test_append :
    after (fbAppend 0x3C (opened 6 0xF8)) (fun t => (t.acc, t.flen)) = some (0x34, 7) ∧
    after (fbAppend 0x01 (opened 10 0xFF)) (fun t => (t.acc, t.flen)) = some (0x00, 11) ∧
    after (fbAppend 0x7E (opened 65 0)) (fun t => (readByte .fbuf 65 t, t.flen)) = some (some 0x7E, 66) := by decide

/-- F6 and F12: finalising writes the accumulator and does not clear it. -/
theorem test_finalize :
    after (fbFinalize (opened 6 0x81)) (fun t => (readByte .fbuf 6 t, t.flen, t.acc, t.fbst)) =
      some (some 0x81, 7, 0x81, .idle) ∧
    after (fbFinalize (opened 66 0x42)) (fun t => (readByte .fbuf 66 t, t.flen)) = some (some 0x42, 67) := by decide

/-- F7 to F10: the refused orders. -/
theorem test_refused_orders :
    refusal (fbHeader 0x80 1 0 0 (opened 6 0)) = some .headerOnOpenFrame ∧
    refusal (fbAppend 0 State.reset) = some .appendWithoutHeader ∧
    refusal (fbFinalize State.reset) = some .finalizeWithoutHeader ∧
    refusal (fbAppend 0 (opened 66 0)) = some .payloadFull := by decide

/-- F23, F24 and F26: whole frames, the accumulator clear after each. -/
theorem test_frames :
    after (fbFrame 0x80 0x02 0xFF 0x3F [0xFF, 0xFF] State.reset) (fun t => (t.fbuf.map Prod.snd, t.acc)) =
      some ([0x57, 0xAB, 0x80, 0x02, 0xFF, 0x3F, 0xFF, 0xFF, 0xBE], 0) ∧
    after (fbFrame 0x82 0x03 0x10 0x00 [0xDE, 0xAD, 0xBE] State.reset) (fun t => (t.fbuf.map Prod.snd, t.flen)) =
      some ([0x57, 0xAB, 0x82, 0x03, 0x10, 0x00, 0xDE, 0xAD, 0xBE, 0xDE], 10) ∧
    after (fbFrame 0x80 0 0 0 [] State.reset) (fun t => t.fbuf.map Prod.snd) =
      some [0x57, 0xAB, 0x80, 0, 0, 0, 0x80] := by decide

/-- The contamination vector of section 2.1: the second frame ends in `06`. -/
theorem test_contamination :
    after (andThen (fbFrame 0x80 0x02 0 0 [1, 2] { State.reset with acc := 0x81 }) .next)
      (fun t => readByte .fbuf 8 t) = some (some 0x06) := by decide

/-! ### Instructions -/

/-- Program P3, call 5: `PROGRAM 60, 1` of byte `FF` is `57 AB 80 01 3C 00 FF BC`. -/
theorem test_program_frame :
    after (exec (.program 60 1) (building .writingFirmware 60 61))
      (fun t => (t.fbuf.map Prod.snd, t.flen, t.chunk, t.rstep)) =
      some ([0x57, 0xAB, 0x80, 0x01, 0x3C, 0x00, 0xFF, 0xBC], 8, 1, .send) := by decide

/-- The payload is read from the image, and outside it the read is refused (20_memory.md R41). -/
theorem test_program_past_image :
    refusal (exec (.program 60 2) (building .writingFirmware 60 61)) = some (.outOfRange .img 60 2) := by decide

/-- Section 2.4: the Verify frame is the Program frame with `82` and a checksum 2 greater. -/
theorem test_verify_frame :
    after (exec (.verify 60 1) (building .verifyingFirmware 60 61)) (fun t => (t.fbuf.map Prod.snd, t.callid)) =
      some ([0x57, 0xAB, 0x82, 0x01, 0x3C, 0x00, 0xFF, 0xBE], 1) := by decide

theorem test_verify_out_of_phase :
    refusal (exec (.verify 60 1) (building .writingFirmware 60 61)) = some .outOfPhase := by decide

/-- F27: the fixed bytes of the Erase frame, for any `ERASE_LEN`. -/
theorem test_erase_frame :
    after (exec .erase (building .erasing 0 61))
      (fun t => (readByte .fbuf 2 t, readByte .fbuf 4 t, t.flen, t.tgst)) =
      some (some 0x81, some 0, 7, .writing) := by decide

/-- F28: the fixed bytes of the End frame, for any `END_LEN`. -/
theorem test_end_frame :
    after (exec .endCmd (building .ending 61 61))
      (fun t => (readByte .fbuf 2 t, readByte .fbuf 5 t, t.flen, t.acc)) = some (some 0x83, some 0, 7, 0) := by decide

/-- T11: the reserved byte is ignored; the Erase round goes on to the write pass (R122). -/
theorem test_ack_ok :
    after (exec (.ackOk 0xA5) (reading .erasing [])) (fun t => (t.phase, t.offset, t.rxn, t.tgst)) =
      some (.writingFirmware, 0, 2, .idle) := by decide

/-- Q10. -/
theorem test_ack_fail :
    after (exec (.ackFail 2 0) (reading .erasing [])) (fun t => (t.phase, t.errkind, t.errphase, t.errstatus)) =
      some (.failed, .deviceRejected, .erase, 2) := by decide

/-! ### One step -/

/-- As Q1, with an image of 3 bytes; and the stops on a closed handle (43_sequencer.md R121) and on an open frame (R120). -/
theorem test_seqStart :
    after (step { ready with inbox := [.seqStart (zeros 3)] }) (fun t => (t.phase, t.ilen, t.errkind)) =
      some (.erasing, 3, .none) ∧
    refusal (step { ready with handleOpen := false, inbox := [.seqStart (zeros 3)] }) = some .transportClosed ∧
    refusal (step { ready with fbst := .opened, inbox := [.seqStart (zeros 3)] }) = some .bareFrameOpen := by decide

/-- Q5 to Q7: the loop test sends a chunk, ends the write pass, ends the verify pass. -/
theorem test_loop :
    after (step (building .writingFirmware 60 61)) (fun t => (t.phase, t.chunk, t.rstep)) =
      some (.writingFirmware, 1, .send) ∧
    after (step (building .writingFirmware 61 61)) (fun t => (t.phase, t.offset, t.rstep, t.callid)) =
      some (.verifyingFirmware, 0, .build, 0) ∧
    after (step (building .verifyingFirmware 61 61)) (fun t => (t.phase, readByte .fbuf 2 t, t.rstep)) =
      some (.ending, some 0x83, .send) := by decide

/-- T2, T4 and Q8: a short write, an error report that hides a full count, and the completed End frame. -/
theorem test_write_completions :
    after (step (sending .erasing [.wdone 1 6 false])) (fun t => (t.errkind, t.wire)) =
      some (.shortWrite, [1, 2, 3, 4, 5, 6]) ∧
    after (step (sending .erasing [.wdone 1 7 true])) (fun t => (t.errkind, t.errphase)) =
      some (.transportError, .erase) ∧
    after (step (sending .ending [.wdone 1 7 false])) (fun t => (t.phase, t.callid)) = some (.complete, 1) := by decide

/-- Q9: the write of the End frame expires. -/
theorem test_expiry :
    after (step (sending .ending [.expire])) (fun t => (t.errkind, t.errphase, t.stragglers)) =
      some (.transportTimeout, .ending, [1]) := by decide

/-- T15, T17, T19 and T14: short return, closed stream, error over both bytes, and a clean end beside both bytes. -/
theorem test_read_completions :
    after (step (reading .erasing [.rdone 2 [0] false false])) (fun t => (t.errkind, t.rxn)) =
      some (.malformedAcknowledgment, 1) ∧
    after (step (reading .erasing [.rdone 2 [0] true false])) State.errkind = some .transportError ∧
    after (step (reading .erasing [.rdone 2 [0, 0] false true])) State.errkind = some .transportError ∧
    after (step (reading .erasing [.rdone 2 [0, 0] true false])) State.phase = some .writingFirmware := by decide

/-- Program P4's end: the abandoned read completes late and no register changes. -/
theorem test_late :
    after (takeEvent (.late 2) { State.reset with phase := .failed, callid := 2, stragglers := [2], calls := [⟨2, []⟩] })
      (fun t => (t.stragglers, t.calls, t.rxn, t.phase)) = some ([], [], 0, .failed) := by decide

/-- A placed word is the first instruction after reset. -/
theorem test_withFetchWord :
    fetch (State.reset.withFetchWord 48 0x57AB80283C00) = some (.program 60 40) ∧
    fetch (State.reset.withFetchWord 48 0x57AB8204FC3F) = some (.verify 16380 4) ∧
    fetch (State.reset.withFetchWord 16 0x0500) = some (.ackFail 5 0) := by decide

/-! ### Witnesses: states and operands that meet the hypotheses of the statements -/

/-- A session in the erase phase over the empty image, about to send. -/
def erasing0 : State := { State.reset with phase := .erasing }

theorem witness_DecodeInvertsEncode :
    (Instr.program 0 1).WellFormed ∧ (Instr.verify 16380 4).WellFormed ∧ (Instr.ackFail 1 0).WellFormed ∧
    Instr.erase.WellFormed ∧ Instr.endCmd.WellFormed ∧ (Instr.ackOk 0).WellFormed := by decide

theorem witness_FrameReaderInvertsFrame :
    (Instr.program 60 2).WellFormed ∧ (Instr.program 60 2).direction = .sent ∧
    ([0xAA, 0x55] : List Byte).length = payloadLength (.program 60 2) ∧
    Instr.erase.WellFormed ∧ Instr.erase.direction = .sent ∧ ([] : List Byte).length = payloadLength .erase := by decide

theorem witness_DecodedBytesAreCanonical :
    decoded (decode .sent [0x57, 0xAB, 0x80, 1, 0, 0, 9]) = some (.program 0 1, [9]) ∧
    decoded (decode .sent [0x57, 0xAB, 0x81, 5, 0, 0]) = some (.erase, []) ∧
    decoded (decode .sent [0x57, 0xAB, 0x83, 5, 0, 0]) = some (.endCmd, []) ∧
    decoded (decode .received [0, 1]) = some (.ackOk 1, []) := by decide

theorem witness_AddressIsLittleEndianOffset :
    fetch (building .writingFirmware 60 61) = some (.program 60 1) ∧
    fetch (building .verifyingFirmware 60 61) = some (.verify 60 1) := by decide

/-- The mutation of section 2.1 on F29: `AA` to `AB`. -/
theorem witness_OneChangedByteChangesChecksum :
    ∃ xs ys : List Byte, xs.length = ys.length ∧ (∀ j, j ≠ 4 → xs[j]? = ys[j]?) ∧ xs[4]? ≠ ys[4]? := by
  refine ⟨[0x80, 0x02, 0x3C, 0, 0xAA, 0x55], [0x80, 0x02, 0x3C, 0, 0xAB, 0x55], rfl, ?_, by decide⟩
  intro j h
  match j with
  | 0 | 1 | 2 | 3 | 5 => rfl
  | 4 => exact absurd rfl h
  | _ + 6 => rfl

theorem witness_FrameBuilderBuildsFrame :
    State.reset.fbst = .idle ∧ State.reset.acc = 0 ∧ (List.replicate 60 (0xFF : Byte)).length ≤ 60 := by decide

theorem witness_ChecksumIsAccumulator :
    (opened 0 0x81).acc ≠ 0 ∧ { opened 0 0x81 with fbst := .idle }.fbst = .idle ∧ ([1, 2] : List Byte).length ≤ 60 := by decide

theorem witness_UnclearedAccumulatorContaminates :
    State.reset.fbst = .idle ∧ State.reset.acc = 0 ∧ ([] : List Byte).length ≤ 60 ∧
    sumBytes ([0x81, 0, 0, 0] ++ []) ≠ 0 ∧ sumBytes ([0x80, 0x80, 0, 0] ++ []) = 0 := by decide

theorem witness_AppendAddsOneByte :
    (opened 6 0).fbst = .opened ∧ (opened 6 0).flen.toNat ≤ 65 ∧ (opened 65 0).fbst = .opened ∧
    (opened 65 0).flen.toNat ≤ 65 := by decide

theorem witness_BuilderOrdersRefused :
    (opened 66 0).fbst = .opened ∧ (opened 66 0).flen = 66 ∧ State.reset.fbst = .idle ∧ busy erasing0.phase = true := by
  decide

theorem witness_EraseIssuesFrame :
    erasing0.phase = .erasing ∧ erasing0.rstep = .build ∧ erasing0.fbst = .idle ∧ erasing0.tgst = .idle ∧
    erasing0.acc = 0 := by decide

theorem witness_ProgramIssuesFrame :
    let s := building .writingFirmware 60 61
    s.phase = .writingFirmware ∧ s.rstep = .build ∧ s.fbst = .idle ∧ s.tgst = .idle ∧ s.acc = 0 ∧
    (1 : Byte).toNat ≤ 60 ∧ (60 : BitVec 16).toNat + (1 : Byte).toNat ≤ s.ilen.toNat ∧
    Memory.readBytes s.img 60 1 = some [0xFF] := by decide

theorem witness_VerifyIssuesFrame :
    let s := building .verifyingFirmware 60 61
    s.phase = .verifyingFirmware ∧ s.rstep = .build ∧ s.fbst = .idle ∧ s.tgst = .idle ∧ s.acc = 0 ∧
    (1 : Byte).toNat ≤ 60 ∧ (60 : BitVec 16).toNat + (1 : Byte).toNat ≤ s.ilen.toNat ∧
    Memory.readBytes s.img 60 1 = some [0xFF] := by decide

theorem witness_EndIssuesFrame :
    let s := building .ending 61 61
    s.phase = .ending ∧ s.rstep = .build ∧ s.fbst = .idle ∧ s.tgst = .idle ∧ s.acc = 0 := by decide

/-- One state per clause of the success, and for the rejection and the two reads of the step. -/
theorem witness_AckStatements :
    ∀ p ∈ [Phase.erasing, .writingFirmware, .verifyingFirmware],
      (reading p []).tgst = .reading ∧ (reading p []).rstep = .recv ∧ awaitsAck (reading p []).phase = true ∧
      (reading p []).timer = 0 ∧ (1 : Byte) ≠ 0 := by decide

theorem witness_ReservedByteHasNoEffect :
    after (exec (ackInstr 0 1) (reading .erasing [])) State.phase = some .writingFirmware ∧
    after (exec (ackInstr 3 1) (reading .erasing [])) State.phase = some .failed := by decide

theorem witness_InstructionsStopOutOfPlace :
    State.reset.phase ≠ .erasing ∧ State.reset.phase ≠ .writingFirmware ∧ State.reset.phase ≠ .verifyingFirmware ∧
    State.reset.phase ≠ .ending ∧ State.reset.tgst ≠ .reading ∧
    (sending .erasing []).phase = .erasing ∧ (sending .erasing []).rstep ≠ .build ∧
    { erasing0 with fbst := .opened }.fbst = .opened ∧
    (building .writingFirmware 60 61).ilen.toNat < (60 : BitVec 16).toNat + (2 : Byte).toNat ∧
    (building .verifyingFirmware 60 61).phase = .verifyingFirmware ∧ (building .verifyingFirmware 60 61).rstep = .build ∧
    60 < (61 : Byte).toNat := by decide

theorem witness_CommandFrame :
    ∃ t, exec .erase erasing0 = .next t ∧ Instr.erase.direction = .sent := ⟨_, rfl, rfl⟩

theorem witness_CommandFrame_stored :
    after (exec (.program 60 1) (building .writingFirmware 60 61)) State.phase = some .writingFirmware ∧
    (Instr.program 60 1).direction = .sent := by decide

theorem witness_AckFrame :
    after (exec (.ackOk 1) (reading .erasing [])) State.phase = some .writingFirmware ∧
    (Instr.ackOk 1).direction = .received ∧ (Instr.ackOk 1).WellFormed ∧
    after (exec (.ackFail 9 1) (reading .erasing [])) State.phase = some .failed ∧
    (Instr.ackFail 9 1).direction = .received ∧ (Instr.ackFail 9 1).WellFormed := by decide

theorem witness_StepRunsFetchedInstruction :
    fetch erasing0 = some .erase ∧
    (reading .erasing [.rdone 2 [0, 7] false false]).rstep = .recv ∧
    (reading .erasing [.rdone 2 [0, 7] false false]).tgst = .reading ∧
    decoded (decode .received [0, 7]) = some (.ackOk 7, []) := by decide

theorem witness_PlacedWordIsFetched : decodeTableWord 48 0x57AB82010000 = some (.verify 0 1) := by decide

theorem witness_FetchedIsWellFormed :
    PassInRange (building .writingFirmware 60 61) ∧
    fetch (building .writingFirmware 60 61) = some (.program 60 1) := by
  refine ⟨⟨by decide, by decide, .inl (by decide), fun _ h => absurd rfl h⟩, by decide⟩

theorem witness_OnlyFourCodesAreSent :
    ∃ t, step erasing0 = .next t ∧ erasing0.tgst ≠ .writing ∧ t.tgst = .writing := ⟨_, rfl, by decide, rfl⟩

theorem length_zeros (n : Nat) : (zeros n).bytes.length = n := List.length_replicate

theorem seqStart_ready (n : Nat) : seqStart (zeros n) ready = .next (startOn (zeros n).bytes ready) := by
  simp [seqStart, ready, zeros, State.reset, busy]

/-- Both clauses, at the capacity and one byte past it. -/
theorem witness_StartChecksTrueLength :
    busy ready.phase = false ∧ ready.fbst = .idle ∧ ready.handleOpen = true ∧ ready.stragglers = [] ∧ ready.calls = [] ∧
    (zeros 16384).readable = true ∧ (zeros 16384).again = (zeros 16384).bytes ∧
    (zeros 16384).bytes.length ≤ 16384 ∧ 16384 < (zeros 16385).bytes.length := by
  refine ⟨rfl, rfl, rfl, rfl, rfl, rfl, rfl, ?_, ?_⟩ <;> rw [length_zeros] <;> omega

theorem witness_OversizedImageTouchesNothing :
    (∃ t, seqStart (zeros 16385) ready = .next t ∧ t.errkind = .oversizedImage) ∧
    (∃ t, step erasing0 = .next t ∧ busy erasing0.phase = true ∧ erasing0.errkind ≠ .oversizedImage) := by
  refine ⟨⟨startOn (zeros 16385).bytes ready, seqStart_ready _, ?_⟩, ⟨_, rfl, by decide, by decide⟩⟩
  rw [startOn, if_pos (by rw [length_zeros]; decide)]
  rfl

/-- Each clause: a running session, an open frame, a closed handle, a straggler, a forgotten call, and the three kinds of
source. -/
theorem witness_StartRefusedOnFalsePremise :
    busy erasing0.phase = true ∧
    (busy (opened 6 0).phase = false ∧ (opened 6 0).fbst = .opened) ∧
    (busy State.reset.phase = false ∧ State.reset.fbst = .idle ∧ State.reset.handleOpen = false) ∧
    (busy ready.phase = false ∧ ready.fbst = .idle ∧ ready.handleOpen = true) ∧
    { ready with stragglers := [2] }.stragglers ≠ [] ∧ { ready with calls := [⟨2, []⟩] }.calls ≠ [] ∧
    ready.stragglers = [] ∧ ready.calls = [] ∧
    (⟨[0], [0], false⟩ : Source).readable = false ∧ (⟨[0], [1], true⟩ : Source).readable = true ∧
    (⟨[0], [1], true⟩ : Source).again ≠ [0] ∧ (zeros 1).readable = true ∧ (zeros 1).again = (zeros 1).bytes := by decide

/-- Each clause: an error report, a short count, a full count. -/
theorem witness_WriteCompletionReactions :
    ∀ n ∈ [0, 6, 7], ∀ err ∈ [true, false],
      let s := sending .erasing [.wdone 1 n err]
      s.tgst = .writing ∧ s.rstep = .send ∧ busy s.phase = true ∧ s.inbox = .wdone s.callid n err :: [] ∧
      n ≤ s.txlen.toNat ∧ s.phase ≠ .ending := by decide

theorem witness_EndWriteCompletesSession :
    let s := sending .ending [.wdone 1 7 false]
    s.phase = .ending ∧ s.tgst = .writing ∧ s.rstep = .send ∧ s.inbox = .wdone s.callid s.txlen.toNat false :: [] := by
  decide

theorem witness_EndWriteCompletesSession_after :
    ∃ t, { State.reset with phase := .complete }.phase = .complete ∧
      step { State.reset with phase := .complete } = .next t := ⟨_, rfl, rfl⟩

/-- Each clause: no byte, one byte, two bytes of both kinds. -/
theorem witness_ReadCompletionReactions :
    ∀ bytes ∈ ([[], [0], [0, 0], [1, 0]] : List (List Byte)), ∀ eof ∈ [true, false], ∀ err ∈ [true, false],
      let s := reading .erasing [.rdone 2 bytes eof err]
      s.tgst = .reading ∧ s.rstep = .recv ∧ awaitsAck s.phase = true ∧
      s.inbox = .rdone s.callid bytes eof err :: [] ∧ bytes.length ≤ 2 := by decide

theorem witness_MalformedAckIsNotReadAgain :
    let s := reading .erasing [.rdone 2 [0] false false]
    s.tgst = .reading ∧ s.rstep = .recv ∧ awaitsAck s.phase = true ∧
    s.inbox = .rdone s.callid [0] false false :: [] ∧ ([0] : List Byte).length < 2 := by decide

/-- For the expiry and for the timeout with nothing queued. -/
theorem witness_Timeouts :
    (GuardMatchesRound (sending .ending [.expire]) ∧ (sending .ending [.expire]).tgst ≠ .idle ∧
      (sending .ending [.expire]).timer = 0 ∧ (sending .ending [.expire]).inbox = .expire :: []) ∧
    (GuardMatchesRound (reading .erasing []) ∧ (reading .erasing []).tgst ≠ .idle ∧ (reading .erasing []).inbox = []) := by
  refine ⟨⟨?_, by decide, rfl, rfl⟩, ?_, by decide, rfl⟩ <;> unfold GuardMatchesRound <;> decide

/-- A read and a write whose time is over, for each answer of the read and each count of the write. -/
theorem witness_TieAdmitsBothOrders :
    (∀ bytes ∈ ([[], [0], [0, 0], [1, 0]] : List (List Byte)),
      let s := reading .erasing []
      s.tgst = .reading ∧ s.rstep = .recv ∧ awaitsAck s.phase = true ∧ s.timer = 0 ∧ bytes.length ≤ 2) ∧
    ∀ p ∈ [Phase.erasing, .ending], ∀ n ∈ [0, 6, 7],
      let s := sending p []
      s.tgst = .writing ∧ s.rstep = .send ∧ busy s.phase = true ∧ s.timer = 0 ∧ n ≤ s.txlen.toNat := by decide

theorem witness_LateCompletionIsInvisible :
    let s := { State.reset with callid := 2, stragglers := [2], calls := [⟨2, []⟩] }
    2 ∈ s.stragglers ∧ s.tgst = .idle := by decide

theorem witness_ImpossibleEventsRefused :
    (sending .erasing []).tgst = .writing ∧ (sending .erasing []).txlen.toNat < 8 ∧
    (reading .erasing []).tgst = .reading ∧ 2 < ([0, 0, 0] : List Byte).length ∧
    0 < { sending .erasing [] with timer := 1 }.timer ∧
    State.reset.tgst = .idle ∧ 5 ∉ State.reset.stragglers ∧ ∀ c ∈ State.reset.calls, c.tag ≠ 5 := by decide

theorem witness_TickCountsDown : State.reset.tgst = .idle ∧ (sending .erasing []).tgst ≠ .idle := by decide

/-- The last round of a write pass over 61 bytes. -/
theorem witness_RoundOfPass :
    let s := { building .writingFirmware 60 61 with inbox := chunkAnswers 0 8 0 }
    s.phase = .writingFirmware ∧ s.rstep = .build ∧ s.tgst = .idle ∧ s.fbst = .idle ∧ s.acc = 0 ∧ s.calls = [] ∧
    s.offset.toNat < s.ilen.toNat ∧ Memory.readBytes s.img s.offset.toNat (nextChunk s) = some [0xFF] ∧
    s.inbox = chunkAnswers s.callid (7 + nextChunk s) 0 ++ [] := by decide

/-- A verify pass over an image of 3 bytes. -/
theorem witness_PassSendsWholeImage :
    let image : List Byte := [1, 2, 3]
    let s := { building .verifyingFirmware 0 3 with img := Memory.ofBytes 0 image, inbox := passAnswers image 0 }
    image.length ≤ 16384 ∧ s.phase = .verifyingFirmware ∧ s.rstep = .build ∧ s.tgst = .idle ∧ s.fbst = .idle ∧
    s.acc = 0 ∧ s.calls = [] ∧ s.offset = 0 ∧ s.ilen.toNat = image.length ∧ s.img = Memory.ofBytes 0 image ∧
    s.inbox = passAnswers image s.callid ++ [] := by decide

theorem witness_EmptyImageSendsNoChunk :
    let s := { State.reset with phase := .writingFirmware }
    s.phase = .writingFirmware ∧ s.rstep = .build ∧ s.tgst = .idle ∧ s.fbst = .idle ∧ s.acc = 0 ∧ s.ilen = 0 := by decide

/-- For the statements about every step. -/
theorem witness_step : ∃ t, step erasing0 = .next t := ⟨_, rfl⟩

theorem witness_FailedIsAbsorbing :
    ∃ t, { State.reset with phase := .failed }.phase = .failed ∧ step { State.reset with phase := .failed } = .next t :=
  ⟨_, rfl, rfl⟩

theorem witness_SessionEndsAtRest :
    let s := sending .ending [.wdone 1 7 false]
    GuardMatchesRound s ∧ BuilderAtRest s ∧ busy s.phase = true ∧ (∀ rest, s.inbox ≠ .reset :: rest) ∧
    ∃ t, step s = .next t ∧ busy t.phase = false := by
  refine ⟨by unfold GuardMatchesRound; decide, by unfold BuilderAtRest; decide, rfl, nofun, _, rfl, rfl⟩

/-- The other way a session ends: a start on an image one byte too long. That the Sequencer's own steps go on is
`witness_invariants`. -/
theorem witness_SessionEndsAtRest_oversized :
    let s := { ready with inbox := [.seqStart (zeros 16385)] }
    GuardMatchesRound s ∧ BuilderAtRest s ∧ (∃ src rest, s.inbox = .seqStart src :: rest) ∧
    (∀ rest, s.inbox ≠ .reset :: rest) ∧ ∃ t, step s = .next t ∧ busy t.phase = false := by
  have taken : ∀ src, step { ready with inbox := [.seqStart src] } = seqStart src ready := fun _ => rfl
  refine ⟨by unfold GuardMatchesRound; decide, by unfold BuilderAtRest; decide, ⟨_, _, rfl⟩, nofun,
    startOn (zeros 16385).bytes ready, (taken _).trans (seqStart_ready _), ?_⟩
  rw [startOn, if_pos (by rw [length_zeros]; decide)]
  rfl

/-- Each disjunct: a step that keeps `CALLID`, and two that issue a call. -/
theorem witness_OneFreshTagPerCall :
    after (step (reading .erasing [.tick])) (fun t => (t.callid, t.calls.map Call.tag)) = some (2, [2]) ∧
    after (step erasing0) (fun t => (t.callid, t.calls.map Call.tag)) = some (1, [1]) ∧
    after (step (sending .erasing [.wdone 1 7 false])) (fun t => (t.callid, t.calls.map Call.tag)) = some (2, [2]) := by
  decide

/-- The image of a session: a step that is neither a start nor a reset. -/
theorem witness_ImageIsReadOnly :
    (∃ t, step erasing0 = .next t) ∧ (∀ src rest, erasing0.inbox ≠ .seqStart src :: rest) ∧
    ∀ rest, erasing0.inbox ≠ .reset :: rest := ⟨⟨_, rfl⟩, nofun, nofun⟩

/-- A pending write, and the three phases with no session, each with a `RESULT` queued. -/
theorem witness_ResultReadsWithoutEffect :
    ((sending .erasing [.result]).rstep ≠ .build ∧ (sending .erasing [.result]).inbox = .result :: []) ∧
    ∀ p ∈ [Phase.idle, .complete, .failed],
      busy p = false ∧ after (step { ready with phase := p, inbox := [.result] }) (fun t => t.results.map Result.phase) =
        some [p] := by decide

/-- A running session over the empty image meets every invariant, and steps. -/
theorem witness_invariants :
    MemoryCanonical erasing0 ∧ BuffersInRange erasing0 ∧ CountsInRange erasing0 ∧ PassInRange erasing0 ∧
    GuardMatchesRound erasing0 ∧ ErrorsRecorded erasing0 ∧ BuilderAtRest erasing0 ∧ SessionOwnsCall erasing0 ∧
    StragglersIssued erasing0 ∧ ImageLoaded erasing0 ∧ ∃ t, step erasing0 = .next t := by
  refine ⟨⟨.nil, .nil, .nil⟩, ⟨fun _ _ => rfl, fun _ _ => rfl⟩, ⟨by decide, by decide, by decide, by decide,
    Nat.zero_le _, nofun⟩, ⟨by decide, by decide, .inl rfl, fun _ h => absurd rfl h⟩, ?_, ?_, ?_, ?_, ?_, ?_, _, rfl⟩
  · unfold GuardMatchesRound
    decide
  · unfold ErrorsRecorded
    decide
  · unfold BuilderAtRest
    decide
  · exact fun _ => ⟨rfl, fun _ => rfl, nofun, nofun⟩
  · exact ⟨.nil, nofun⟩
  · exact fun a => ⟨nofun, fun h => absurd h (Nat.not_lt_zero a)⟩

/-- A session that waits for the acknowledgment of its Erase frame meets the invariants of a call, and steps. -/
theorem witness_invariants_waiting :
    let s := reading .erasing [.rdone 2 [0, 0] false false]
    GuardMatchesRound s ∧ ErrorsRecorded s ∧ BuilderAtRest s ∧ SessionOwnsCall s ∧ StragglersIssued s ∧
    ∃ t, step s = .next t ∧ t.phase = .writingFirmware := by
  refine ⟨?_, ?_, ?_, fun _ => ⟨rfl, nofun, fun _ => rfl, nofun⟩, ⟨.nil, nofun⟩, _, rfl, rfl⟩
  · unfold GuardMatchesRound
    decide
  · unfold ErrorsRecorded
    decide
  · unfold BuilderAtRest
    decide

end Sys2Proof.Tests
end

section
/-! SUPPORT. Which steps issue a write, and the command byte of the frame they send (00_scope.md R3): no completion and no
event makes a write pending, so a newly pending write is a send of one of the four commands. -/

namespace Sys2Proof.Machine

/-! ### The sent frame -/

/-- Inside the frame just sent, the buffer holds the frame's bytes. -/
theorem readByte_fbuf_afterSend {frame : List Byte} {i : Nat} (s : State) (h : i < frame.length) :
    readByte .fbuf i (afterSend frame s) = frame[i]? := by
  have hr := Memory.read_writeBytes_inside s.fbuf 0 i frame h
  rwa [Nat.zero_add] at hr

/-- Byte 2 of a frame is its command code (30_encoding.md R60). -/
theorem frameFrom_commandByte (a0 cmd len a1 a2 : Byte) (payload : List Byte) :
    (frameFrom a0 cmd len a1 a2 payload)[2]? = some cmd := rfl

/-- A sent frame shows its command code in the buffer and in the write call's own copy. -/
theorem afterSend_commandByte (a0 cmd len a1 a2 : Byte) (payload : List Byte) (s : State) :
    let t := afterSend (frameFrom a0 cmd len a1 a2 payload) s
    readByte .fbuf 2 t = some cmd ∧ ∃ call ∈ t.calls, call.tag = t.callid ∧ call.bytes[2]? = some cmd := by
  refine ⟨?_, ⟨s.callid + 1, frameFrom a0 cmd len a1 a2 payload⟩, List.mem_append_right _ (List.mem_singleton_self _),
    rfl, frameFrom_commandByte ..⟩
  rw [readByte_fbuf_afterSend s (by rw [length_frameFrom]; omega), frameFrom_commandByte]

/-! ### What makes no write pending -/

@[simp] theorem tgTick_tgst (s : State) : (tgTick s).tgst = s.tgst := by
  unfold tgTick
  split <;> rfl

@[simp] theorem startOn_tgst (bytes : List Byte) (s : State) : (startOn bytes s).tgst = s.tgst := by
  unfold startOn
  split <;> rfl

@[simp] theorem resetBlock_tgst (s : State) : (resetBlock s).tgst = .idle := rfl

/-- The reaction to an outcome issues a read or nothing: a write pending after it was pending before it. -/
theorem Delivered.writing_before {g : GuardState} {o : CallOutcome} {s t : State} (h : Delivered g o s t)
    (ht : t.tgst = .writing) : s.tgst = .writing := by
  cases h with
  | sent => cases ht
  | failed => exact ht
  | completed => exact ht
  | erased => exact ht
  | counted => exact ht

/-- An event issues no write: completions and the reset leave the guard with none, the rest leave it as it was. -/
theorem Taken.writing_before {e : Event} {s t : State} (h : Taken s e t) (ht : t.tgst = .writing) :
    s.tgst = .writing := by
  cases h with
  | expired _ _ _ hd => exact absurd (hd.writing_before ht) (by simp)
  | written _ _ _ hg => exact hg
  | received _ _ _ _ _ _ hd => exact absurd (hd.writing_before ht) (by simp)
  | restarted => cases ht
  | ticked => simpa using ht
  | started => simpa using ht
  | cleared => exact ht
  | headed => exact ht
  | appended => exact ht
  | finalized => exact ht
  | straggled => exact ht
  | forgotten => exact ht
  | answered => exact ht
  | opened => exact ht
  | closed => exact ht

/-! ### What makes one pending -/

/-- A step that issues a write sends a frame with one of the four command codes (43_sequencer.md R122, R124, R126, R127). -/
theorem Stepped.write_issued {s t : State} (h : Stepped s t) (hs : s.tgst ≠ .writing) (ht : t.tgst = .writing) :
    ∃ cmd ∈ [Config.cmdErase, Config.cmdProgram, Config.cmdVerify, Config.cmdEnd],
      ∃ len a1 a2 payload u, t = afterSend (frameFrom s.acc cmd len a1 a2 payload) u := by
  cases h with
  | erase => exact ⟨_, by simp, _, _, _, _, _, rfl⟩
  | chunk cmd _ hc =>
    refine ⟨cmd, ?_, _, _, _, _, _, rfl⟩
    rcases hc with ⟨_, rfl⟩ | ⟨_, rfl⟩ <;> simp
  | ending => exact ⟨_, by simp, _, _, _, _, _, rfl⟩
  | acked _ _ _ _ _ _ _ _ hd => exact absurd (hd.writing_before ht) (by simp)
  | event _ _ _ _ _ he => exact absurd (he.writing_before ht) hs
  | expired _ _ _ _ _ hd => exact absurd (hd.writing_before ht) (by simp)
  | verifying => exact absurd ht hs
  | ticked => exact absurd (by simpa using ht) hs
  | waited => exact absurd ht hs

/-- Settles O25: a newly pending write is a send of one of the four commands, and a sent frame shows its code. -/
theorem onlyFourCodesAreSent : Obligations.OnlyFourCodesAreSent := by
  refine ⟨rfl, rfl, rfl, rfl, fun s t hst hs ht => ?_⟩
  obtain ⟨cmd, hcmd, len, a1, a2, payload, u, rfl⟩ := (step_next hst).write_issued hs ht
  exact ⟨cmd, hcmd, afterSend_commandByte ..⟩

end Sys2Proof.Machine
end

section
/-! SUPPORT. The forms of a step: it sends a round's frame, goes over to the verify pass, takes the next event (the
Timer's own move with nothing queued counts as one), or waits. Before them, what the shared updates leave unchanged. -/

namespace Sys2Proof.Machine

/-! ### Shared updates -/

/-- A tick moves the timer alone, and does not lengthen it (41_transport_guard.md R93): what holds of each shorter timer
holds after it. -/
theorem tgTick_keeps {P : State → Prop} {s : State} (h : ∀ k ≤ s.timer, P { s with timer := k }) : P (tgTick s) := by
  unfold tgTick
  split
  · exact h _ (Nat.sub_le ..)
  · exact h _ (Nat.le_refl _)

/-- A completed write closes its call and touches the Transport's part alone beside (41_transport_guard.md R95): what
holds whatever that part is holds after it. -/
theorem endWrite_keeps {P : State → Prop} {n : Nat} {err : Bool} {s : State}
    (h : ∀ wire calls drawn, P { closeCall s with wire := wire, calls := calls, drawn := drawn }) :
    P (endWrite n err s) := by
  cases err with
  | false => exact h _ _ _
  | true => exact h _ _ _

/-- A start fails on an image over the capacity and latches any other (43_sequencer.md R120). -/
theorem startOn_keeps {P : State → Prop} {bytes : List Byte} {s : State}
    (hover : P (raise .oversizedImage 0 (discardImage (createSession s))))
    (hfits : bytes.length ≤ Config.capacity → P (beginErasing bytes (createSession s))) : P (startOn bytes s) := by
  unfold startOn
  split
  · exact hover
  · exact hfits (by omega)

/-! ### The forms of a step -/

/-- The state from which a round's frame is sent: `s` itself for Erase, with `CHUNK` set for a chunk, and in `Ending`
for End (43_sequencer.md R122, R124, R127). -/
inductive Readied (s : State) : State → Prop
  | erase (hp : s.phase = .erasing) : Readied s s
  | chunk (hp : inPass s) (hm : s.offset.toNat < s.ilen.toNat) :
      Readied s { s with chunk := chunkOf (nextChunkByte s) }
  | ending (hp : s.phase = .ending ∨ s.phase = .verifyingFirmware) : Readied s { s with phase := .ending }

/-- `e` is taken next and leaves `rest` queued: the head of the queue, or a move of the Timer with nothing queued (log 3). -/
def NextEvent (s : State) (e : Event) (rest : List Event) : Prop :=
  s.inbox = e :: rest ∨ (s.inbox = rest ∧ rest = [] ∧ (e = .tick ∨ e = .expire))

/-- A step in four forms, the completions and the Timer's moves among the events. -/
inductive StepForm (s : State) : State → Prop
  | sent (frame : List Byte) (u : State) (hu : Readied s u) (hr : s.rstep = .build) (hi : s.fbst = .idle)
      (hg : s.tgst = .idle) (hl : frame.length ≤ Config.frameCapacity) : StepForm s (afterSend frame u)
  | verifying (hp : s.phase = .writingFirmware) (hr : s.rstep = .build) : StepForm s (enterVerifying s)
  | taken (e : Event) (rest : List Event) (t : State) (hq : NextEvent s e rest)
      (ht : Taken { s with inbox := rest } e t) : StepForm s t
  | waited (hq : s.inbox = []) (hg : s.tgst = .idle) : StepForm s s

/-- Every step has one of the four forms. -/
theorem Stepped.form {s t : State} (h : Stepped s t) : StepForm s t := by
  cases h with
  | erase hp hr hi hg => exact .sent _ _ (.erase hp) hr hi hg (by simp [Config.frameCapacity])
  | chunk cmd payload hc hr hi hg hm hb =>
    have hlen := Memory.length_of_readBytes hb
    have h60 := nextChunk_le s
    refine .sent _ _ (.chunk (hc.imp And.left And.left) hm) hr hi hg ?_
    rw [length_frameFrom, Config.frameCapacity]
    omega
  | ending hp hr hi hg => exact .sent _ _ (.ending (hp.imp_right And.left)) hr hi hg (by simp [Config.frameCapacity])
  | acked status reserved eof rest t _ hg hq hd =>
    exact .taken _ rest t (.inl hq) (.received [status, reserved] eof false t hg (Nat.le_refl _) hd)
  | verifying hp hr => exact .verifying hp hr
  | event e rest t _ hq ht => exact .taken e rest t (.inl hq) ht
  | ticked _ hq => exact .taken .tick _ _ (.inr ⟨rfl, hq, .inl rfl⟩) .ticked
  | expired t _ hq hg hz hd => exact .taken .expire _ _ (.inr ⟨rfl, hq, .inr rfl⟩) (.expired t hg hz hd)
  | waited _ hq hg => exact .waited hq hg

/-- The way into every invariant: the form of a step that went on to a next state. -/
theorem step_form {s t : State} (h : step s = .next t) : StepForm s t := (step_next h).form

/-- An event that is not the Timer's was the head of the queue. -/
theorem NextEvent.queued {s : State} {e : Event} {rest : List Event} (h : NextEvent s e rest) (ht : e ≠ .tick)
    (he : e ≠ .expire) : s.inbox = e :: rest :=
  h.resolve_right fun ⟨_, _, hn⟩ => hn.elim ht he

end Sys2Proof.Machine
end

section
/-! SUPPORT. The byte spaces stay canonical and inside their sizes (10_state.md R16, R18; 20_memory.md R41). -/

namespace Sys2Proof.Machine

/-! ### One space -/

/-- A space in canonical form that holds no byte at or past `size`. -/
def Memory.Fits (size : Nat) (m : Memory) : Prop :=
  Memory.wf m ∧ ∀ a, size ≤ a → Memory.read m a = none

theorem Memory.fits_nil (size : Nat) : Memory.Fits size [] := ⟨.nil, fun _ _ => rfl⟩

/-- A block written below the size keeps a space inside it. -/
theorem Memory.Fits.writeBytes {size a : Nat} {m : Memory} {bs : List Byte} (h : Memory.Fits size m)
    (hl : a + bs.length ≤ size) : Memory.Fits size (Memory.writeBytes m a bs) := by
  refine ⟨Memory.wf_writeBytes h.1 a bs, fun i hi => ?_⟩
  rw [Memory.read_writeBytes_outside m a i bs (.inr (by omega)), h.2 i hi]

/-- A byte written below the size keeps a space inside it. -/
theorem Memory.Fits.write {size a : Nat} {m : Memory} (h : Memory.Fits size m) (ha : a < size) (b : Byte) :
    Memory.Fits size (Memory.write m a b) :=
  h.writeBytes (bs := [b]) ha

/-! ### The three spaces -/

/-- Both buffers fit their sizes, and the image is in canonical form. -/
def MemorySound (s : State) : Prop :=
  Memory.Fits Config.frameCapacity s.fbuf ∧ Memory.Fits Config.ackLen s.rxbuf ∧ Memory.wf s.img

theorem memorySound_iff {s : State} : MemorySound s ↔ MemoryCanonical s ∧ BuffersInRange s :=
  ⟨fun ⟨hf, hr, hi⟩ => ⟨⟨hf.1, hr.1, hi⟩, hf.2, hr.2⟩, fun ⟨⟨hf, hr, hi⟩, hfs, hrs⟩ => ⟨⟨hf, hfs⟩, ⟨hr, hrs⟩, hi⟩⟩

/-- The reaction to an outcome writes no byte of a space. -/
theorem Delivered.memorySound {g : GuardState} {o : CallOutcome} {s t : State} (h : Delivered g o s t)
    (hs : MemorySound s) : MemorySound t := by
  cases h <;> exact hs

/-- An event writes a frame byte below 67, a received byte below 2, or a whole image. -/
theorem Taken.memorySound {e : Event} {s t : State} (h : Taken s e t) (hs : MemorySound s) : MemorySound t := by
  obtain ⟨hf, hr, hi⟩ := id hs
  cases h with
  | headed cmd len a1 a2 => exact ⟨hf.writeBytes (by rw [length_headerBytes]; decide), hr, hi⟩
  | appended b _ _ hl => exact ⟨hf.write (by rw [Config.frameCapacity]; omega) b, hr, hi⟩
  | finalized _ _ hl => exact ⟨hf.write (by rw [Config.frameCapacity]; omega) s.acc, hr, hi⟩
  | ticked => exact tgTick_keeps fun _ _ => hs
  | expired _ _ _ hd => exact hd.memorySound hs
  | written _ _ _ _ _ hd => exact hd.memorySound (endWrite_keeps fun _ _ _ => hs)
  | received bytes _ _ _ _ hn hd =>
    exact hd.memorySound ⟨hf, hr.writeBytes (by rw [Config.ackLen]; omega), hi⟩
  | started src =>
    exact startOn_keeps ⟨hf, hr, .nil⟩ fun _ => ⟨hf, hr, Memory.wf_ofBytes 0 src.bytes⟩
  | restarted => exact ⟨Memory.fits_nil _, Memory.fits_nil _, .nil⟩
  | _ => exact hs

/-- A sent frame lies in the first 67 bytes of the frame buffer. -/
theorem memorySound_afterSend {frame : List Byte} {s : State} (hs : MemorySound s)
    (hl : frame.length ≤ Config.frameCapacity) : MemorySound (afterSend frame s) :=
  ⟨hs.1.writeBytes (by omega), hs.2⟩

/-- Settles O52: only a header, an append, a checksum, a sent frame and a received acknowledgment write a buffer, each
below its size, and every write keeps the canonical form. -/
theorem stepKeepsMemoryCanonical : Obligations.StepKeepsMemoryCanonical := by
  intro s t hc hb hst
  have hs : MemorySound s := memorySound_iff.2 ⟨hc, hb⟩
  refine memorySound_iff.1 ?_
  cases step_form hst with
  | sent _ _ hu _ _ _ hl => exact memorySound_afterSend (by cases hu <;> exact hs) hl
  | verifying => exact hs
  | taken _ _ _ _ ht => exact ht.memorySound hs
  | waited => exact hs

end Sys2Proof.Machine
end

section
/-! SUPPORT. The counters stay in their ranges (10_state.md R10, R16, R17), and `OFFSET` on the chunks of the image (R12
to R14; 43_sequencer.md R130). -/

namespace Sys2Proof.Machine

/-! ### Counters -/

/-- The reaction to an outcome writes no counter, but for the read it issues: nothing received, the full deadline. -/
theorem Delivered.countsInRange {g : GuardState} {o : CallOutcome} {s t : State} (h : Delivered g o s t)
    (hs : CountsInRange s) : CountsInRange t := by
  cases h with
  | sent =>
    obtain ⟨hflen, htxlen, _, hchunk, _, hopen⟩ := hs
    exact ⟨hflen, htxlen, by simp, hchunk, Nat.le_refl _, hopen⟩
  | _ => exact hs

/-- A block whose call is over keeps its counters in range: the timer is disarmed. -/
theorem CountsInRange.disarmed {s : State} (hs : CountsInRange s) : CountsInRange { s with timer := 0 } := by
  obtain ⟨hflen, htxlen, hrxn, hchunk, _, hopen⟩ := hs
  exact ⟨hflen, htxlen, hrxn, hchunk, Nat.zero_le _, hopen⟩

/-- An event moves `FLEN` up to the buffer's size, `RXN` up to 2, and the timer down. -/
theorem Taken.countsInRange {e : Event} {s t : State} (h : Taken s e t) (hs : CountsInRange s) : CountsInRange t := by
  obtain ⟨hflen, htxlen, hrxn, hchunk, htimer, hopen⟩ := id hs
  cases h with
  | headed =>
    have h6 : (6 : BitVec 7).toNat = 6 := rfl
    exact ⟨by rw [putHeader_flen, h6]; decide, htxlen, hrxn, hchunk, htimer, fun _ => by rw [putHeader_flen, h6]; omega⟩
  | appended b _ ho hl =>
    have hsucc : (putPayloadByte b s).flen.toNat = s.flen.toNat + 1 := toNat_flen_succ (by omega)
    have h6 := (hopen ho).1
    exact ⟨by rw [hsucc, Config.frameCapacity]; omega, htxlen, hrxn, hchunk, htimer, fun _ => by omega⟩
  | finalized _ _ hl =>
    have hsucc : (putChecksum s).flen.toNat = s.flen.toNat + 1 := toNat_flen_succ hl
    exact ⟨by rw [hsucc, Config.frameCapacity]; omega, htxlen, hrxn, hchunk, htimer, nofun⟩
  | ticked =>
    exact tgTick_keeps fun _ hle => ⟨hflen, htxlen, hrxn, hchunk, Nat.le_trans hle htimer, hopen⟩
  | expired _ _ _ hd => exact hd.countsInRange hs
  | written _ _ _ _ _ hd => exact hd.countsInRange (endWrite_keeps fun _ _ _ => hs.disarmed)
  | received bytes _ _ _ _ hn hd =>
    have hrxn' : (BitVec.ofNat 2 bytes.length).toNat ≤ Config.ackLen := by
      rw [BitVec.toNat_ofNat, Config.ackLen]
      omega
    exact hd.countsInRange ⟨hflen, htxlen, hrxn', hchunk, Nat.zero_le _, hopen⟩
  | started src =>
    have hcleared : CountsInRange (createSession s) := ⟨hflen, htxlen, hrxn, Nat.zero_le _, htimer, hopen⟩
    exact startOn_keeps hcleared fun _ => hcleared
  | restarted => exact ⟨Nat.zero_le _, Nat.zero_le _, Nat.zero_le _, Nat.zero_le _, Nat.zero_le _, nofun⟩
  | _ => exact hs

/-- A frame is sent from counters in range: `CHUNK` is at most 60. -/
theorem Readied.countsInRange {s u : State} (h : Readied s u) (hs : CountsInRange s) : CountsInRange u := by
  cases h with
  | chunk =>
    obtain ⟨hflen, htxlen, hrxn, _, htimer, hopen⟩ := hs
    have h60 := nextChunk_le s
    have hchunk : (chunkOf (nextChunkByte s)).toNat ≤ Config.maxPayload := by
      rw [toNat_chunkOf (by rwa [toNat_nextChunkByte]), toNat_nextChunkByte]
      exact h60
    exact ⟨hflen, htxlen, hrxn, hchunk, htimer, hopen⟩
  | _ => exact hs

/-- A sent frame's length is `FLEN` and `TXLEN`, and no frame is open. -/
theorem countsInRange_afterSend {frame : List Byte} {s : State} (hs : CountsInRange s)
    (hl : frame.length ≤ Config.frameCapacity) : CountsInRange (afterSend frame s) := by
  obtain ⟨_, _, hrxn, hchunk, _, _⟩ := hs
  have hlen : (BitVec.ofNat 7 frame.length).toNat ≤ Config.frameCapacity :=
    Nat.le_trans (BitVec.toNat_ofNat .. ▸ Nat.mod_le ..) hl
  exact ⟨hlen, hlen, hrxn, hchunk, Nat.le_refl _, nofun⟩

/-- Settles O53: each operation that moves a counter moves it inside its range. -/
theorem stepKeepsCountsInRange : Obligations.StepKeepsCountsInRange := by
  intro s t hs hst
  cases step_form hst with
  | sent _ _ hu _ _ _ hl => exact countsInRange_afterSend (hu.countsInRange hs) hl
  | verifying => exact hs
  | taken _ _ _ _ ht => exact ht.countsInRange hs
  | waited => exact hs

/-! ### A pass over the image -/

/-- `OFFSET` stands at the end of the image when the two lengths are the same number. -/
theorem eq_setWidth_ilen_iff {offset : BitVec 16} {ilen : BitVec 15} :
    offset = ilen.setWidth 16 ↔ offset.toNat = ilen.toNat := by
  rw [← BitVec.toNat_inj, BitVec.toNat_setWidth, Nat.mod_eq_of_lt (by omega)]

/-- Every pass starts in range. -/
theorem passInRange_of_passStart {t : State} (hl : t.ilen.toNat ≤ Config.capacity) (ho : t.offset = 0)
    (hr : t.rstep = .build) : PassInRange t :=
  ⟨hl, by simp [ho], .inl (by simp [ho]), fun _ hn => absurd hr hn⟩

/-- Between the rounds and outside the passes only `OFFSET` and `ILEN` count. -/
theorem PassInRange.outsideRound {s t : State} (hs : PassInRange s) (hl : t.ilen = s.ilen) (ho : t.offset = s.offset)
    (hr : inPass t → t.rstep = .build) : PassInRange t := by
  obtain ⟨hcap, hle, hstart, _⟩ := hs
  exact ⟨hl ▸ hcap, hl ▸ ho ▸ hle, hl ▸ ho ▸ hstart, fun hp hn => absurd (hr hp) hn⟩

/-- Counting the chunk of a round moves `OFFSET` to the next chunk's start, or to the end of the image. -/
theorem PassInRange.countChunk {s : State} (hs : PassInRange s) (hp : inPass s) (hr : s.rstep ≠ .build) :
    PassInRange (countChunk s) := by
  obtain ⟨hcap, _, hstart, hround⟩ := hs
  obtain ⟨hlt, hchunk⟩ := hround hp hr
  rw [eq_setWidth_ilen_iff] at hstart
  simp only [Config.capacity, Config.maxPayload, nextChunk] at hcap hstart hchunk
  have hadv : (advancedOffset s).toNat = s.offset.toNat + s.chunk.toNat := by
    rw [advancedOffset, BitVec.toNat_add, BitVec.toNat_ofNat]
    omega
  refine ⟨hcap, ?_, ?_, fun _ hn => absurd rfl hn⟩
  · simp only [countChunk_offset, countChunk_ilen, hadv]
    omega
  · rw [eq_setWidth_ilen_iff]
    simp only [countChunk_offset, countChunk_ilen, hadv, Config.maxPayload]
    omega

/-- The reaction to an outcome starts a pass, counts a chunk, or leaves `OFFSET` alone. -/
theorem Delivered.passInRange {g : GuardState} {o : CallOutcome} {s t : State} (h : Delivered g o s t)
    (hs : PassInRange s) : PassInRange t := by
  cases h with
  | failed => exact hs.outsideRound rfl rfl fun _ => rfl
  | completed => exact hs.outsideRound rfl rfl fun _ => rfl
  | sent _ _ hr =>
    obtain ⟨hcap, hle, hstart, hround⟩ := hs
    exact ⟨hcap, hle, hstart, fun hp _ => hround hp (by simp [hr])⟩
  | erased => exact passInRange_of_passStart hs.1 rfl rfl
  | counted _ _ hr hp => exact hs.countChunk hp (by simp [hr])

/-- An event moves `OFFSET` and `ILEN` by a delivered outcome, a start or a reset alone. -/
theorem Taken.passInRange {e : Event} {s t : State} (h : Taken s e t) (hs : PassInRange s) : PassInRange t := by
  cases h with
  | ticked => exact tgTick_keeps fun _ _ => hs
  | expired _ _ _ hd => exact hd.passInRange hs
  | written _ _ _ _ _ hd => exact hd.passInRange (endWrite_keeps fun _ _ _ => hs)
  | received _ _ _ _ _ _ hd => exact hd.passInRange hs
  | started src =>
    refine startOn_keeps (passInRange_of_passStart (Nat.zero_le _) rfl rfl) fun hl => ?_
    have hlen : (BitVec.ofNat 15 src.bytes.length).toNat ≤ Config.capacity :=
      Nat.le_trans (BitVec.toNat_ofNat .. ▸ Nat.mod_le ..) hl
    exact passInRange_of_passStart hlen rfl rfl
  | restarted => exact passInRange_of_passStart (Nat.zero_le _) rfl rfl
  | _ => exact hs

/-- A round that is sent in a pass carries the next chunk, which is not empty. -/
theorem Readied.passInRange_afterSend {s u : State} (h : Readied s u) (hs : PassInRange s) (frame : List Byte) :
    PassInRange (afterSend frame u) := by
  cases h with
  | erase hp => exact hs.outsideRound rfl rfl fun hin => by simp [inPass, afterSend, afterFrame, hp] at hin
  | chunk _ hm =>
    obtain ⟨hcap, hle, hstart, _⟩ := hs
    refine ⟨hcap, hle, hstart, fun _ _ => ⟨hm, ?_⟩⟩
    exact (toNat_chunkOf (by rw [toNat_nextChunkByte]; exact nextChunk_le s)).trans (toNat_nextChunkByte s)
  | ending => exact hs.outsideRound rfl rfl fun hin => by simp [inPass, afterSend, afterFrame] at hin

/-- Settles O54: `OFFSET` starts a pass at 0 and moves by the chunk of the round, which the loop test sized. -/
theorem stepKeepsPassInRange : Obligations.StepKeepsPassInRange := by
  intro s t hs hst
  cases step_form hst with
  | sent frame _ hu => exact hu.passInRange_afterSend hs frame
  | verifying => exact passInRange_of_passStart hs.1 rfl rfl
  | taken _ _ _ _ ht => exact ht.passInRange hs
  | waited => exact hs

end Sys2Proof.Machine
end

section
/-! SUPPORT. The error registers speak exactly in `Failed` (10_state.md R26 to R28; 60_exceptions.md R140, R145), and
`STRAGGLERS` holds issued tags (10_state.md R24, R33). -/

namespace Sys2Proof.Machine

/-! ### Error registers -/

/-- No error is recorded outside `Failed`: all three registers are clear. -/
theorem errorsRecorded_iff_of_not_failed {s : State} (hp : s.phase ≠ .failed) :
    ErrorsRecorded s ↔ s.errkind = .none ∧ s.errphase = .none ∧ s.errstatus = 0 := by
  unfold ErrorsRecorded
  constructor
  · rintro ⟨hfailed, hstatus, htag, _⟩
    have hkind : s.errkind = .none := by simpa [hp] using hfailed
    exact ⟨hkind, htag.2 (.inl hkind), by simpa [hkind] using hstatus⟩
  · rintro ⟨hkind, htag, hstatus⟩
    simp [hp, hkind, htag, hstatus]

/-- A move from one phase other than `Failed` to another leaves the registers clear. -/
theorem ErrorsRecorded.phaseMove {s t : State} (hs : ErrorsRecorded s) (hps : s.phase ≠ .failed)
    (hpt : t.phase ≠ .failed) (hk : t.errkind = s.errkind) (ht : t.errphase = s.errphase)
    (hst : t.errstatus = s.errstatus) : ErrorsRecorded t := by
  rw [errorsRecorded_iff_of_not_failed hps] at hs
  rwa [errorsRecorded_iff_of_not_failed hpt, hk, ht, hst]

/-- A phase with a session has a tag of its own (10_state.md R27). -/
theorem phaseTag_ne_none_of_busy {p : Phase} (h : busy p = true) : phaseTag p ≠ .none := by
  revert h
  cases p <;> simp [busy, phaseTag]

/-- A phase without a session has no tag (10_state.md R27). -/
theorem phaseTag_of_not_busy {p : Phase} (h : busy p = false) : phaseTag p = .none := by
  revert h
  cases p <;> simp [busy, phaseTag]

/-- A phase that awaits an acknowledgment is not tagged as `Ending` (42_commands.md R114). -/
theorem phaseTag_ne_ending_of_awaitsAck {p : Phase} (h : awaitsAck p = true) : phaseTag p ≠ .ending := by
  revert h
  cases p <;> simp [awaitsAck, phaseTag]

/-- A failure of a running session is recorded: an error of an acknowledgment only where one is awaited. -/
theorem errorsRecorded_raise {kind : ErrKind} {status : Byte} {s : State} (hb : busy s.phase = true)
    (hk : kind ≠ .none ∧ kind ≠ .oversizedImage) (hs : kind = .deviceRejected ↔ status ≠ 0)
    (ha : kind = .deviceRejected ∨ kind = .malformedAcknowledgment → awaitsAck s.phase = true) :
    ErrorsRecorded (raise kind status s) := by
  have htag := phaseTag_ne_none_of_busy hb
  refine ⟨by simp [hk.1], ?_, by simp [hk, htag], fun he => ?_⟩
  · by_cases hd : kind = .deviceRejected
    · simpa [hd] using hs.1 hd
    · simp [hd]
  · rw [raise_errkind, ← not_or]
    exact fun hor => phaseTag_ne_ending_of_awaitsAck (ha hor) he

/-- An oversized image is recorded with no tag and no status (60_exceptions.md R141). -/
theorem errorsRecorded_raise_oversizedImage {s : State} (hb : busy s.phase = false) :
    ErrorsRecorded (raise .oversizedImage 0 s) := by
  simp [ErrorsRecorded, phaseTag_of_not_busy hb]

/-- The reaction to an outcome records a failure, or moves between phases without one. -/
theorem Delivered.errorsRecorded {g : GuardState} {o : CallOutcome} {s t : State} (h : Delivered g o s t)
    (hs : ErrorsRecorded s) : ErrorsRecorded t := by
  cases h with
  | failed kind status hb _ _ _ hk hst _ ha => exact errorsRecorded_raise hb hk hst ha
  | completed _ _ _ hp => exact hs.phaseMove (by simp [hp]) (by simp) rfl rfl rfl
  | erased _ _ _ hp => exact hs.phaseMove (by simp [hp]) (by simp) rfl rfl rfl
  | sent => exact hs
  | counted => exact hs

@[simp] theorem resetBlock_phase (s : State) : (resetBlock s).phase = .idle := rfl

/-- An event moves the error registers by a delivered outcome, a start or a reset alone. -/
theorem Taken.errorsRecorded {e : Event} {s t : State} (h : Taken s e t) (hs : ErrorsRecorded s) :
    ErrorsRecorded t := by
  cases h with
  | ticked => exact tgTick_keeps fun _ _ => hs
  | expired _ _ _ hd => exact hd.errorsRecorded hs
  | written _ _ _ _ _ hd => exact hd.errorsRecorded (endWrite_keeps fun _ _ _ => hs)
  | received _ _ _ _ _ _ hd => exact hd.errorsRecorded hs
  | started src hb =>
    exact startOn_keeps (errorsRecorded_raise_oversizedImage hb) fun _ =>
      (errorsRecorded_iff_of_not_failed (by simp)).2 ⟨rfl, rfl, rfl⟩
  | restarted => exact (errorsRecorded_iff_of_not_failed (by simp)).2 ⟨rfl, rfl, rfl⟩
  | _ => exact hs

/-- A round is sent in a phase without a recorded error. -/
theorem Readied.errorsRecorded {s u : State} (h : Readied s u) (hs : ErrorsRecorded s) : ErrorsRecorded u := by
  cases h with
  | ending hp =>
    refine hs.phaseMove (fun hf => ?_) nofun rfl rfl rfl
    rcases hp with hp | hp <;> cases hp.symm.trans hf
  | _ => exact hs

/-- Settles O56: a failure enters `Failed` with its three registers, and only a start or a reset clears them. -/
theorem stepKeepsErrorsRecorded : Obligations.StepKeepsErrorsRecorded := by
  intro s t hs hst
  cases step_form hst with
  | sent _ _ hu => exact hu.errorsRecorded hs
  | verifying hp => exact hs.phaseMove (by simp [hp]) (by simp) rfl rfl rfl
  | taken _ _ _ _ ht => exact ht.errorsRecorded hs
  | waited => exact hs

/-! ### Abandoned calls -/

/-- Issued tags stay issued when `CALLID` grows. -/
theorem StragglersIssued.laterTag {s t : State} (hs : StragglersIssued s) (ht : t.stragglers = s.stragglers)
    (hc : s.callid ≤ t.callid) : StragglersIssued t := by
  obtain ⟨hsorted, hissued⟩ := hs
  exact ⟨ht ▸ hsorted, fun tag hm => Nat.le_trans (hissued tag (ht ▸ hm)) hc⟩

/-- An expiry adds the tag of the pending call, which was issued (41_transport_guard.md R94). -/
theorem StragglersIssued.abandonCall {s : State} (hs : StragglersIssued s) : StragglersIssued (abandonCall s) := by
  obtain ⟨hsorted, hissued⟩ := hs
  exact ⟨pairwise_insertTag hsorted, fun tag hm => (mem_insertTag.1 hm).elim Nat.le_of_eq (hissued tag)⟩

/-- The reaction to an outcome abandons no call, and may issue a tag. -/
theorem Delivered.stragglersIssued {g : GuardState} {o : CallOutcome} {s t : State} (h : Delivered g o s t)
    (hs : StragglersIssued s) : StragglersIssued t := by
  cases h with
  | sent => exact hs.laterTag rfl (Nat.le_succ _)
  | _ => exact hs

/-- An event adds the pending call's tag at an expiry, takes one out at a late completion, or clears the set. -/
theorem Taken.stragglersIssued {e : Event} {s t : State} (h : Taken s e t) (hs : StragglersIssued s) :
    StragglersIssued t := by
  cases h with
  | ticked => exact tgTick_keeps fun _ _ => hs
  | expired _ _ _ hd =>
    have ha : StragglersIssued (acceptDrawn s.callid s) := hs
    exact hd.stragglersIssued ha.abandonCall
  | written _ _ _ _ _ hd => exact hd.stragglersIssued (endWrite_keeps fun _ _ _ => hs)
  | received _ _ _ _ _ _ hd => exact hd.stragglersIssued hs
  | straggled => exact ⟨pairwise_removeTag hs.1, fun tag hm => hs.2 tag (mem_of_mem_removeTag hm)⟩
  | started => exact startOn_keeps hs fun _ => hs
  | restarted => exact ⟨.nil, nofun⟩
  | _ => exact hs

/-- A round is sent with the abandoned calls and the last tag as they were. -/
theorem Readied.stragglersIssued {s u : State} (h : Readied s u) (hs : StragglersIssued s) : StragglersIssued u := by
  cases h <;> exact hs

/-- Settles O59: the only tag that joins the set is `CALLID` itself, at an expiry. -/
theorem stepKeepsStragglersIssued : Obligations.StepKeepsStragglersIssued := by
  intro s t hs hst
  cases step_form hst with
  | sent _ _ hu => exact (hu.stragglersIssued hs).laterTag rfl (Nat.le_succ _)
  | verifying => exact hs
  | taken _ _ _ _ ht => exact ht.stragglersIssued hs
  | waited => exact hs

end Sys2Proof.Machine
end

section
/-! SUPPORT. What moves `OFFSET` (10_state.md R12; 20_memory.md R50) and what issues a call (10_state.md R23, R24;
41_transport_guard.md R91, R92). -/

namespace Sys2Proof.Machine

/-! ### OFFSET -/

/-- The reaction to an outcome moves `OFFSET` only on a read's success with a first byte of 0: to 0 after Erase, by
`CHUNK` in a pass (43_sequencer.md R122, R124). -/
theorem Delivered.offset_moves {g : GuardState} {o : CallOutcome} {s t : State} (h : Delivered g o s t) :
    t.offset = s.offset ∨
      (t.offset = 0 ∧ s.phase = .erasing ∧ t.phase = .writingFirmware) ∨
      (t.offset = s.offset + BitVec.ofNat 16 s.chunk.toNat ∧ inPass s ∧ s.rstep = .recv ∧ g = .reading ∧
        o = .success ∧ readByte .rxbuf 0 s = some Config.ackOk) := by
  cases h with
  | failed => exact .inl rfl
  | completed => exact .inl rfl
  | sent => exact .inl rfl
  | erased _ _ _ hp => exact .inr (.inl ⟨rfl, hp, rfl⟩)
  | counted hg ho hr hp h0 => exact .inr (.inr ⟨rfl, hp, hr, hg, ho, h0⟩)

/-- A read succeeds without an error and with two bytes (41_transport_guard.md R96). -/
theorem readOutcome_success {n : Nat} {eof err : Bool} (h : readOutcome n eof err = .success) :
    err = false ∧ n = Config.ackLen := by
  revert h
  cases err <;> cases eof <;> simp [readOutcome]

/-- Two received bytes of which the first, as `RXBUF` holds it, is 0. -/
theorem bytes_of_readByte_endRead {bytes : List Byte} {s : State} (hl : bytes.length = Config.ackLen)
    (h0 : readByte .rxbuf 0 (endRead bytes s) = some Config.ackOk) : ∃ reserved, bytes = [0, reserved] := by
  have hr : readByte .rxbuf 0 (endRead bytes s) = bytes[0]? :=
    Memory.read_writeBytes_inside s.rxbuf 0 0 bytes (by rw [hl]; decide)
  rw [hr] at h0
  match bytes, hl with
  | [a, b], _ => exact ⟨b, by simpa [Config.ackOk] using h0⟩

/-- Where an event moves `OFFSET`. -/
theorem Taken.offset_moves {e : Event} {s t : State} (h : Taken s e t) (hstart : ∀ src, e ≠ .seqStart src)
    (hreset : e ≠ .reset) :
    t.offset = s.offset ∨
      (t.offset = 0 ∧ s.phase = .erasing ∧ t.phase = .writingFirmware) ∨
      (t.offset = s.offset + BitVec.ofNat 16 s.chunk.toNat ∧ inPass s ∧ s.rstep = .recv ∧ s.tgst = .reading ∧
        ∃ reserved eof, e = .rdone s.callid [0, reserved] eof false) := by
  cases h with
  | ticked => exact .inl (tgTick_keeps (P := fun u => u.offset = s.offset) fun _ _ => rfl)
  | expired _ _ _ hd => exact hd.offset_moves.imp_right (.imp_right fun ⟨_, _, _, _, ho, _⟩ => nomatch ho)
  | written n err _ _ _ hd =>
    have hm := hd.offset_moves
    rw [endWrite_offset, endWrite_phase] at hm
    exact hm.imp_right (.imp_right fun ⟨_, _, _, hg, _⟩ => nomatch hg)
  | received bytes eof err _ hg _ hd =>
    refine hd.offset_moves.imp_right (.imp_right fun ⟨hadv, hp, hr, _, ho, h0⟩ => ?_)
    obtain ⟨rfl, hl⟩ := readOutcome_success ho
    obtain ⟨reserved, rfl⟩ := bytes_of_readByte_endRead hl h0
    exact ⟨hadv, hp, hr, hg, reserved, eof, rfl⟩
  | started src => exact absurd rfl (hstart src)
  | restarted => exact absurd rfl hreset
  | _ => exact .inl rfl

/-- Settles O44: a sent round leaves `OFFSET` alone, each entry to a pass clears it, and beside these only the
completion of a read with a first byte of 0 moves it. -/
theorem offsetMovesOnAcknowledgmentOnly : Obligations.OffsetMovesOnAcknowledgmentOnly := by
  intro s t hst hstart hreset
  cases step_form hst with
  | sent _ _ hu => exact .inl (by cases hu <;> rfl)
  | verifying hp => exact .inr (.inl ⟨rfl, .inr ⟨hp, rfl⟩⟩)
  | taken e rest _ hq ht =>
    have hns : ∀ src, e ≠ .seqStart src := by
      rintro src rfl
      exact hstart src rest (hq.queued nofun nofun)
    have hnr : e ≠ .reset := by
      rintro rfl
      exact hreset rest (hq.queued nofun nofun)
    rcases ht.offset_moves hns hnr with hkept | hzero | ⟨hadv, hp, hr, hg, reserved, eof, rfl⟩
    · exact .inl hkept
    · exact .inr (.inl ⟨hzero.1, .inl hzero.2⟩)
    · exact .inr (.inr ⟨hadv, hp, hr, hg, reserved, eof, rest, hq.queued nofun nofun⟩)
  | waited => exact .inl rfl

/-! ### Live calls -/

theorem CallsKept.refl (cs : List Call) : CallsKept cs cs :=
  ⟨.refl _, fun c hc => ⟨c, hc, rfl, List.suffix_rfl⟩⟩

theorem CallsKept.trans {cs ds es : List Call} (h : CallsKept cs ds) (k : CallsKept ds es) : CallsKept cs es := by
  refine ⟨k.1.trans h.1, fun e he => ?_⟩
  obtain ⟨d, hd, hde, hsuf⟩ := k.2 e he
  obtain ⟨c, hc, hcd, hsuf'⟩ := h.2 d hd
  exact ⟨c, hc, hcd.trans hde, hsuf.trans hsuf'⟩

/-- Bytes accepted of a call leave it its tag and its last bytes (41_transport_guard.md R103). -/
theorem callsKept_map_advanceCall (id k : Nat) (cs : List Call) : CallsKept cs (cs.map (advanceCall id k)) := by
  have hadv : ∀ c, (advanceCall id k c).tag = c.tag ∧ (advanceCall id k c).bytes <:+ c.bytes := by
    intro c
    unfold advanceCall
    split
    · exact ⟨rfl, List.drop_suffix k c.bytes⟩
    · exact ⟨rfl, List.suffix_rfl⟩
  have htags : (cs.map (advanceCall id k)).map Call.tag = cs.map Call.tag := by
    rw [List.map_map, show Call.tag ∘ advanceCall id k = Call.tag from funext fun c => (hadv c).1]
  refine ⟨htags ▸ List.Sublist.refl _, fun c hc => ?_⟩
  obtain ⟨d, hd, rfl⟩ := List.mem_map.1 hc
  exact ⟨d, hd, (hadv d).1.symm, (hadv d).2⟩

/-- A call that is gone leaves the others. -/
theorem callsKept_dropCall (id : Nat) (s : State) : CallsKept s.calls (dropCall id s).calls :=
  ⟨List.filter_sublist.map _, fun c hc => ⟨c, (List.mem_filter.1 hc).1, rfl, List.suffix_rfl⟩⟩

theorem callsKept_acceptDrawn (id : Nat) (s : State) : CallsKept s.calls (acceptDrawn id s).calls :=
  callsKept_map_advanceCall ..

theorem callsKept_endLate (id : Nat) (s : State) : CallsKept s.calls (endLate id s).calls :=
  (callsKept_acceptDrawn id s).trans (callsKept_dropCall id _)

theorem callsKept_endWrite (n : Nat) (err : Bool) (s : State) : CallsKept s.calls (endWrite n err s).calls := by
  refine .trans ?_ (callsKept_dropCall s.callid _)
  cases err <;> exact callsKept_map_advanceCall ..

/-! ### Issued calls -/

/-- No call is issued from `s` to `t`: the calls alive were alive, no guard state is entered, no deadline lengthened. -/
def NoCallIssued (s t : State) : Prop :=
  t.callid = s.callid ∧ CallsKept s.calls t.calls ∧ (t.tgst = .idle ∨ t.tgst = s.tgst) ∧ t.timer ≤ s.timer

/-- One call is issued from `s` to `t`, of the next tag and with the full deadline. -/
def CallIssued (s t : State) : Prop :=
  t.callid = s.callid + 1 ∧ t.tgst ≠ .idle ∧ t.timer = Config.deadlineTicks ∧
    ∃ old bytes, t.calls = old ++ [⟨t.callid, bytes⟩] ∧ CallsKept s.calls old

/-- An update that leaves the guard and the calls alone issues no call. -/
theorem NoCallIssued.refl (s : State) : NoCallIssued s s := ⟨rfl, .refl _, .inr rfl, Nat.le_refl _⟩

/-- The reaction to an outcome issues the read of its round or nothing. -/
theorem Delivered.call_issued {g : GuardState} {o : CallOutcome} {s u t : State} (h : Delivered g o u t)
    (hu : NoCallIssued s u) : NoCallIssued s t ∨ CallIssued s t := by
  cases h with
  | sent =>
    obtain ⟨hid, hcalls, _, _⟩ := hu
    exact .inr ⟨congrArg (· + 1) hid, nofun, rfl, u.calls, [], rfl, hcalls⟩
  | _ => exact .inl hu

/-- An event issues no call but by the reaction to a completion. -/
theorem Taken.call_issued {e : Event} {s t : State} (h : Taken s e t) (hreset : e ≠ .reset) :
    NoCallIssued s t ∨ CallIssued s t := by
  cases h with
  | ticked => exact .inl (tgTick_keeps fun _ hle => ⟨rfl, .refl _, .inr rfl, hle⟩)
  | expired _ _ _ hd => exact hd.call_issued ⟨rfl, callsKept_acceptDrawn s.callid s, .inl rfl, Nat.le_refl _⟩
  | written n err _ _ _ hd => exact hd.call_issued ⟨by simp, callsKept_endWrite n err s, .inl (by simp), by simp⟩
  | received _ _ _ _ _ _ hd =>
    exact hd.call_issued ⟨rfl, callsKept_dropCall s.callid (closeCall s), .inl rfl, Nat.zero_le _⟩
  | straggled _ id => exact .inl ⟨rfl, callsKept_endLate id s, .inr rfl, Nat.le_refl _⟩
  | forgotten _ id => exact .inl ⟨rfl, callsKept_endLate id s, .inr rfl, Nat.le_refl _⟩
  | started => exact .inl (startOn_keeps (.refl s) fun _ => .refl s)
  | restarted => exact absurd rfl hreset
  | _ => exact .inl (.refl s)

/-- A sent round issues its write. -/
theorem Readied.callIssued_afterSend {s u : State} (h : Readied s u) (frame : List Byte) :
    CallIssued s (afterSend frame u) := by
  cases h <;> exact ⟨rfl, nofun, rfl, s.calls, frame, rfl, .refl _⟩

/-- Settles O46: a sent round issues a write, a completed write issues a read, and nothing else issues a call. -/
theorem oneFreshTagPerCall : Obligations.OneFreshTagPerCall := by
  intro s t hst hreset
  change NoCallIssued s t ∨ CallIssued s t
  cases step_form hst with
  | sent frame _ hu => exact .inr (hu.callIssued_afterSend frame)
  | verifying => exact .inl (.refl s)
  | taken _ rest _ hq ht =>
    refine ht.call_issued ?_
    rintro rfl
    exact hreset rest (hq.queued nofun nofun)
  | waited => exact .inl (.refl s)

end Sys2Proof.Machine
end

section
/-! SUPPORT. The step and the fetched instruction (10_state.md R21), and the state after reset (10_state.md R36). -/

namespace Sys2Proof.Machine

/-- A fetched instruction is what the step runs (10_state.md R21). -/
theorem step_of_fetch {s : State} {i : Instr} (h : fetch s = some i) : step s = exec i (prepare s) := by
  rw [step, h]

/-- The two bytes that complete an awaited read are fetched as the acknowledgment they decode to (41_transport_guard.md
R96). -/
theorem fetch_arrived {s : State} {status reserved : Byte} {eof : Bool} {rest : List Event} {i : Instr}
    (hr : s.rstep = .recv) (hg : s.tgst = .reading)
    (hq : s.inbox = .rdone s.callid [status, reserved] eof false :: rest)
    (hd : decode .received [status, reserved] = .ok (i, [])) : fetch s = some i := by
  simp [fetch, arrivedAck, hr, hg, hq, hd, Config.ackLen]

/-- Settles O22: the step runs what is fetched, and an arrived acknowledgment's event is taken from the queue. -/
theorem stepRunsFetchedInstruction : Obligations.StepRunsFetchedInstruction := by
  refine ⟨fun s i hf => step_of_fetch hf, fun s status reserved eof rest i hr hg hq hd => ?_⟩
  have hp : prepare s = { s with inbox := rest } := by simp [prepare, hr, hq]
  rw [step_of_fetch (fetch_arrived hr hg hq hd), hp]

/-- No byte of any space was written at reset (10_state.md R36; logs 10, 17). -/
theorem readByte_reset (sp : Space) (a : Nat) : readByte sp a State.reset = none := by
  cases sp <;> rfl

/-- With nothing to send, nothing queued and no call pending, a step waits (70_reset_and_hazards.md R172). -/
theorem step_waits {s : State} (hf : fetch s = none) (hp : s.phase ≠ .writingFirmware) (hq : s.inbox = [])
    (hg : s.tgst = .idle) : step s = .next s := by
  simp [step, hf, withoutInstr, hp, awaitEvent, hq, hg]

/-- Settles O48: each register is read off the state, and with no session and nothing queued the step waits. -/
theorem resetRegisters : Obligations.ResetRegisters :=
  ⟨rfl, rfl, rfl, rfl, rfl, rfl, rfl, rfl, rfl, rfl, rfl, rfl, rfl, rfl, rfl, rfl, rfl, readByte_reset,
    step_waits rfl (by decide) rfl rfl⟩

/-- At reset no call is pending, so the guard matches the round. -/
theorem guardMatchesRound_reset : GuardMatchesRound State.reset := by
  unfold GuardMatchesRound
  decide

/-- Settles O49: at reset no session runs, no error is recorded, every counter is 0 and every space is empty. -/
theorem resetIsSound : Obligations.ResetIsSound := by
  have hmemory : MemorySound State.reset := ⟨Memory.fits_nil _, Memory.fits_nil _, .nil⟩
  obtain ⟨hcanonical, hbuffers⟩ := memorySound_iff.1 hmemory
  have hcounts : CountsInRange State.reset :=
    ⟨Nat.zero_le _, Nat.zero_le _, Nat.zero_le _, Nat.zero_le _, Nat.zero_le _, nofun⟩
  have hpass : PassInRange State.reset := passInRange_of_passStart (Nat.zero_le _) rfl rfl
  have herrors : ErrorsRecorded State.reset := (errorsRecorded_iff_of_not_failed (by decide)).2 ⟨rfl, rfl, rfl⟩
  have hbuilder : BuilderAtRest State.reset := ⟨nofun, fun _ => rfl⟩
  have hcalls : SessionOwnsCall State.reset := nofun
  have hstragglers : StragglersIssued State.reset := ⟨.nil, nofun⟩
  have himage : ImageLoaded State.reset := fun _ => ⟨nofun, fun hlt => absurd hlt (Nat.not_lt_zero _)⟩
  exact ⟨hcanonical, hbuffers, hcounts, hpass, guardMatchesRound_reset, herrors, hbuilder, hcalls, hstragglers, himage⟩

end Sys2Proof.Machine
end

section
/-! SUPPORT. The calls of a running session: none alive between rounds, the pending one alone in a round, and its copy the
frame in the buffer (20_memory.md R50, R56, R57; 41_transport_guard.md R91). -/

namespace Sys2Proof.Machine

/-! ### Guard and calls of a running session -/

/-- A call is pending only while a session runs (60_exceptions.md R157). -/
theorem GuardMatchesRound.busy_of_pending {s : State} (hg : GuardMatchesRound s) (hp : s.tgst ≠ .idle) :
    busy s.phase = true := by
  obtain ⟨hidle, _, _, hbusy, _⟩ := hg
  exact hbusy (mt hidle.2 hp)

/-- With no session running no call is pending (60_exceptions.md R157). -/
theorem GuardMatchesRound.idle_of_not_busy {s : State} (hg : GuardMatchesRound s) (hb : busy s.phase = false) :
    s.tgst = .idle := by
  refine Decidable.byContradiction fun hp => ?_
  rw [hg.busy_of_pending hp] at hb
  cases hb

/-- Neither an abandoned nor a live call is left (43_sequencer.md R121, premise `NO_STRAGGLERS`; log 14). -/
def NoCallAlive (s : State) : Prop := s.stragglers = [] ∧ s.calls = []

/-- Outside a session the calls are the Transport's own affair. -/
theorem sessionOwnsCall_of_not_busy {s : State} (hb : busy s.phase = false) : SessionOwnsCall s :=
  fun h => absurd h (by simp [hb])

/-- With no call pending, a session owns its calls when none is alive. -/
theorem sessionOwnsCall_of_idle {s : State} (hi : s.tgst = .idle) (hn : NoCallAlive s) : SessionOwnsCall s := by
  obtain ⟨hstragglers, hcalls⟩ := hn
  exact fun _ => ⟨hstragglers, fun _ => hcalls, by simp [hi], by simp [hi]⟩

/-- Between the rounds of a session no call is alive. -/
theorem SessionOwnsCall.noCallAlive {s : State} (hs : SessionOwnsCall s) (hb : busy s.phase = true)
    (hi : s.tgst = .idle) : NoCallAlive s := by
  obtain ⟨hstragglers, hidle, _⟩ := hs hb
  exact ⟨hstragglers, hidle hi⟩

/-- In a round of a session the pending call is the one alive. -/
theorem SessionOwnsCall.pending_alone {s : State} (hs : SessionOwnsCall s) (hb : busy s.phase = true)
    (hp : s.tgst ≠ .idle) : s.stragglers = [] ∧ ∃ bytes, s.calls = [⟨s.callid, bytes⟩] := by
  obtain ⟨hstragglers, _, hreading, hwriting⟩ := hs hb
  refine ⟨hstragglers, ?_⟩
  cases hg : s.tgst with
  | idle => exact absurd hg hp
  | reading => exact ⟨[], hreading hg⟩
  | writing =>
    obtain ⟨_, bytes, _, hcalls⟩ := hwriting hg
    exact ⟨bytes, hcalls⟩

/-- A live call of a session is the pending one. -/
theorem SessionOwnsCall.tag_of_mem {s : State} (hs : SessionOwnsCall s) (hb : busy s.phase = true) {c : Call}
    (hc : c ∈ s.calls) : s.tgst ≠ .idle ∧ c.tag = s.callid := by
  by_cases hi : s.tgst = .idle
  · rw [(hs.noCallAlive hb hi).2] at hc
    cases hc
  · obtain ⟨_, bytes, hcalls⟩ := hs.pending_alone hb hi
    rw [hcalls, List.mem_singleton] at hc
    exact ⟨hi, congrArg Call.tag hc⟩

/-! ### The end of a call -/

/-- A completed write was the one call alive, and is gone (41_transport_guard.md R95). -/
theorem noCallAlive_endWrite {s : State} {bytes : List Byte} (n : Nat) (err : Bool) (hstragglers : s.stragglers = [])
    (hcalls : s.calls = [⟨s.callid, bytes⟩]) : NoCallAlive (endWrite n err s) := by
  refine ⟨by simpa using hstragglers, ?_⟩
  cases err <;> simp [endWrite, hcalls, advanceCall]

/-- A completed read was the one call alive, and is gone (41_transport_guard.md R96). -/
theorem noCallAlive_endRead {s : State} {bytes : List Byte} (received : List Byte) (hstragglers : s.stragglers = [])
    (hcalls : s.calls = [⟨s.callid, bytes⟩]) : NoCallAlive (endRead received s) :=
  ⟨hstragglers, by simp [hcalls]⟩

/-- A session whose call times out is over (60_exceptions.md R150). -/
theorem Delivered.failed_of_timeout {g : GuardState} {s t : State} (h : Delivered g .timeout s t) :
    t.phase = .failed := by
  cases h with
  | failed => rfl
  | completed _ ho => cases ho
  | sent _ ho => cases ho
  | erased _ ho => cases ho
  | counted _ ho => cases ho

/-- The reaction to the outcome of the one call ends the session, issues the one read of its round, or ends the round. -/
theorem Delivered.sessionOwnsCall {g : GuardState} {o : CallOutcome} {s t : State} (h : Delivered g o s t)
    (hi : s.tgst = .idle) (hn : NoCallAlive s) : SessionOwnsCall t := by
  cases h with
  | failed => exact sessionOwnsCall_of_not_busy rfl
  | completed => exact sessionOwnsCall_of_not_busy rfl
  | sent => exact fun _ => ⟨hn.1, nofun, fun _ => by simp [hn.2], nofun⟩
  | erased => exact sessionOwnsCall_of_idle hi hn
  | counted => exact sessionOwnsCall_of_idle hi hn

/-! ### The step -/

/-- An event of a running session completes its one call or leaves the calls alone: no late completion can name a call. -/
theorem Taken.sessionOwnsCall {e : Event} {s t : State} (h : Taken s e t) (hg : GuardMatchesRound s)
    (hs : SessionOwnsCall s) : SessionOwnsCall t := by
  cases h with
  | cleared hb => exact sessionOwnsCall_of_not_busy hb
  | headed _ _ _ _ hb => exact sessionOwnsCall_of_not_busy hb
  | appended _ hb => exact sessionOwnsCall_of_not_busy hb
  | finalized hb => exact sessionOwnsCall_of_not_busy hb
  | opened hb => exact sessionOwnsCall_of_not_busy hb
  | closed hb => exact sessionOwnsCall_of_not_busy hb
  | ticked => exact tgTick_keeps fun _ _ => hs
  | expired _ _ _ hd => exact sessionOwnsCall_of_not_busy (by rw [hd.failed_of_timeout]; rfl)
  | written n err _ hw _ hd =>
    have hp : s.tgst ≠ .idle := by simp [hw]
    obtain ⟨hstragglers, _, hcalls⟩ := hs.pending_alone (hg.busy_of_pending hp) hp
    exact hd.sessionOwnsCall (by simp) (noCallAlive_endWrite n err hstragglers hcalls)
  | received bytes _ _ _ hr _ hd =>
    have hp : s.tgst ≠ .idle := by simp [hr]
    obtain ⟨hstragglers, _, hcalls⟩ := hs.pending_alone (hg.busy_of_pending hp) hp
    exact hd.sessionOwnsCall (by simp) (noCallAlive_endRead bytes hstragglers hcalls)
  | straggled _ _ _ hm =>
    refine sessionOwnsCall_of_not_busy (Bool.eq_false_iff.2 fun hb => ?_)
    obtain ⟨hstragglers, _⟩ := hs hb
    rw [hstragglers] at hm
    cases hm
  | forgotten _ _ _ _ hc hn =>
    obtain ⟨c, hc, rfl⟩ := hc
    exact sessionOwnsCall_of_not_busy (Bool.eq_false_iff.2 fun hb => hn (hs.tag_of_mem hb hc))
  | started _ hb _ _ hstragglers hcalls =>
    have hi := hg.idle_of_not_busy hb
    exact startOn_keeps (sessionOwnsCall_of_not_busy rfl) fun _ => sessionOwnsCall_of_idle hi ⟨hstragglers, hcalls⟩
  | answered => exact hs
  | restarted => exact sessionOwnsCall_of_not_busy rfl

/-- A frame is sent in a running session (43_sequencer.md R122, R124, R127). -/
theorem Readied.busy_phase {s u : State} (h : Readied s u) : busy s.phase = true := by
  cases h with
  | erase hp => rw [hp]; rfl
  | chunk hp => rcases hp with hp | hp <;> rw [hp] <;> rfl
  | ending hp => rcases hp with hp | hp <;> rw [hp] <;> rfl

/-- A frame is sent with the Transport's calls as they were. -/
theorem Readied.noCallAlive {s u : State} (h : Readied s u) (hn : NoCallAlive s) : NoCallAlive u := by
  cases h <;> exact hn

/-- A frame sent with no call alive leaves its write as the one call, with the frame in the buffer as its copy. -/
theorem sessionOwnsCall_afterSend {frame : List Byte} {s : State} (hn : NoCallAlive s)
    (hl : frame.length ≤ Config.frameCapacity) : SessionOwnsCall (afterSend frame s) := by
  have hflen : (afterSend frame s).flen.toNat = frame.length :=
    Nat.mod_eq_of_lt (Nat.lt_of_le_of_lt hl (by decide))
  refine fun _ => ⟨hn.1, nofun, nofun, fun _ => ⟨rfl, frame, ?_, ?_⟩⟩
  · rw [hflen]
    exact Memory.readBytes_writeBytes s.fbuf 0 frame
  · simp [afterSend, hn.2]

/-- Settles O58: a round is sent with no call alive, its outcome ends its one call, and an expiry, which alone abandons
one, ends the session. -/
theorem stepKeepsSessionOwnsCall : Obligations.StepKeepsSessionOwnsCall := by
  intro s t hg hs hst
  cases step_form hst with
  | sent _ _ hu _ _ hi hl => exact sessionOwnsCall_afterSend (hu.noCallAlive (hs.noCallAlive hu.busy_phase hi)) hl
  | verifying hp hr =>
    obtain ⟨hidle, _⟩ := hg
    have hi : s.tgst = .idle := hidle.2 hr
    exact sessionOwnsCall_of_idle hi (hs.noCallAlive (by rw [hp]; rfl) hi)
  | taken _ _ _ _ ht => exact ht.sessionOwnsCall hg hs
  | waited => exact hs

end Sys2Proof.Machine
end

section
/-! SUPPORT. The image of a session: only a start and a reset move `IMG` and `ILEN` (20_memory.md R40, R41; 10_state.md
R14), and each leaves exactly `ILEN` bytes (log 17). -/

namespace Sys2Proof.Machine

/-! ### What moves the image -/

/-- The image and its length are the same in two states. -/
def SameImage (s t : State) : Prop := t.ilen = s.ilen ∧ t.img = s.img

theorem SameImage.refl (s : State) : SameImage s s := ⟨rfl, rfl⟩

theorem SameImage.trans {s t u : State} (h : SameImage s t) (k : SameImage t u) : SameImage s u :=
  ⟨k.1.trans h.1, k.2.trans h.2⟩

/-- The reaction to an outcome leaves the image alone. -/
theorem Delivered.sameImage {g : GuardState} {o : CallOutcome} {s t : State} (h : Delivered g o s t) :
    SameImage s t := by
  cases h <;> exact .refl s

/-- An event leaves the image alone, is a start, or is the reset. -/
theorem Taken.image_moves {e : Event} {s t : State} (h : Taken s e t) :
    SameImage s t ∨ (∃ src, e = .seqStart src ∧ t = startOn src.bytes s) ∨ (e = .reset ∧ t = resetBlock s) := by
  cases h with
  | ticked => exact .inl (tgTick_keeps fun _ _ => .refl s)
  | expired _ _ _ hd => exact .inl hd.sameImage
  | written n err _ _ _ hd =>
    have hw : SameImage s (endWrite n err s) := endWrite_keeps fun _ _ _ => .refl s
    exact .inl (hw.trans hd.sameImage)
  | received _ _ _ _ _ _ hd => exact .inl hd.sameImage
  | started src => exact .inr (.inl ⟨src, rfl, rfl⟩)
  | restarted => exact .inr (.inr ⟨rfl, rfl⟩)
  | _ => exact .inl (.refl s)

/-- A step leaves the image alone, takes a queued start, or takes a queued reset. -/
theorem StepForm.image_moves {s t : State} (h : StepForm s t) :
    SameImage s t ∨
      (∃ src rest, s.inbox = .seqStart src :: rest ∧ t = startOn src.bytes { s with inbox := rest }) ∨
      (∃ rest, s.inbox = .reset :: rest ∧ t = resetBlock { s with inbox := rest }) := by
  cases h with
  | sent _ _ hu => exact .inl (by cases hu <;> exact .refl s)
  | verifying => exact .inl (.refl s)
  | taken e rest _ hq ht =>
    rcases ht.image_moves with hkept | ⟨src, rfl, hstart⟩ | ⟨rfl, hreset⟩
    · exact .inl hkept
    · exact .inr (.inl ⟨src, rest, hq.queued nofun nofun, hstart⟩)
    · exact .inr (.inr ⟨rest, hq.queued nofun nofun, hreset⟩)
  | waited => exact .inl (.refl s)

/-- Settles O47: with neither a start nor a reset queued next, the image and its length stay as they were. -/
theorem imageIsReadOnly : Obligations.ImageIsReadOnly := by
  intro s t hst hstart hreset
  rcases (step_form hst).image_moves with ⟨hilen, himg⟩ | ⟨src, rest, hq, _⟩ | ⟨rest, hq, _⟩
  · exact ⟨hilen, fun a => congrArg (Memory.read · a) himg⟩
  · exact absurd hq (hstart src rest)
  · exact absurd hq (hreset rest)

/-! ### The image is there, byte for byte -/

/-- The same image is as much loaded. -/
theorem ImageLoaded.of_sameImage {s t : State} (hs : ImageLoaded s) (h : SameImage s t) : ImageLoaded t := by
  obtain ⟨hilen, himg⟩ := h
  intro a
  rw [hilen, ← hs a, readByte, readByte, spaceOf, spaceOf, himg]

/-- No image of length 0 has a byte. -/
theorem imageLoaded_of_empty {s : State} (hilen : s.ilen = 0) (himg : s.img = []) : ImageLoaded s := by
  intro a
  simp [readByte, spaceOf, hilen, himg]

/-- An image within the capacity is latched whole, and its length fits `ILEN` (43_sequencer.md R120). -/
theorem imageLoaded_beginErasing {bytes : List Byte} (s : State) (hl : bytes.length ≤ Config.capacity) :
    ImageLoaded (beginErasing bytes s) := by
  intro a
  have hbyte : readByte .img a (beginErasing bytes s) = bytes[a]? := by
    have hread := Memory.read_ofBytes 0 a bytes
    rwa [Nat.zero_add] at hread
  have hilen : (beginErasing bytes s).ilen.toNat = bytes.length :=
    Nat.mod_eq_of_lt (Nat.lt_of_le_of_lt hl (by decide))
  rw [hbyte, hilen]
  simp

/-- Settles O60: a start loads the bytes it counts, an oversized start and a reset leave none, and no other step moves the
image. -/
theorem stepKeepsImageLoaded : Obligations.StepKeepsImageLoaded := by
  intro s t hs hst
  rcases (step_form hst).image_moves with hkept | ⟨src, rest, _, rfl⟩ | ⟨rest, _, rfl⟩
  · exact hs.of_sameImage hkept
  · exact startOn_keeps (imageLoaded_of_empty rfl rfl) fun hl => imageLoaded_beginErasing _ hl
  · exact imageLoaded_of_empty rfl rfl

end Sys2Proof.Machine
end

section
/-! SUPPORT. Decoding and encoding are one another's inverse (30_encoding.md R60 to R68, R71), and what the checksum
tells (R65; 40_frame_builder.md R86). -/

namespace Sys2Proof

/-! ### Headers -/

/-- Behind the sync bytes a header is what its four other bytes stand for (30_encoding.md R60, R67). -/
theorem decodeHeader_headerBytes (cmd len a1 a2 : Byte) (rest : List Byte) :
    decodeHeader (headerBytes cmd len a1 a2 ++ rest) = decodeCommand cmd len a1 a2 rest := by
  simp [headerBytes, decodeHeader]

/-- A decoded header begins with the sync bytes. -/
theorem decodeHeader_ok {bytes rest : List Byte} {i : Instr} (h : decodeHeader bytes = .ok (i, rest)) :
    ∃ cmd len a1 a2 tail, bytes = headerBytes cmd len a1 a2 ++ tail ∧
      decodeCommand cmd len a1 a2 tail = .ok (i, rest) := by
  unfold decodeHeader at h
  split at h
  · rename_i cmd len a1 a2 tail
    split at h
    · rename_i hsync
      obtain ⟨rfl, rfl⟩ := hsync
      exact ⟨cmd, len, a1, a2, tail, rfl, h⟩
    · cases h
  · cases h

/-- The four bytes behind the sync bytes of a command's frame, as the encoder writes and the decoder reads them. -/
structure HasHeader (i : Instr) (cmd len a1 a2 : Byte) : Prop where
  encode_eq : encode i = headerBytes cmd len a1 a2
  encodeFrame_eq : ∀ payload, encodeFrame i payload = frameBytes cmd len a1 a2 payload
  fits : lengthByteFits i len = true
  decodeCommand_eq : ∀ rest, decodeCommand cmd len a1 a2 rest = .ok (i, rest)

/-- Every well-formed command has its header (30_encoding.md R67). -/
theorem exists_hasHeader {i : Instr} (hw : i.WellFormed) (hd : i.direction = .sent) :
    ∃ cmd len a1 a2, HasHeader i cmd len a1 a2 := by
  cases i with
  | erase => exact ⟨_, _, _, _, rfl, fun _ => rfl, beq_self_eq_true Config.eraseLen, fun _ => rfl⟩
  | program off n =>
    have hargs := fun rest => congrArg (fun o => accept (.program o n) rest) (offsetOf_args off)
    exact ⟨_, _, _, _, rfl, fun _ => rfl, rfl, fun rest => (hargs rest).trans (accept_of_wellFormed hw rest)⟩
  | verify off n =>
    have hargs := fun rest => congrArg (fun o => accept (.verify o n) rest) (offsetOf_args off)
    exact ⟨_, _, _, _, rfl, fun _ => rfl, rfl, fun rest => (hargs rest).trans (accept_of_wellFormed hw rest)⟩
  | endCmd => exact ⟨_, _, _, _, rfl, fun _ => rfl, beq_self_eq_true Config.endLen, fun _ => rfl⟩
  | ackOk => cases hd
  | ackFail => cases hd

/-- Every well-formed acknowledgment is that of its two bytes (30_encoding.md R66). -/
theorem exists_ackInstr {i : Instr} (hw : i.WellFormed) (hd : i.direction = .received) :
    ∃ status reserved, i = ackInstr status reserved := by
  cases i with
  | ackOk reserved => exact ⟨Config.ackOk, reserved, rfl⟩
  | ackFail status reserved => exact ⟨status, reserved, (if_neg (ackFail_wellFormed.1 hw)).symm⟩
  | _ => cases hd

/-! ### Decoding what is encoded -/

theorem decode_encode {i : Instr} (hw : i.WellFormed) (rest : List Byte) :
    decode i.direction (encode i ++ rest) = .ok (i, rest) := by
  cases hd : i.direction with
  | sent =>
    obtain ⟨cmd, len, a1, a2, hi⟩ := exists_hasHeader hw hd
    rw [decode, hi.encode_eq, decodeHeader_headerBytes, hi.decodeCommand_eq]
  | received =>
    obtain ⟨status, reserved, rfl⟩ := exists_ackInstr hw hd
    obtain ⟨_, hencode, _⟩ := ackInstr_canonical status reserved
    rw [hencode]
    rfl

/-- Settles O1: each command's header, and each acknowledgment's pair of bytes, decodes to it. -/
theorem decodeInvertsEncode : Obligations.DecodeInvertsEncode :=
  ⟨fun _ rest hw => decode_encode hw rest, fun _ _ => ⟨chunkDefect_none, chunkDefect_none⟩,
    fun _ _ => ackFail_wellFormed, rfl, rfl, fun _ => rfl⟩

/-- A payload, its checksum and more bytes split after the checksum (30_encoding.md R65, R71). -/
theorem splitTail_payload {i : Instr} {payload : List Byte} (hl : payload.length = payloadLength i) (sum : Byte)
    (rest : List Byte) :
    splitTail i sum (payload ++ (sum + sumBytes payload) :: rest) = .ok (i, payload, rest) := by
  simp [splitTail, ← hl]

/-- Settles O2: the header tells the command, the command how long the payload is, and the checksum fits. -/
theorem frameReaderInvertsFrame : Obligations.FrameReaderInvertsFrame := by
  intro i payload rest hw hd hl
  obtain ⟨cmd, len, a1, a2, hi⟩ := exists_hasHeader hw hd
  have hheader := (decodeHeader_headerBytes cmd len a1 a2 _).trans
    (hi.decodeCommand_eq (payload ++ (cmd + len + a1 + a2 + sumBytes payload) :: rest))
  have hframe : encodeFrame i payload ++ rest =
      headerBytes cmd len a1 a2 ++ (payload ++ (cmd + len + a1 + a2 + sumBytes payload) :: rest) := by
    rw [hi.encodeFrame_eq, frameBytes, List.append_assoc, List.append_assoc, List.singleton_append]
  rw [hframe]
  simp only [headerBytes, List.cons_append, List.nil_append] at hheader ⊢
  simp only [decodeFrame, hheader, hi.fits, if_true, splitTail_payload hl]

/-! ### Encoding what was decoded -/

/-- What a command's bytes are, once decoded: the operands keep the constraints, and the bytes are the encoded ones but
for the length byte of Erase and End (log 8). -/
theorem decodeCommand_ok {cmd len a1 a2 : Byte} {tail rest : List Byte} {i : Instr}
    (h : decodeCommand cmd len a1 a2 tail = .ok (i, rest)) :
    i.WellFormed ∧ i.direction = .sent ∧ rest = tail ∧
      (i ≠ .erase → i ≠ .endCmd → headerBytes cmd len a1 a2 = encode i) ∧
      (i = .erase → headerBytes cmd len a1 a2 = headerBytes Config.cmdErase len 0 0) ∧
      (i = .endCmd → headerBytes cmd len a1 a2 = headerBytes Config.cmdEnd len 0 0) := by
  unfold decodeCommand at h
  split at h
  · subst cmd
    split at h
    · rename_i hargs
      obtain ⟨rfl, rfl⟩ := hargs
      cases h
      exact ⟨rfl, rfl, rfl, fun hn => absurd rfl hn, fun _ => rfl, nofun⟩
    · cases h
  split at h
  · subst cmd
    obtain ⟨hw, rfl, rfl⟩ := accept_ok h
    exact ⟨hw, rfl, rfl, fun _ _ => by simp [encode], nofun, nofun⟩
  split at h
  · subst cmd
    obtain ⟨hw, rfl, rfl⟩ := accept_ok h
    exact ⟨hw, rfl, rfl, fun _ _ => by simp [encode], nofun, nofun⟩
  split at h
  · subst cmd
    split at h
    · rename_i hargs
      obtain ⟨rfl, rfl⟩ := hargs
      cases h
      exact ⟨rfl, rfl, rfl, fun _ hn => absurd rfl hn, nofun, fun _ => rfl⟩
    · cases h
  · cases h

/-- A decoded acknowledgment is that of the first two bytes. -/
theorem decodeAck_ok {bytes rest : List Byte} {i : Instr} (h : decodeAck bytes = .ok (i, rest)) :
    ∃ status reserved, bytes = status :: reserved :: rest ∧ i = ackInstr status reserved := by
  unfold decodeAck at h
  split at h
  · rename_i status reserved tail
    cases h
    exact ⟨status, reserved, rfl, rfl⟩
  · cases h

/-- Settles O3: a header decodes only from the bytes of its command, and an acknowledgment only from its own two. -/
theorem decodedBytesAreCanonical : Obligations.DecodedBytesAreCanonical := by
  intro d bytes rest i h
  cases d with
  | sent =>
    obtain ⟨cmd, len, a1, a2, tail, rfl, hcommand⟩ := decodeHeader_ok h
    obtain ⟨hw, hd, rfl, hencode, herase, hend⟩ := decodeCommand_ok hcommand
    exact ⟨hw, hd, fun hne hnd => by rw [hencode hne hnd], fun he => ⟨len, by rw [herase he]⟩,
      fun he => ⟨len, by rw [hend he]⟩⟩
  | received =>
    obtain ⟨status, reserved, rfl, rfl⟩ := decodeAck_ok h
    obtain ⟨hw, hencode, hd⟩ := ackInstr_canonical status reserved
    refine ⟨hw, hd, fun _ _ => by rw [hencode]; rfl, fun he => ?_, fun he => ?_⟩
    · rw [he] at hd
      cases hd
    · rw [he] at hd
      cases hd

/-! ### Address bytes -/

/-- The low address byte is the offset modulo 256 (30_encoding.md R64). -/
theorem arg1Of_eq_ofNat (off : BitVec 16) : arg1Of off = BitVec.ofNat 8 (off.toNat % 256) := by
  apply BitVec.eq_of_toNat_eq
  simp

/-- The high address byte is the offset divided by 256 (30_encoding.md R64). -/
theorem arg2Of_eq_ofNat (off : BitVec 16) : arg2Of off = BitVec.ofNat 8 (off.toNat / 256) := by
  apply BitVec.eq_of_toNat_eq
  simp only [toNat_arg2Of, BitVec.toNat_ofNat]
  omega

/-! ### Checksum -/

/-- Two byte sequences of one length that differ in one place alone have different sums (40_frame_builder.md R86). -/
theorem sumBytes_ne_of_one_changed {xs ys : List Byte} {k : Nat} (hl : xs.length = ys.length)
    (hsame : ∀ j, j ≠ k → xs[j]? = ys[j]?) (hk : xs[k]? ≠ ys[k]?) : sumBytes xs ≠ sumBytes ys := by
  induction xs generalizing ys k with
  | nil =>
    rw [List.eq_nil_of_length_eq_zero hl.symm] at hk
    exact absurd rfl hk
  | cons x xs ih =>
    cases ys with
    | nil => cases hl
    | cons y ys =>
      rw [Machine.sumBytes_cons, Machine.sumBytes_cons]
      cases k with
      | zero =>
        have htail : xs = ys := List.ext_getElem? fun j => by simpa using hsame (j + 1) (by omega)
        rw [htail]
        simpa using hk
      | succ k =>
        have hhead : x = y := by simpa using hsame 0 (by omega)
        have hne : sumBytes xs ≠ sumBytes ys :=
          ih (k := k) (by simpa using hl) (fun j hj => by simpa using hsame (j + 1) (by omega)) (by simpa using hk)
        rw [hhead]
        simpa using hne

/-- Settles O5: the sum is the last byte, and adding is injective in the one byte that changed. -/
theorem oneChangedByteChangesChecksum : Obligations.OneChangedByteChangesChecksum := by
  refine ⟨fun cmd len a1 a2 payload => ?_, fun _ _ _ hl hsame hk => sumBytes_ne_of_one_changed hl hsame hk⟩
  simp [frameBytes, BitVec.add_assoc]

/-- Settles O6: each word is decoded to its row, or refused by name. -/
theorem specWordsDecode : Obligations.SpecWordsDecode := by
  unfold Obligations.SpecWordsDecode
  decide

end Sys2Proof
end

section
/-! SUPPORT. The checksum a frame is finalised with is the accumulator (30_encoding.md R65; 40_frame_builder.md R85,
R87). -/

namespace Sys2Proof.Machine

/-- A header and its payload, from no open frame: the frame without its checksum, and every summed byte in the
accumulator (40_frame_builder.md R81, R82). -/
def openFrame (cmd len a1 a2 : Byte) (payload : List Byte) (s : State) : State :=
  { putHeader cmd len a1 a2 s with
    fbuf := Memory.writeBytes (putHeader cmd len a1 a2 s).fbuf 6 payload
    flen := BitVec.ofNat 7 (6 + payload.length)
    acc := (putHeader cmd len a1 a2 s).acc + sumBytes payload }

theorem openFrame_acc (cmd len a1 a2 : Byte) (payload : List Byte) (s : State) :
    (openFrame cmd len a1 a2 payload s).acc = s.acc + sumBytes ([cmd, len, a1, a2] ++ payload) := by
  simp [openFrame, BitVec.add_assoc]

theorem toNat_openFrame_flen {payload : List Byte} (hl : payload.length ≤ 60) (cmd len a1 a2 : Byte) (s : State) :
    (openFrame cmd len a1 a2 payload s).flen.toNat = 6 + payload.length := by
  rw [openFrame, BitVec.toNat_ofNat]
  omega

/-- Header and appends leave the open frame. -/
theorem andThen_fbHeader_fbAppendAll {payload : List Byte} {s : State} (hi : s.fbst = .idle)
    (hl : payload.length ≤ 60) (cmd len a1 a2 : Byte) :
    andThen (fbHeader cmd len a1 a2 s) (fbAppendAll payload) = .next (openFrame cmd len a1 a2 payload s) := by
  have h6 : (6 : BitVec 7).toNat = 6 := rfl
  rw [fbHeader, if_pos hi, andThen_of_next,
    fbAppendAll_eq payload _ (by simp) (by rw [putHeader_flen, h6]; omega), putHeader_flen, h6]
  rfl

/-- The open frame takes its checksum. -/
theorem fbFinalize_openFrame {payload : List Byte} (hl : payload.length ≤ 60) (cmd len a1 a2 : Byte) (s : State) :
    fbFinalize (openFrame cmd len a1 a2 payload s) = .next (putChecksum (openFrame cmd len a1 a2 payload s)) :=
  fbFinalize_eq _ rfl (by rw [toNat_openFrame_flen hl]; omega)

/-- What `FB.FRAME` leaves is the finalised open frame with the accumulator cleared (40_frame_builder.md R88). -/
theorem fbClear_putChecksum_openFrame {payload : List Byte} {s : State} (hi : s.fbst = .idle)
    (hl : payload.length ≤ 60) (cmd len a1 a2 : Byte) :
    fbClear (putChecksum (openFrame cmd len a1 a2 payload s)) =
      afterFrame (frameFrom s.acc cmd len a1 a2 payload) s := by
  have hframe := fbFrame_eq cmd len a1 a2 payload s hi hl
  obtain ⟨u, hheader, hrest⟩ := andThen_next hframe
  have hopen := andThen_fbHeader_fbAppendAll hi hl cmd len a1 a2
  rw [hheader, andThen_of_next] at hopen
  rw [hopen, andThen_of_next, fbFinalize_openFrame hl, andThen_of_next] at hrest
  exact Host.Outcome.next.inj hrest

/-- The finished frame in the buffer, read back whole. -/
theorem readBytes_afterFrame {frame : List Byte} (hl : frame.length ≤ Config.frameCapacity) (s : State) :
    Memory.readBytes (afterFrame frame s).fbuf 0 (afterFrame frame s).flen.toNat = some frame := by
  have hlen : (afterFrame frame s).flen.toNat = frame.length := Nat.mod_eq_of_lt (Nat.lt_of_le_of_lt hl (by decide))
  rw [hlen]
  exact Memory.readBytes_writeBytes s.fbuf 0 frame

/-- Settles O8: header and appends sum the bytes into `ACC`, which `FB.FINALIZE` stores as the last byte. -/
theorem checksumIsAccumulator : Obligations.ChecksumIsAccumulator := by
  intro cmd len a1 a2 payload s hi hl
  refine ⟨openFrame cmd len a1 a2 payload s, putChecksum (openFrame cmd len a1 a2 payload s),
    andThen_fbHeader_fbAppendAll hi hl .., fbFinalize_openFrame hl .., openFrame_acc .., ?_, rfl, fun h0 => ?_⟩
  · rw [← toNat_openFrame_flen hl cmd len a1 a2 s]
    exact Memory.read_write_same ..
  · rw [← fbClear_fbuf, ← fbClear_flen, fbClear_putChecksum_openFrame hi hl, h0, frameFrom_zero]
    refine readBytes_afterFrame ?_ s
    rw [← frameFrom_zero, length_frameFrom, Config.frameCapacity]
    omega

end Sys2Proof.Machine
end

section
/-! SUPPORT. What the Sequencer fetches, said once, and that a placed word is fetched (10_state.md R21; 30_encoding.md
R64, R67; 43_sequencer.md R122 to R127). -/

namespace Sys2Proof.Machine

/-! ### What is fetched -/

/-- Everything a state can fetch: the command of its phase, or the acknowledgment that arrived. -/
inductive Fetched (s : State) : Instr → Prop
  | erase : Fetched s .erase
  | program (hm : s.offset.toNat < s.ilen.toNat) : Fetched s (.program s.offset (nextChunkByte s))
  | verify (hm : s.offset.toNat < s.ilen.toNat) : Fetched s (.verify s.offset (nextChunkByte s))
  | endCmd : Fetched s .endCmd
  | ackOk (reserved : Byte) : Fetched s (.ackOk reserved)
  | ackFail (status reserved : Byte) (hs : status ≠ 0) : Fetched s (.ackFail status reserved)

/-- The acknowledgment of any two bytes may be fetched. -/
theorem fetched_ackInstr (s : State) (status reserved : Byte) : Fetched s (ackInstr status reserved) := by
  unfold ackInstr
  split
  · exact .ackOk reserved
  · exact .ackFail status reserved ‹_›

/-- The command of a phase carries `OFFSET`, and a chunk only while the image has more (43_sequencer.md R124, R126). -/
theorem nextCommand_some {s : State} {i : Instr} (h : nextCommand s = some i) : Fetched s i := by
  unfold nextCommand at h
  split at h
  · cases h
  · cases h
    exact .erase
  · split at h
    · rename_i hm
      cases h
      exact .program (of_decide_eq_true hm)
    · cases h
  · split at h
    · rename_i hm
      cases h
      exact .verify (of_decide_eq_true hm)
    · cases h
      exact .endCmd
  · cases h
    exact .endCmd
  · cases h
  · cases h

/-- The inversion of `fetch`. -/
theorem fetch_some {s : State} {i : Instr} (h : fetch s = some i) : Fetched s i := by
  unfold fetch at h
  split at h
  · exact nextCommand_some h
  · cases h
  · split at h
    · obtain ⟨status, reserved, _, _, _, rfl⟩ := arrivedAck_some h
      exact fetched_ackInstr s status reserved
    · cases h

/-- Settles O4: bytes 4 and 5 are the address bytes, and a fetched chunk stands at `OFFSET`. -/
theorem addressIsLittleEndianOffset : Obligations.AddressIsLittleEndianOffset := by
  refine ⟨fun off n => ?_, fun s off n hf => ?_, rfl, rfl, rfl, rfl⟩
  · rw [← arg1Of_eq_ofNat, ← arg2Of_eq_ofNat]
    exact ⟨rfl, rfl, rfl, rfl⟩
  · rcases hf with hf | hf
    · cases fetch_some hf
      rfl
    · cases fetch_some hf
      rfl

/-! ### What is fetched is well formed -/

/-- The next chunk inside the image keeps R67's constraints and R112's ranges. -/
theorem PassInRange.nextChunk_inSession {s : State} (hs : PassInRange s) (hm : s.offset.toNat < s.ilen.toNat) :
    chunkDefect s.offset (nextChunkByte s) = none ∧
      chunkRangeDefect s.offset (nextChunkByte s) s.ilen.toNat = none := by
  obtain ⟨hcap, _, hstart, _⟩ := hs
  rw [eq_setWidth_ilen_iff] at hstart
  simp only [Config.capacity, Config.maxPayload] at hcap hstart
  rw [chunkDefect_none, chunkRangeDefect_none, toNat_nextChunkByte, nextChunk, Config.maxPayload]
  omega

/-- What is fetched in range is in session. -/
theorem Fetched.inSession {s : State} {i : Instr} (h : Fetched s i) (hs : PassInRange s) :
    i.InSession s.ilen.toNat := by
  cases h with
  | program hm => exact hs.nextChunk_inSession hm
  | verify hm => exact hs.nextChunk_inSession hm
  | ackFail _ _ hst => exact ⟨ackFail_wellFormed.2 hst, rfl⟩
  | _ => exact ⟨rfl, rfl⟩

/-- A fetched chunk, of at most 60 bytes, ends inside the image; Erase and End carry none. -/
theorem Fetched.payload_inside {s : State} {i : Instr} (h : Fetched s i) (hs : s.offset.toNat ≤ s.ilen.toNat) :
    payloadLength i ≤ 60 ∧ s.offset.toNat + payloadLength i ≤ s.ilen.toNat := by
  have hchunk : (nextChunkByte s).toNat ≤ 60 ∧ s.offset.toNat + (nextChunkByte s).toNat ≤ s.ilen.toNat := by
    rw [toNat_nextChunkByte, nextChunk, Config.maxPayload]
    omega
  cases h with
  | program => exact hchunk
  | verify => exact hchunk
  | _ => exact ⟨Nat.zero_le _, hs⟩

/-- Settles O24: the loop test leaves a chunk of 1 to 60 bytes that starts on the grid and ends inside the image. -/
theorem fetchedIsWellFormed : Obligations.FetchedIsWellFormed := by
  intro s i hs hf
  have hi := fetch_some hf
  obtain ⟨_, hle, _⟩ := id hs
  obtain ⟨h60, hin⟩ := hi.payload_inside hle
  exact ⟨hi.inSession hs, h60, fun _ => hin⟩

/-! ### Placed words -/

/-- A word that decodes is that of a well-formed instruction. -/
theorem decodeTableWord_wellFormed {nbits w : Nat} {i : Instr} (h : decodeTableWord nbits w = some i) :
    i.WellFormed := by
  unfold decodeTableWord at h
  split at h
  · rename_i hd
    cases h
    exact (decodedBytesAreCanonical _ _ _ _ hd).1
  · cases h

/-- A write pass with more to send fetches the next chunk's Program (43_sequencer.md R124). -/
theorem fetch_program {s : State} (hp : s.phase = .writingFirmware) (hr : s.rstep = .build)
    (hm : moreToSend s = true) : fetch s = some (.program s.offset (nextChunkByte s)) := by
  simp [fetch, nextCommand, hp, hr, hm]

/-- A verify pass with more to send fetches the next chunk's Verify (43_sequencer.md R126). -/
theorem fetch_verify {s : State} (hp : s.phase = .verifyingFirmware) (hr : s.rstep = .build)
    (hm : moreToSend s = true) : fetch s = some (.verify s.offset (nextChunkByte s)) := by
  simp [fetch, nextCommand, hp, hr, hm]

/-- A placed chunk is the last of its image, so it is the next one whole. -/
theorem placedChunk_next {off : BitVec 16} {n : Byte} (hw : chunkDefect off n = none) (s : State) :
    moreToSend (withZeroChunk off n s) = true ∧ nextChunkByte (withZeroChunk off n s) = n := by
  obtain ⟨h1, h60, hoff⟩ := chunkDefect_none.1 hw
  have hilen : (withZeroChunk off n s).ilen.toNat = off.toNat + n.toNat := by
    rw [withZeroChunk, BitVec.toNat_ofNat]
    omega
  have hoffset : (withZeroChunk off n s).offset = off := rfl
  refine ⟨?_, ?_⟩
  · rw [moreToSend, hilen, hoffset]
    exact decide_eq_true (by omega)
  · apply BitVec.eq_of_toNat_eq
    rw [toNat_nextChunkByte, nextChunk, hilen, hoffset, Config.maxPayload]
    omega

/-- Two bytes placed as the completion of the pending read are fetched (41_transport_guard.md R96). -/
theorem fetch_withArrival (status reserved : Byte) (s : State) :
    fetch (withArrival status reserved s) = some (ackInstr status reserved) :=
  fetch_arrived rfl rfl rfl rfl

/-- A placed well-formed instruction is fetched (log 23). -/
theorem fetch_placeInstr {i : Instr} (hw : i.WellFormed) (s : State) : fetch (placeInstr i s) = some i := by
  cases i with
  | erase => rfl
  | program off n =>
    obtain ⟨hm, hn⟩ := placedChunk_next hw (readyToSend .writingFirmware s)
    exact (fetch_program rfl rfl hm).trans (congrArg (fun k => some (Instr.program off k)) hn)
  | verify off n =>
    obtain ⟨hm, hn⟩ := placedChunk_next hw (readyToSend .verifyingFirmware s)
    exact (fetch_verify rfl rfl hm).trans (congrArg (fun k => some (Instr.verify off k)) hn)
  | endCmd => rfl
  | ackOk reserved => exact fetch_withArrival Config.ackOk reserved s
  | ackFail status reserved =>
    exact (fetch_withArrival status reserved s).trans (congrArg some (if_neg (ackFail_wellFormed.1 hw)))

/-- Settles O23: a word that decodes is placed as a well-formed instruction, which the next step fetches and runs. -/
theorem placedWordIsFetched : Obligations.PlacedWordIsFetched := by
  intro s nbits w i hd
  have hplaced : s.withFetchWord nbits w = placeInstr i s := by rw [State.withFetchWord, placeWord, hd]
  have hf : fetch (s.withFetchWord nbits w) = some i := by
    rw [hplaced]
    exact fetch_placeInstr (decodeTableWord_wellFormed hd) s
  exact ⟨hf, step_of_fetch hf⟩

end Sys2Proof.Machine
end

section
/-! SUPPORT. `RXBUF[1]` has no effect (30_encoding.md R69): two states that differ in `RXBUF` alone, and agree in its
byte 0, which alone `ACK.CHECK` examines (42_commands.md R117), move on alike. -/

namespace Sys2Proof.Machine

/-! ### Twins -/

/-- The second state is the first with another `RXBUF`, whose byte 0 is the same. -/
inductive Twin (s : State) : State → Prop
  | mk (m : Memory) (h0 : Memory.read m 0 = Memory.read s.rxbuf 0) : Twin s { s with rxbuf := m }

theorem Twin.refl (s : State) : Twin s s := .mk s.rxbuf rfl

theorem Twin.eq_but_rxbuf {s t : State} (h : Twin s t) : { t with rxbuf := s.rxbuf } = s := by
  cases h
  rfl

theorem Twin.phase_eq {s t : State} (h : Twin s t) : t.phase = s.phase := by
  cases h
  rfl

theorem Twin.rstep_eq {s t : State} (h : Twin s t) : t.rstep = s.rstep := by
  cases h
  rfl

theorem Twin.inbox_eq {s t : State} (h : Twin s t) : t.inbox = s.inbox := by
  cases h
  rfl

theorem Twin.ite {c : Prop} [Decidable c] {s t s' t' : State} (hs : Twin s s') (ht : Twin t t') :
    Twin (if c then s else t) (if c then s' else t') := by
  split
  · exact hs
  · exact ht

/-- Where the first answer is a next state, the second is a twin of it. -/
def Follows (o o' : Out) : Prop := ∀ t, o = .next t → ∃ t', o' = .next t' ∧ Twin t t'

theorem Follows.next {s s' : State} (h : Twin s s') : Follows (.next s) (.next s') := by
  intro t ht
  cases ht
  exact ⟨s', rfl, h⟩

/-- A refusal is no next state to follow. -/
theorem Follows.refused (r : Refusal) (o : Out) : Follows (.refused r) o := by
  intro t ht
  cases ht

theorem Follows.ite {c : Prop} [Decidable c] {a b a' b' : Out} (ha : Follows a a') (hb : Follows b b') :
    Follows (if c then a else b) (if c then a' else b') := by
  split
  · exact ha
  · exact hb

/-- An operation under a check that names its refusal. -/
theorem Follows.unless {c : Prop} [Decidable c] {r : Refusal} {a a' : Out} (ha : Follows a a') :
    Follows (if c then .refused r else a) (if c then .refused r else a') :=
  .ite (.refused r _) ha

/-- An operation with a premise, refused without it. -/
theorem Follows.when {c : Prop} [Decidable c] {r : Refusal} {a a' : Out} (ha : Follows a a') :
    Follows (if c then a else .refused r) (if c then a' else .refused r) :=
  .ite ha (.refused r _)

/-! ### Reactions to an outcome -/

theorem Twin.raise {s s' : State} (h : Twin s s') (kind : ErrKind) (status : Byte) :
    Twin (raise kind status s) (raise kind status s') := by
  obtain ⟨m, h0⟩ := h
  exact .mk m h0

/-- A validated acknowledgment moves twins on alike. -/
theorem Twin.roundSucceeds {s s' : State} (h : Twin s s') : Follows (roundSucceeds s) (roundSucceeds s') := by
  have hentered : Twin (enterWriting s) (enterWriting s') := by
    obtain ⟨m, h0⟩ := h
    exact .mk m h0
  have hcounted : Twin (countChunk s) (countChunk s') := by
    obtain ⟨m, h0⟩ := h
    exact .mk m h0
  simp only [Machine.roundSucceeds, h.phase_eq]
  cases s.phase with
  | erasing => exact .next hentered
  | writingFirmware => exact .next hcounted
  | verifyingFirmware => exact .next hcounted
  | _ => exact .refused _ _

/-- `ACK.CHECK` reads byte 0 alone, the same in twins (42_commands.md R117). -/
theorem Twin.ackCheck {s s' : State} (h : Twin s s') : Follows (ackCheck s) (ackCheck s') := by
  obtain ⟨m, h0⟩ := id h
  refine .when fun t ht => ?_
  obtain ⟨bytes, hallowed, hbytes, hreact⟩ := memRead_next ht
  have hsame : Memory.readBytes m 0 1 = Memory.readBytes s.rxbuf 0 1 :=
    Memory.readBytes_congr fun i _ hi => by rwa [show i = 0 by omega]
  obtain ⟨t', ht', htwin⟩ := Follows.ite h.roundSucceeds (.next (h.raise _ _)) t hreact
  refine ⟨t', ?_, htwin⟩
  exact (memRead_of_bytes (sp := .rxbuf) (s := { s with rxbuf := m }) hallowed (hsame.trans hbytes)).trans ht'

/-- The write of a frame is over: twins complete, or go on to the same read. -/
theorem Twin.frameSent {s s' : State} (h : Twin s s') : Follows (frameSent s) (frameSent s') := by
  have hread : Follows (tgRead s) (tgRead s') := by
    obtain ⟨m, h0⟩ := h
    exact .when (.next (.mk m h0))
  have hawaited : Follows (andThen (tgRead s) fun u => .next { u with rstep := .recv })
      (andThen (tgRead s') fun u => .next { u with rstep := .recv }) := by
    intro t ht
    obtain ⟨u, hu, hnext⟩ := andThen_next ht
    obtain ⟨u', hu', m, h0⟩ := hread u hu
    cases hnext
    rw [hu']
    exact ⟨_, rfl, .mk m h0⟩
  obtain ⟨m, h0⟩ := h
  exact .ite (.next (.mk m h0)) hawaited

/-- An outcome meets twins alike. -/
theorem Twin.deliver {s s' : State} (h : Twin s s') (g : GuardState) (o : CallOutcome) :
    Follows (deliver g o s) (deliver g o s') := by
  obtain ⟨m, h0⟩ := id h
  cases g with
  | idle => exact .refused _ _
  | writing =>
    refine .when ?_
    cases o with
    | success => exact h.frameSent
    | malformed => exact .refused _ _
    | _ => exact .next (h.raise _ _)
  | reading =>
    refine .when ?_
    cases o with
    | success => exact h.ackCheck
    | shortWrite => exact .refused _ _
    | _ => exact .next (h.raise _ _)

/-! ### Instructions -/

/-- A received block begins with its first byte. -/
theorem Memory.read_zero_writeBytes_cons (m : Memory) (b : Byte) (bs : List Byte) :
    Memory.read (Memory.writeBytes m 0 (b :: bs)) 0 = some b :=
  Memory.read_writeBytes_inside m 0 0 (b :: bs) (Nat.succ_pos _)

/-- The bytes a read brings are in both twins, and its first is byte 0 of both. -/
theorem Twin.endRead {s s' : State} (h : Twin s s') (bytes : List Byte) :
    Twin (endRead bytes s) (endRead bytes s') := by
  obtain ⟨m, h0⟩ := h
  refine .mk (Memory.writeBytes m 0 bytes) ?_
  cases bytes with
  | nil => exact h0
  | cons b bs =>
    rw [endRead_rxbuf, Memory.read_zero_writeBytes_cons, Memory.read_zero_writeBytes_cons]

/-- Twins send the same frame of a chunk. -/
theorem Twin.chunkRound {s s' : State} (h : Twin s s') (p : Phase) (cmd : Byte) (off : BitVec 16) (n : Byte) :
    Follows (chunkRound p cmd off n s) (chunkRound p cmd off n s') := by
  obtain ⟨m, h0⟩ := h
  intro t ht
  obtain ⟨payload, hp, hr, hi, hg, hn, hl, hb, rfl⟩ := chunkRound_next ht
  exact ⟨_, chunkRound_eq hp hr hi hg hn hl hb, .mk m h0⟩

/-- Twins receive the same acknowledgment. -/
theorem Twin.receiveAck {s s' : State} (h : Twin s s') (status reserved : Byte) :
    Follows (receiveAck status reserved s) (receiveAck status reserved s') := by
  have hread := h.endRead [status, reserved]
  obtain ⟨m, h0⟩ := h
  exact .when (hread.deliver .reading .success)

/-- Every instruction moves twins on alike. -/
theorem Twin.exec {s s' : State} (h : Twin s s') (i : Instr) : Follows (exec i s) (exec i s') := by
  cases i with
  | erase =>
    obtain ⟨m, h0⟩ := h
    intro t ht
    obtain ⟨hp, hr, hi, hg, rfl⟩ := execErase_next ht
    exact ⟨_, execErase_eq hp hr hi hg, .mk m h0⟩
  | program off n => exact h.chunkRound _ _ off n
  | verify off n => exact h.chunkRound _ _ off n
  | endCmd =>
    obtain ⟨m, h0⟩ := h
    intro t ht
    obtain ⟨hp, hr, hi, hg, rfl⟩ := execEnd_next ht
    exact ⟨_, execEnd_eq hp hr hi hg, .mk m h0⟩
  | ackOk reserved => exact h.receiveAck _ reserved
  | ackFail status reserved => exact h.receiveAck status reserved

/-! ### Events -/

theorem Twin.tgTick {s s' : State} (h : Twin s s') : Twin (tgTick s) (tgTick s') := by
  obtain ⟨m, h0⟩ := h
  exact .ite (.mk m h0) (.mk m h0)

theorem Twin.endWrite {s s' : State} (h : Twin s s') (n : Nat) (err : Bool) :
    Twin (endWrite n err s) (endWrite n err s') := by
  obtain ⟨m, h0⟩ := h
  cases err with
  | false => exact .mk m h0
  | true => exact .mk m h0

theorem Twin.startOn {s s' : State} (h : Twin s s') (bytes : List Byte) :
    Twin (startOn bytes s) (startOn bytes s') := by
  obtain ⟨m, h0⟩ := h
  exact .ite (.mk m h0) (.mk m h0)

/-- A reset forgets `RXBUF` (70_reset_and_hazards.md R170). -/
theorem Twin.resetBlock_eq {s s' : State} (h : Twin s s') : resetBlock s' = resetBlock s := by
  obtain ⟨m, h0⟩ := h
  unfold Machine.resetBlock
  dsimp only
  split
  · rfl
  · rfl

theorem Twin.tgExpire {s s' : State} (h : Twin s s') : Follows (tgExpire s) (tgExpire s') := by
  obtain ⟨m, h0⟩ := h
  exact .when (Twin.deliver (s := abandonCall (acceptDrawn s.callid s)) (.mk m h0) s.tgst .timeout)

theorem Twin.tgLate {s s' : State} (h : Twin s s') (id : Nat) : Follows (tgLate id s) (tgLate id s') := by
  obtain ⟨m, h0⟩ := h
  exact .ite (.next (.mk m h0)) (.unless (.when (.next (.mk m h0))))

/-- Every event moves twins on alike. -/
theorem Twin.takeEvent {s s' : State} (h : Twin s s') (e : Event) : Follows (takeEvent e s) (takeEvent e s') := by
  obtain ⟨m, h0⟩ := id h
  cases e with
  | fbClear => exact .unless (.next (.mk m h0))
  | fbHeader => exact .unless (.when (.next (.mk m h0)))
  | fbAppend => exact .unless (.when (.when (.next (.mk m h0))))
  | fbFinalize => exact .unless (.when (.when (.next (.mk m h0))))
  | tick => exact .next h.tgTick
  | expire => exact h.tgExpire
  | wdone id n err => exact .ite (.unless ((h.endWrite n err).deliver .writing _)) (h.tgLate id)
  | rdone id bytes eof err => exact .ite (.unless ((h.endRead bytes).deliver .reading _)) (h.tgLate id)
  | late id => exact h.tgLate id
  | seqStart src =>
    exact .unless (.unless (.unless (.unless (.unless (.unless (.next (h.startOn src.bytes)))))))
  | result => exact .next (.mk m h0)
  | openTransport => exact .unless (.next (.mk m h0))
  | closeTransport => exact .unless (.next (.mk m h0))
  | reset =>
    refine .next ?_
    rw [h.resetBlock_eq]
    exact .refl _

/-! ### The step -/

theorem Twin.timerMoves {s s' : State} (h : Twin s s') : Follows (timerMoves s) (timerMoves s') := by
  have htick := h.tgTick
  have hexpire := h.tgExpire
  obtain ⟨m, h0⟩ := h
  exact .ite (.next htick) hexpire

/-- With nothing to send, twins take the same event, or the Timer's move, or wait. -/
theorem Twin.awaitEvent {s s' : State} (h : Twin s s') : Follows (awaitEvent s) (awaitEvent s') := by
  have htaken : ∀ rest, Twin { s with inbox := rest } { s' with inbox := rest } := by
    obtain ⟨m, h0⟩ := h
    exact fun _ => .mk m h0
  have hmoves := h.timerMoves
  simp only [Machine.awaitEvent, h.inbox_eq]
  cases s.inbox with
  | nil =>
    obtain ⟨m, h0⟩ := h
    exact .ite (.next (.mk m h0)) hmoves
  | cons e rest => exact (htaken rest).takeEvent e

theorem Twin.fetch_eq {s s' : State} (h : Twin s s') : fetch s' = fetch s := by
  cases h
  rfl

theorem Twin.prepare {s s' : State} (h : Twin s s') : Twin (prepare s) (prepare s') := by
  simp only [Machine.prepare, h.rstep_eq]
  cases s.rstep with
  | build =>
    obtain ⟨m, h0⟩ := h
    exact .ite (.mk m h0) (.mk m h0)
  | send => exact h
  | recv =>
    obtain ⟨m, h0⟩ := h
    exact .mk m h0

/-- Every step moves twins on alike. -/
theorem Twin.step {s s' : State} (h : Twin s s') : Follows (step s) (step s') := by
  unfold Machine.step
  rw [h.fetch_eq]
  cases fetch s with
  | some i => exact h.prepare.exec i
  | none =>
    obtain ⟨m, h0⟩ := id h
    exact .ite (.next (.mk m h0)) h.awaitEvent

/-- Whatever is written to `RXBUF[1]` makes a twin. -/
theorem twin_write_reserved (s : State) (r : Byte) : Twin s { s with rxbuf := Memory.write s.rxbuf 1 r } :=
  .mk _ (Memory.read_write_other s.rxbuf 1 0 r (by decide))

/-! ### The reserved byte of an acknowledgment -/

/-- The received bytes of an acknowledgment are twins, whatever the reserved byte. -/
theorem twin_endRead_reserved (status r1 r2 : Byte) (s : State) :
    Twin (endRead [status, r1] s) (endRead [status, r2] s) := by
  refine .mk (Memory.writeBytes s.rxbuf 0 [status, r2]) ?_
  rw [endRead_rxbuf, Memory.read_zero_writeBytes_cons, Memory.read_zero_writeBytes_cons]

/-- The reaction to an outcome leaves `RXBUF` alone. -/
theorem Delivered.rxbuf_eq {g : GuardState} {o : CallOutcome} {s t : State} (h : Delivered g o s t) :
    t.rxbuf = s.rxbuf := by
  cases h <;> rfl

/-- What `RXBUF` holds after an acknowledgment: its status, then its reserved byte (41_transport_guard.md R96). -/
theorem rxbuf_of_receiveAck {status reserved : Byte} {s t : State} (h : receiveAck status reserved s = .next t) :
    t.rxbuf = Memory.write (Memory.write s.rxbuf 0 status) 1 reserved :=
  (receiveAck_next h).2.rxbuf_eq

/-- Settles O18: the two bytes received make twins, and twins stay twins at every step. -/
theorem reservedByteHasNoEffect : Obligations.ReservedByteHasNoEffect := by
  refine ⟨fun status r1 r2 s t1 h1 => ?_, fun s t r hst => ?_⟩
  · rw [exec_ackInstr] at h1
    have hfollows : Follows (receiveAck status r1 s) (receiveAck status r2 s) :=
      .when ((twin_endRead_reserved status r1 r2 s).deliver .reading .success)
    obtain ⟨t2, h2, htwin⟩ := hfollows t1 h1
    have hrx1 := rxbuf_of_receiveAck h1
    have hrx2 := rxbuf_of_receiveAck h2
    refine ⟨t2, (exec_ackInstr ..).trans h2, htwin.eq_but_rxbuf, ?_, ?_, fun a ha => ?_⟩
    · rw [readByte, spaceOf, hrx1, Memory.read_write_same]
    · rw [readByte, spaceOf, hrx2, Memory.read_write_same]
    · rw [readByte, readByte, spaceOf, spaceOf, hrx1, hrx2, Memory.read_write_other _ _ _ _ ha,
        Memory.read_write_other _ _ _ _ ha]
  · obtain ⟨u, hu, htwin⟩ := (twin_write_reserved s r).step t hst
    exact ⟨u, hu, htwin.eq_but_rxbuf⟩

end Sys2Proof.Machine
end

section
/-! SUPPORT. The Frame Builder's operations one by one and in turn (40_frame_builder.md R80 to R89), and the builder at
rest between the steps of a session (R88; 92_eei_decisions.md D11). -/

namespace Sys2Proof.Machine

/-! ### The builder at rest -/

/-- A builder whose accumulator is clear and whose frame is closed is at rest in any phase. -/
theorem builderAtRest_of_clear {s : State} (hacc : s.acc = 0) (hi : s.fbst = .idle) : BuilderAtRest s :=
  ⟨fun _ => ⟨hacc, hi⟩, fun _ => hi⟩

/-- With no session and no round in progress the builder is its user's own (10_state.md R38; log 18). -/
theorem builderAtRest_of_not_busy {s : State} (hb : busy s.phase = false) (hr : s.rstep = .build) :
    BuilderAtRest s :=
  ⟨fun h => absurd h (by simp [hb]), fun hn => absurd hr hn⟩

/-- No round is in progress outside a session (60_exceptions.md R157). -/
theorem GuardMatchesRound.build_of_not_busy {s : State} (hg : GuardMatchesRound s) (hb : busy s.phase = false) :
    s.rstep = .build := by
  obtain ⟨hidle, _⟩ := id hg
  exact hidle.1 (hg.idle_of_not_busy hb)

/-- An outcome is delivered to a running session alone. -/
theorem Delivered.busy_before {g : GuardState} {o : CallOutcome} {s t : State} (h : Delivered g o s t) :
    busy s.phase = true := by
  cases h with
  | failed _ _ hb => exact hb
  | completed _ _ _ hp => rw [hp]; rfl
  | sent _ _ _ hb => exact hb
  | erased _ _ _ hp => rw [hp]; rfl
  | counted _ _ _ hp => rcases hp with hp | hp <;> rw [hp] <;> rfl

/-- The reaction to an outcome leaves the builder alone. -/
theorem Delivered.builderAtRest {g : GuardState} {o : CallOutcome} {s t : State} (h : Delivered g o s t)
    (hs : BuilderAtRest s) : BuilderAtRest t := by
  obtain ⟨hacc, hi⟩ := hs.1 h.busy_before
  cases h <;> exact builderAtRest_of_clear hacc hi

/-- An event moves the builder by a bare operation outside a session, or clears it at a start or a reset. -/
theorem Taken.builderAtRest {e : Event} {s t : State} (h : Taken s e t) (hg : GuardMatchesRound s)
    (hs : BuilderAtRest s) : BuilderAtRest t := by
  cases h with
  | cleared hb => exact builderAtRest_of_not_busy hb (hg.build_of_not_busy hb)
  | headed _ _ _ _ hb => exact builderAtRest_of_not_busy hb (hg.build_of_not_busy hb)
  | appended _ hb => exact builderAtRest_of_not_busy hb (hg.build_of_not_busy hb)
  | finalized hb => exact builderAtRest_of_not_busy hb (hg.build_of_not_busy hb)
  | ticked => exact tgTick_keeps fun _ _ => hs
  | expired _ _ _ hd => exact hd.builderAtRest hs
  | written _ _ _ _ _ hd => exact hd.builderAtRest (endWrite_keeps fun _ _ _ => hs)
  | received _ _ _ _ _ _ hd => exact hd.builderAtRest hs
  | started _ _ hi => exact startOn_keeps (builderAtRest_of_clear rfl hi) fun _ => builderAtRest_of_clear rfl hi
  | restarted => exact builderAtRest_of_clear rfl rfl
  | _ => exact hs

/-- Settles O57: a sent frame leaves the accumulator clear and no frame open, a bare operation is admitted outside a
session alone, and a start finds no frame open. -/
theorem stepKeepsBuilderAtRest : Obligations.StepKeepsBuilderAtRest := by
  intro s t hg hs hst
  cases step_form hst with
  | sent => exact builderAtRest_of_clear rfl rfl
  | verifying hp =>
    obtain ⟨hacc, hi⟩ := hs.1 (by rw [hp]; rfl)
    exact builderAtRest_of_clear hacc hi
  | taken _ _ _ _ ht => exact ht.builderAtRest hg hs
  | waited => exact hs

/-! ### A whole frame -/

theorem length_frameBytes (cmd len a1 a2 : Byte) (payload : List Byte) :
    (frameBytes cmd len a1 a2 payload).length = 7 + payload.length := by
  rw [← frameFrom_zero, length_frameFrom]

/-- `FLEN` counts the finished frame. -/
theorem toNat_afterFrame_flen {frame : List Byte} (hl : frame.length ≤ Config.frameCapacity) (s : State) :
    (afterFrame frame s).flen.toNat = frame.length :=
  Nat.mod_eq_of_lt (Nat.lt_of_le_of_lt hl (by decide))

/-- A frame built from rest changes `FBUF` and `FLEN` alone. -/
theorem afterFrame_eq_but_fbuf_flen {s : State} (hi : s.fbst = .idle) (hacc : s.acc = 0) (frame : List Byte) :
    { afterFrame frame s with fbuf := s.fbuf, flen := s.flen } = s := by
  cases s
  cases hi
  cases hacc
  rfl

/-- Settles O7: `FB.FRAME` writes `FBUF`, `FLEN`, `ACC` and `FBST` alone, and the last two end as they began. -/
theorem frameBuilderBuildsFrame : Obligations.FrameBuilderBuildsFrame := by
  intro cmd len a1 a2 payload s hi hacc hl
  have hlen := length_frameBytes cmd len a1 a2 payload
  have hcap : (frameBytes cmd len a1 a2 payload).length ≤ Config.frameCapacity := by
    rw [hlen, Config.frameCapacity]
    omega
  refine ⟨afterFrame (frameBytes cmd len a1 a2 payload) s, ?_, readBytes_afterFrame hcap s,
    (toNat_afterFrame_flen hcap s).trans hlen, rfl, rfl, fun a ha => ?_, afterFrame_eq_but_fbuf_flen hi hacc _⟩
  · rw [fbFrame_eq _ _ _ _ _ _ hi hl, hacc, frameFrom_zero]
  · exact Memory.read_writeBytes_outside _ _ _ _ (.inr (by omega))

/-! ### A frame over an uncleared accumulator -/

/-- A finalised frame in the buffer starts its checksum from the accumulator it found (40_frame_builder.md R87). -/
theorem readBytes_putChecksum_openFrame {payload : List Byte} {s : State} (hi : s.fbst = .idle)
    (hl : payload.length ≤ 60) (cmd len a1 a2 : Byte) :
    let v := putChecksum (openFrame cmd len a1 a2 payload s)
    Memory.readBytes v.fbuf 0 v.flen.toNat = some (frameFrom s.acc cmd len a1 a2 payload) := by
  dsimp only
  rw [← fbClear_fbuf, ← fbClear_flen, fbClear_putChecksum_openFrame hi hl]
  refine readBytes_afterFrame ?_ s
  rw [length_frameFrom, Config.frameCapacity]
  omega

/-- The last byte of a frame is the accumulator it found plus the sum of its own bytes. -/
theorem getLast?_frameFrom (a0 cmd len a1 a2 : Byte) (payload : List Byte) :
    (frameFrom a0 cmd len a1 a2 payload).getLast? = some (a0 + sumBytes ([cmd, len, a1, a2] ++ payload)) := by
  simp [frameFrom, BitVec.add_assoc]

/-- Only an accumulator of 0 gives the right frame (40_frame_builder.md R87). -/
theorem frameFrom_eq_frameBytes_iff (a0 cmd len a1 a2 : Byte) (payload : List Byte) :
    frameFrom a0 cmd len a1 a2 payload = frameBytes cmd len a1 a2 payload ↔ a0 = 0 := by
  refine ⟨fun h => ?_, fun h => by rw [h, frameFrom_zero]⟩
  have hlast := congrArg List.getLast? h
  rw [← frameFrom_zero, getLast?_frameFrom, getLast?_frameFrom] at hlast
  simpa using hlast

/-- Settles O9: the second frame finds the first one's sum in the accumulator, and its checksum starts from it. -/
theorem unclearedAccumulatorContaminates : Obligations.UnclearedAccumulatorContaminates := by
  intro c1 l1 a1 b1 c2 l2 a2 b2 p1 p2 s hi hacc hl1 hl2
  have hfound : (putChecksum (openFrame c1 l1 a1 b1 p1 s)).acc = sumBytes ([c1, l1, a1, b1] ++ p1) := by
    rw [putChecksum_acc, openFrame_acc, hacc]
    exact BitVec.zero_add _
  have hbytes := readBytes_putChecksum_openFrame (s := putChecksum (openFrame c1 l1 a1 b1 p1 s)) rfl hl2 c2 l2 a2 b2
  rw [hfound] at hbytes
  exact ⟨_, _, _, andThen_fbHeader_fbAppendAll hi hl1 ..,
    ⟨_, fbFinalize_openFrame hl1 .., andThen_fbHeader_fbAppendAll rfl hl2 ..⟩,
    fbFinalize_openFrame hl2 .., _, hbytes, getLast?_frameFrom .., frameFrom_eq_frameBytes_iff ..⟩

/-! ### One append, and the refused orders -/

/-- `FB.APPEND` to an open frame with room (40_frame_builder.md R82). -/
theorem fbAppend_eq {s : State} (ho : s.fbst = .opened) (hl : s.flen.toNat ≤ 65) (b : Byte) :
    fbAppend b s = .next (putPayloadByte b s) := by
  rw [fbAppend, if_pos ho, if_pos hl]

/-- Settles O10: the append writes at `FLEN`, which has room to grow, and adds in 8 bits. -/
theorem appendAddsOneByte : Obligations.AppendAddsOneByte := fun b s ho hl =>
  ⟨putPayloadByte b s, fbAppend_eq ho hl b, toNat_flen_succ (by omega), BitVec.toNat_add s.acc b,
    Memory.read_write_same .., fun a ha => Memory.read_write_other s.fbuf _ a b ha, rfl⟩

/-- Settles O11: each operation checks `FBST` first, the append then its room, and a bare operation the session. -/
theorem builderOrdersRefused : Obligations.BuilderOrdersRefused := by
  intro cmd len a1 a2 b s
  refine ⟨fun ho => ?_, fun hi => ?_, fun ho h66 => ?_, fun hi => ?_, fun hb => ?_⟩
  · simp [fbHeader, ho]
  · simp [fbAppend, hi]
  · simp [fbAppend, ho, h66]
  · simp [fbFinalize, hi]
  · simp [takeEvent, bareBuilder, hb]

end Sys2Proof.Machine
end

section
/-! SUPPORT. How a call ends (41_transport_guard.md R94 to R97): the delivered outcome, the state an expiry and a late
completion leave, and the Timer's own moves (R93, R100). -/

namespace Sys2Proof.Machine

/-! ### The awaited outcome -/

/-- The Sequencer awaits the outcome of a call of kind `g`: a write's at `S_SEND`, a read's at `S_RECV` (42_commands.md
R110). -/
def Awaits (g : GuardState) (s : State) : Prop :=
  (g = .writing ∧ s.rstep = .send ∧ busy s.phase = true) ∨
    (g = .reading ∧ s.rstep = .recv ∧ awaitsAck s.phase = true)

/-- A pending call's outcome is awaited (60_exceptions.md R157). -/
theorem GuardMatchesRound.awaits {s : State} (h : GuardMatchesRound s) (hp : s.tgst ≠ .idle) : Awaits s.tgst s := by
  have hb := h.busy_of_pending hp
  obtain ⟨_, hwriting, hreading, _, hack, _⟩ := h
  cases hg : s.tgst with
  | idle => exact absurd hg hp
  | writing => exact .inl ⟨rfl, hwriting.1 hg, hb⟩
  | reading => exact .inr ⟨rfl, hreading.1 hg, hack (hreading.1 hg)⟩

theorem Awaits.not_build {g : GuardState} {s : State} (h : Awaits g s) : s.rstep ≠ .build := by
  obtain ⟨_, hr, _⟩ | ⟨_, hr, _⟩ := h <;> simp [hr]

theorem Awaits.pending {s : State} (h : Awaits s.tgst s) : s.tgst ≠ .idle := by
  obtain ⟨hg, _⟩ | ⟨hg, _⟩ := h <;> simp [hg]

/-- A phase that awaits an acknowledgment belongs to a session. -/
theorem busy_of_awaitsAck {p : Phase} (h : awaitsAck p = true) : busy p = true := by
  revert h
  cases p <;> simp [awaitsAck, busy]

/-- The outcome of a write, delivered where it is awaited. -/
theorem deliver_writing {s : State} (hr : s.rstep = .send) (hb : busy s.phase = true) (o : CallOutcome) :
    deliver .writing o s = afterWrite o s :=
  if_pos ⟨hr, hb⟩

/-- The outcome of a read, delivered where it is awaited. -/
theorem deliver_reading {s : State} (hr : s.rstep = .recv) (ha : awaitsAck s.phase = true) (o : CallOutcome) :
    deliver .reading o s = afterRead o s :=
  if_pos ⟨hr, ha⟩

/-- An awaited call that times out fails the session (42_commands.md R110, 60_exceptions.md R142). -/
theorem deliver_timeout {g : GuardState} {s : State} (h : Awaits g s) :
    deliver g .timeout s = .next (raise .transportTimeout 0 s) := by
  obtain ⟨rfl, hr, hb⟩ | ⟨rfl, hr, ha⟩ := h
  · exact deliver_writing hr hb _
  · exact deliver_reading hr ha _

/-- A failure raised over a state that differs from `s` in no phase and no offset, and has no call pending, is one of a
round of `s` (60_exceptions.md R150). -/
theorem failedWith_raise {s u : State} {kind : ErrKind} {status : Byte} (hp : u.phase = s.phase) (hg : u.tgst = .idle)
    (ho : u.offset = s.offset) (hs : kind = .deviceRejected ∨ status = 0) :
    FailedWith kind status s (raise kind status u) := by
  refine ⟨rfl, rfl, congrArg phaseTag hp, ?_, rfl, hg, ho⟩
  rcases hs with rfl | rfl
  · rfl
  · exact ite_self 0

/-! ### The step of a round that waits -/

/-- In a round with no acknowledgment to run, a step awaits the next event. -/
theorem step_awaits {s : State} (hr : s.rstep ≠ .build) (hf : fetch s = none) : step s = awaitEvent s := by
  simp [step, hf, withoutInstr, hr]

theorem fetch_of_no_ack {s : State} (hr : s.rstep ≠ .build) (ha : arrivedAck s = none) : fetch s = none := by
  cases h : s.rstep with
  | build => exact absurd h hr
  | send => simp [fetch, h]
  | recv => simp [fetch, h, ha]

theorem awaitEvent_queued {s : State} {e : Event} {rest : List Event} (hq : s.inbox = e :: rest) :
    awaitEvent s = takeEvent e { s with inbox := rest } := by
  simp [awaitEvent, hq]

/-! ### The expiry -/

/-- The state an expiry leaves: the call abandoned, a part of its bytes accepted, the session failed
(41_transport_guard.md R94, R103). -/
def timedOut (s : State) : State := raise .transportTimeout 0 (abandonCall (acceptDrawn s.callid s))

/-- The expiry of an awaited call with no time left (41_transport_guard.md R94). -/
theorem takeEvent_expire {s : State} (h : Awaits s.tgst s) (hz : s.timer = 0) :
    takeEvent .expire s = .next (timedOut s) :=
  (if_pos ⟨h.pending, hz⟩).trans (deliver_timeout h)

/-- An expiry with no call pending, or with time left, is refused (41_transport_guard.md R94). -/
theorem takeEvent_expire_refused {s : State} (h : s.tgst = .idle ∨ 0 < s.timer) :
    takeEvent .expire s = .refused .notExpired := by
  refine if_neg fun ⟨hp, hz⟩ => ?_
  rcases h with hi | hlt
  · exact hp hi
  · omega

theorem failedWith_timedOut (s : State) : FailedWith .transportTimeout 0 s (timedOut s) :=
  failedWith_raise rfl rfl rfl (.inr rfl)

theorem mem_stragglers_timedOut {s : State} {u : Nat} :
    u ∈ (timedOut s).stragglers ↔ u = s.callid ∨ u ∈ s.stragglers :=
  mem_insertTag

/-- An expiry writes no byte of a space (41_transport_guard.md R94). -/
theorem readByte_timedOut (sp : Space) (a : Nat) (s : State) : readByte sp a (timedOut s) = readByte sp a s := by
  cases sp <;> simp [readByte, spaceOf, timedOut]

/-- Accepted bytes leave a call under its tag (41_transport_guard.md R91, R103). -/
theorem map_tag_map_advanceCall (id k : Nat) (cs : List Call) :
    (cs.map (advanceCall id k)).map Call.tag = cs.map Call.tag := by
  rw [List.map_map]
  refine List.map_congr_left fun c _ => ?_
  simp only [Function.comp_apply, advanceCall]
  split <;> rfl

/-- Settles O33: the expiry is taken from the queue, abandons the call and raises the timeout over it. -/
theorem expiryAbandonsCall : Obligations.ExpiryAbandonsCall := by
  intro s rest hg hp hz hq
  have hw := hg.awaits hp
  have hf : fetch s = none := fetch_of_no_ack hw.not_build (by simp [arrivedAck, hq])
  have hstep : step s = .next (timedOut { s with inbox := rest }) := by
    rw [step_awaits hw.not_build hf, awaitEvent_queued hq]
    exact takeEvent_expire hw hz
  have htags : (timedOut { s with inbox := rest }).calls.map Call.tag = s.calls.map Call.tag :=
    map_tag_map_advanceCall ..
  refine ⟨_, hstep, failedWith_timedOut { s with inbox := rest },
    fun _ => mem_stragglers_timedOut (s := { s with inbox := rest }), fun sp a => readByte_timedOut sp a _,
    ?_, ?_, ?_, htags⟩ <;> simp [timedOut]

/-! ### The Timer -/

theorem tgTick_timer (s : State) : (tgTick s).timer = if s.tgst = .idle then s.timer else s.timer - 1 := by
  unfold tgTick
  by_cases hi : s.tgst = .idle
  · simp [hi]
  · rw [if_neg hi]
    split
    · rfl
    · next hz =>
      have : ¬ 0 < s.timer := fun hlt => hz ⟨hi, hlt⟩
      omega

/-- Settles O37: a tick moves the timer alone, and only while a call is pending. -/
theorem tickCountsDown : Obligations.TickCountsDown := by
  refine fun s => ⟨tgTick s, rfl, ?_, fun hp => ?_, fun hi => ?_⟩
  · exact tgTick_keeps (P := fun t => { t with timer := s.timer } = s) fun _ _ => rfl
  · rw [tgTick_timer, if_neg hp]
  · rw [tgTick_timer, if_pos hi]

/-- With nothing queued and a call pending, a step is a move of the Timer (41_transport_guard.md R100; log 3). -/
theorem step_timerMoves {s : State} (h : Awaits s.tgst s) (hq : s.inbox = []) : step s = timerMoves s := by
  have hf : fetch s = none := fetch_of_no_ack h.not_build (by simp [arrivedAck, hq])
  rw [step_awaits h.not_build hf]
  simp [awaitEvent, hq, h.pending]

/-- The time left runs out in as many steps, and the next is the expiry. -/
theorem runSteps_until_timeout (k : Nat) (s : State) (h : Awaits s.tgst s) (hq : s.inbox = []) (hk : s.timer = k) :
    runSteps (k + 1) s = .next (timedOut { s with timer := 0 }) := by
  induction k generalizing s with
  | zero =>
    have hstep : step s = .next (timedOut s) := by
      rw [step_timerMoves h hq, timerMoves, if_neg (by omega)]
      exact takeEvent_expire h hk
    have hsame : { s with timer := 0 } = s := by
      cases s
      cases hk
      rfl
    rw [runSteps, hstep, hsame]
    rfl
  | succ k ih =>
    have hstep : step s = .next { s with timer := s.timer - 1 } := by
      rw [step_timerMoves h hq, timerMoves, if_pos (by omega), tgTick, if_pos ⟨h.pending, by omega⟩]
    rw [runSteps, hstep]
    exact ih { s with timer := s.timer - 1 } h hq (by simp [hk])

/-- Settles O38: each step ticks while time is left, and the expiry of the last abandons the call. -/
theorem pendingCallTimesOut : Obligations.PendingCallTimesOut := by
  intro s hg hp hq
  exact ⟨_, runSteps_until_timeout s.timer s (hg.awaits hp) hq rfl, failedWith_timedOut _,
    mem_stragglers_timedOut.2 (.inl rfl), rfl⟩

/-! ### The late completion -/

/-- A completion that names no pending call is a late one, whatever its form (41_transport_guard.md R95, R96; log 26). -/
theorem takeEvent_completion {e : Event} {id : Nat} {s : State} (he : completionTag e = some id)
    (hn : s.tgst = .idle ∨ id ≠ s.callid) : takeEvent e s = tgLate id s := by
  have hnot (g : GuardState) (hg : g ≠ .idle) : ¬(s.tgst = g ∧ id = s.callid) := by
    rintro ⟨rfl, hid⟩
    exact hn.elim hg fun h => h hid
  cases e with
  | wdone => cases he; exact if_neg (hnot .writing nofun)
  | rdone => cases he; exact if_neg (hnot .reading nofun)
  | late => cases he; rfl
  | _ => cases he

/-- The state the late completion of an abandoned call leaves (41_transport_guard.md R97, R103). -/
def straggled (id : Nat) (s : State) : State := { endLate id s with stragglers := removeTag id s.stragglers }

/-- The late completion of an abandoned call (41_transport_guard.md R97). -/
theorem takeEvent_straggled {e : Event} {id : Nat} {s : State} (he : completionTag e = some id)
    (hm : id ∈ s.stragglers) (hn : s.tgst = .idle ∨ id ≠ s.callid) : takeEvent e s = .next (straggled id s) := by
  rw [takeEvent_completion he hn, tgLate, if_pos hm]
  rfl

theorem mem_stragglers_straggled {id u : Nat} {s : State} :
    u ∈ (straggled id s).stragglers ↔ u ∈ s.stragglers ∧ u ≠ id := by
  simp [straggled, removeTag]

theorem onlyStragglersMoved_straggled (id : Nat) (s : State) : OnlyStragglersMoved s (straggled id s) := by
  cases s
  rfl

/-- A late completion puts some first bytes of what the call still held on the wire (41_transport_guard.md R103). -/
theorem straggled_wire (id : Nat) (s : State) :
    (straggled id s).wire = s.wire ++ (callBytes id s.calls).take (Config.acceptedPart s.drawn) := rfl

/-- Settles O35: each form of completion is the late one, which moves `STRAGGLERS` and the Transport's part alone. -/
theorem lateCompletionIsInvisible : Obligations.LateCompletionIsInvisible := by
  intro s id n err eof bytes e hm hn he
  have htag : completionTag e = some id := by
    rcases he with rfl | rfl | rfl <;> rfl
  exact ⟨straggled id s, takeEvent_straggled htag hm hn, fun _ => mem_stragglers_straggled,
    onlyStragglersMoved_straggled id s, _, straggled_wire id s⟩

/-! ### What cannot be -/

/-- A late completion that names no call at all is refused (41_transport_guard.md R97; log 32). -/
theorem tgLate_noSuchCall {id : Nat} {s : State} (hm : id ∉ s.stragglers) (hc : ∀ c ∈ s.calls, c.tag ≠ id) :
    tgLate id s = .refused (.noSuchCall id) := by
  have hany : ¬ s.calls.any (fun c => c.tag = id) = true := by simpa using hc
  rw [tgLate, if_neg hm, if_neg hany, ite_self]

/-- Settles O36: each operation checks its own premise, and a completion of no call is late for none. -/
theorem impossibleEventsRefused : Obligations.ImpossibleEventsRefused := by
  intro s id n err eof bytes
  refine ⟨fun hg hn => ?_, fun hg hn => ?_, fun hlt => takeEvent_expire_refused (.inr hlt), fun hi hm hc => ?_⟩
  · simp [takeEvent, tgWdone, hg, hn]
  · simp [takeEvent, tgRdone, hg, hn, Config.ackLen]
  · have hrefused {e : Event} (he : completionTag e = some id) : takeEvent e s = .refused (.noSuchCall id) :=
      (takeEvent_completion he (.inl hi)).trans (tgLate_noSuchCall hm hc)
    exact ⟨hrefused rfl, hrefused rfl, hrefused rfl⟩

end Sys2Proof.Machine
end

section
/-! SUPPORT. What the completion of a pending write and of a pending read do (41_transport_guard.md R95, R96;
42_commands.md R110), and its tie with the expiry (R99). -/

namespace Sys2Proof.Machine

/-! ### The completed write -/

/-- The four ends of a pending write that reports `n` bytes and an error flag (41_transport_guard.md R95, 60_exceptions.md
R149; 42_commands.md R110, R114). -/
inductive WriteEnded (s : State) (n : Nat) : Bool → State → Prop
  | error : WriteEnded s n true (raise .transportError 0 (endWrite n true s))
  | short (hn : n < s.txlen.toNat) : WriteEnded s n false (raise .shortWrite 0 (endWrite n false s))
  | completed (hn : n = s.txlen.toNat) (hp : s.phase = .ending) :
      WriteEnded s n false (completeSession (endWrite n false s))
  | sent (hn : n = s.txlen.toNat) (hb : busy s.phase = true) (hp : s.phase ≠ .ending) :
      WriteEnded s n false { openRead (endWrite n false s) with rstep := .recv }

/-- An awaited write that reports at most what was asked has one of the four ends. -/
theorem takeEvent_wdone {s : State} {n : Nat} (err : Bool) (hg : s.tgst = .writing) (hr : s.rstep = .send)
    (hb : busy s.phase = true) (hn : n ≤ s.txlen.toNat) :
    ∃ t, takeEvent (.wdone s.callid n err) s = .next t ∧ WriteEnded s n err t := by
  have htake : takeEvent (.wdone s.callid n err) s =
      afterWrite (writeOutcome n s.txlen.toNat err) (endWrite n err s) := by
    simp only [takeEvent, tgWdone, hg, and_self, if_true, Nat.not_lt.2 hn, if_false]
    exact deliver_writing (by simpa using hr) (by simpa using hb) _
  rw [htake]
  cases err with
  | true => exact ⟨_, rfl, .error⟩
  | false =>
    rcases Nat.lt_or_eq_of_le hn with hlt | heq
    · have ho : writeOutcome n s.txlen.toNat false = .shortWrite := by simp [writeOutcome, Nat.ne_of_lt hlt]
      exact ⟨_, by rw [ho]; rfl, .short hlt⟩
    · have ho : writeOutcome n s.txlen.toNat false = .success := by simp [writeOutcome, heq]
      rw [ho]
      by_cases hp : s.phase = .ending
      · exact ⟨_, if_pos hp, .completed heq hp⟩
      · exact ⟨_, if_neg hp, .sent heq hb hp⟩

/-- The bytes a completed write counts are on the wire (41_transport_guard.md R103; log 15). -/
theorem WriteEnded.wire {s t : State} {n : Nat} (h : WriteEnded s n false t) :
    t.wire = s.wire ++ (callBytes s.callid s.calls).take n := by
  cases h <;> simp

theorem WriteEnded.inbox {s t : State} {n : Nat} {err : Bool} (h : WriteEnded s n err t) : t.inbox = s.inbox := by
  cases h <;> simp

theorem WriteEnded.stragglers {s t : State} {n : Nat} {err : Bool} (h : WriteEnded s n err t) :
    t.stragglers = s.stragglers := by
  cases h <;> simp

/-- A completed write is never recorded as a timeout (41_transport_guard.md R99). -/
theorem WriteEnded.not_timeout {s t : State} {n : Nat} {err : Bool} (h : WriteEnded s n err t)
    (hp : t.phase = .failed) : t.errkind ≠ .transportTimeout := by
  cases h with
  | error => simp
  | short => simp
  | completed => cases hp
  | sent _ hb =>
    have hp' : s.phase = .failed := hp
    rw [hp'] at hb
    cases hb

/-- After a completed write no expiry is due: no call is pending, or the read has its full deadline (R99). -/
theorem WriteEnded.not_expired {s t : State} {n : Nat} {err : Bool} (h : WriteEnded s n err t) :
    takeEvent .expire t = .refused .notExpired := by
  cases h with
  | sent => exact takeEvent_expire_refused (.inr (Nat.succ_pos _))
  | _ => exact takeEvent_expire_refused (.inl rfl)

/-- Settles O29: the completion is taken from the queue, and each end shows its own registers. -/
theorem writeCompletionReactions : Obligations.WriteCompletionReactions := by
  intro s n err rest hg hr hb hq hn
  obtain ⟨t, ht, hend⟩ := takeEvent_wdone (s := { s with inbox := rest }) err hg hr hb hn
  have hf : fetch s = none := by simp [fetch, hr]
  have hstep : step s = .next t := by
    rw [step_awaits (by simp [hr]) hf, awaitEvent_queued hq]
    exact ht
  refine ⟨t, hstep, hend.inbox, ?_, ?_, ?_, ?_⟩
  · rintro rfl
    cases hend
    exact ⟨failedWith_raise (by simp) (by simp) (by simp) (.inr rfl), by simp⟩
  · rintro rfl
    exact hend.wire
  · rintro rfl hlt
    cases hend with
    | short => exact ⟨failedWith_raise (by simp) (by simp) (by simp) (.inr rfl), by simp⟩
    | completed heq => exact absurd heq (Nat.ne_of_lt hlt)
    | sent heq => exact absurd heq (Nat.ne_of_lt hlt)
  · rintro rfl heq hp
    cases hend with
    | short hlt => exact absurd heq (Nat.ne_of_lt hlt)
    | completed _ hp' => exact absurd hp' hp
    | sent => simp

/-! ### The completed read -/

/-- The ends of a pending read that brings `bytes`, an end-of-stream flag and an error flag (41_transport_guard.md R96,
60_exceptions.md R149; 42_commands.md R117; 43_sequencer.md R122, R124, R126). -/
inductive ReadEnded (s : State) : List Byte → Bool → Bool → State → Prop
  | error (bytes : List Byte) (eof : Bool) :
      ReadEnded s bytes eof true (raise .transportError 0 (endRead bytes s))
  | erased (reserved : Byte) (eof : Bool) (hp : s.phase = .erasing) :
      ReadEnded s [0, reserved] eof false (enterWriting (endRead [0, reserved] s))
  | counted (reserved : Byte) (eof : Bool) (hp : inPass s) :
      ReadEnded s [0, reserved] eof false (countChunk (endRead [0, reserved] s))
  | rejected (status reserved : Byte) (eof : Bool) (hs : status ≠ 0) :
      ReadEnded s [status, reserved] eof false (raise .deviceRejected status (endRead [status, reserved] s))
  | closed (bytes : List Byte) (hl : bytes.length < 2) :
      ReadEnded s bytes true false (raise .transportError 0 (endRead bytes s))
  | short (bytes : List Byte) (hl : bytes.length < 2) :
      ReadEnded s bytes false false (raise .malformedAcknowledgment 0 (endRead bytes s))

/-- Two received bytes are a status and a reserved byte (30_encoding.md R67). -/
theorem exists_two_bytes {bytes : List Byte} (hl : bytes.length = 2) :
    ∃ status reserved, bytes = [status, reserved] :=
  match bytes, hl with
  | [status, reserved], _ => ⟨status, reserved, rfl⟩

/-- `ACK.CHECK` of two received bytes looks at the first alone (42_commands.md R117). -/
theorem ackCheck_endRead (status reserved : Byte) (s : State) :
    ackCheck (endRead [status, reserved] s) =
      if status = 0 then roundSucceeds (endRead [status, reserved] s)
      else .next (raise .deviceRejected status (endRead [status, reserved] s)) := by
  have hread : Memory.readBytes (spaceOf .rxbuf (endRead [status, reserved] s)) 0 1 = some [status] := by
    have h0 := Memory.read_writeBytes_inside s.rxbuf 0 0 [status, reserved] (by simp)
    simp only [Memory.readBytes, spaceOf, endRead_rxbuf]
    rw [h0]
    rfl
  have htwo : (endRead [status, reserved] s).rxn.toNat = Config.ackLen := rfl
  have hallowed : readAllowed .rxbuf 0 1 (endRead [status, reserved] s) = true := rfl
  rw [ackCheck, if_pos htwo, memRead_of_bytes hallowed hread]
  simp [Config.ackOk]

/-- The reaction to an awaited read has one of the ends. -/
theorem afterRead_endRead {s : State} {bytes : List Byte} (eof err : Bool) (ha : awaitsAck s.phase = true)
    (hl : bytes.length ≤ 2) :
    ∃ t, afterRead (readOutcome bytes.length eof err) (endRead bytes s) = .next t ∧ ReadEnded s bytes eof err t := by
  cases err with
  | true => exact ⟨_, rfl, .error bytes eof⟩
  | false =>
    rcases Nat.lt_or_eq_of_le hl with hlt | heq
    · have hne : bytes.length ≠ Config.ackLen := Nat.ne_of_lt hlt
      cases eof with
      | true => exact ⟨_, by simp only [readOutcome, hne]; rfl, .closed bytes hlt⟩
      | false => exact ⟨_, by simp only [readOutcome, hne]; rfl, .short bytes hlt⟩
    · obtain ⟨status, reserved, rfl⟩ := exists_two_bytes heq
      change ∃ t, ackCheck (endRead [status, reserved] s) = .next t ∧ _
      rw [ackCheck_endRead]
      by_cases hs : status = 0
      · subst hs
        rw [if_pos rfl]
        cases hp : s.phase with
        | erasing => exact ⟨_, by simp only [roundSucceeds, endRead_phase, hp], .erased reserved eof hp⟩
        | writingFirmware =>
          exact ⟨_, by simp only [roundSucceeds, endRead_phase, hp], .counted reserved eof (.inl hp)⟩
        | verifyingFirmware =>
          exact ⟨_, by simp only [roundSucceeds, endRead_phase, hp], .counted reserved eof (.inr hp)⟩
        | _ => simp [hp, awaitsAck] at ha
      · exact ⟨_, if_neg hs, .rejected status reserved eof hs⟩

/-- An awaited read of at most 2 bytes is delivered as what its bytes and flags say (41_transport_guard.md R96). -/
theorem takeEvent_rdone {s : State} {bytes : List Byte} (eof err : Bool) (hg : s.tgst = .reading)
    (hr : s.rstep = .recv) (ha : awaitsAck s.phase = true) (hl : bytes.length ≤ 2) :
    takeEvent (.rdone s.callid bytes eof err) s =
      afterRead (readOutcome bytes.length eof err) (endRead bytes s) := by
  have hlen : ¬ Config.ackLen < bytes.length := Nat.not_lt.2 hl
  simp only [takeEvent, tgRdone, hg, and_self, if_true, hlen, if_false]
  exact deliver_reading (s := endRead bytes s) hr ha _

/-- The step takes the completion of an awaited read, as the acknowledgment it brings or as an event. -/
theorem step_rdone {s : State} {bytes : List Byte} {eof err : Bool} {rest : List Event} (hg : s.tgst = .reading)
    (hr : s.rstep = .recv) (ha : awaitsAck s.phase = true) (hq : s.inbox = .rdone s.callid bytes eof err :: rest)
    (hl : bytes.length ≤ 2) :
    step s = afterRead (readOutcome bytes.length eof err) (endRead bytes { s with inbox := rest }) := by
  by_cases hack : err = false ∧ bytes.length = 2
  · obtain ⟨rfl, h2⟩ := hack
    obtain ⟨status, reserved, rfl⟩ := exists_two_bytes h2
    have hprep : prepare s = { s with inbox := rest } := by simp [prepare, hr, hq]
    rw [step_of_fetch (fetch_arrived hr hg hq rfl), hprep, exec_ackInstr, receiveAck, if_pos hg]
    exact deliver_reading (s := endRead _ { s with inbox := rest }) hr ha _
  · have hnone : arrivedAck s = none := by
      cases err with
      | true => simp [arrivedAck, hq]
      | false =>
        have hne : bytes.length ≠ 2 := fun h => hack ⟨rfl, h⟩
        simp [arrivedAck, hq, Config.ackLen, hne]
    have hnb : s.rstep ≠ .build := by simp [hr]
    rw [step_awaits hnb (fetch_of_no_ack hnb hnone), awaitEvent_queued hq]
    exact takeEvent_rdone (s := { s with inbox := rest }) eof err hg hr ha hl

/-- The block after a completed read: no call pending, the round over, the bytes in `RXBUF` (41_transport_guard.md R96). -/
theorem ReadEnded.received {s t : State} {bytes : List Byte} {eof err : Bool} (h : ReadEnded s bytes eof err t) :
    t.inbox = s.inbox ∧ t.tgst = .idle ∧ t.timer = 0 ∧ t.rstep = .build ∧ t.stragglers = s.stragglers ∧
      t.rxn = BitVec.ofNat 2 bytes.length ∧ t.rxbuf = Memory.writeBytes s.rxbuf 0 bytes := by
  cases h <;> exact ⟨rfl, rfl, rfl, rfl, rfl, rfl, rfl⟩

theorem ReadEnded.toNat_rxn {s t : State} {bytes : List Byte} {eof err : Bool} (h : ReadEnded s bytes eof err t)
    (hl : bytes.length ≤ 2) : t.rxn.toNat = bytes.length := by
  obtain ⟨_, _, _, _, _, hrxn, _⟩ := h.received
  rw [hrxn, BitVec.toNat_ofNat]
  omega

theorem ReadEnded.readByte_rxbuf {s t : State} {bytes : List Byte} {eof err : Bool}
    (h : ReadEnded s bytes eof err t) (i : Nat) (hi : i < bytes.length) : readByte .rxbuf i t = bytes[i]? := by
  obtain ⟨_, _, _, _, _, _, hrxbuf⟩ := h.received
  have hread := Memory.read_writeBytes_inside s.rxbuf 0 i bytes hi
  rwa [Nat.zero_add, ← hrxbuf] at hread

/-- A completed read is never recorded as a timeout (41_transport_guard.md R99). -/
theorem ReadEnded.not_timeout {s t : State} {bytes : List Byte} {eof err : Bool} (h : ReadEnded s bytes eof err t)
    (hp : t.phase = .failed) : t.errkind ≠ .transportTimeout := by
  cases h with
  | erased => cases hp
  | counted _ _ hpass => rcases hpass with hw | hw <;> cases hw.symm.trans hp
  | _ => simp

/-- Settles O31: the completion is taken from the queue, and each end shows its own registers. -/
theorem readCompletionReactions : Obligations.ReadCompletionReactions := by
  intro s bytes eof err rest hg hr ha hq hl
  obtain ⟨t, ht, hend⟩ := afterRead_endRead (s := { s with inbox := rest }) eof err ha hl
  obtain ⟨hinbox, hidle, htimer, hbuild, _⟩ := hend.received
  refine ⟨t, (step_rdone hg hr ha hq hl).trans ht, hinbox, hidle, htimer, hbuild, hend.toNat_rxn hl,
    hend.readByte_rxbuf, ?_, ?_, ?_, ?_, ?_⟩
  · rintro rfl
    cases hend
    exact failedWith_raise rfl rfl rfl (.inr rfl)
  · rintro rfl h2 h0
    cases hend with
    | erased => nofun
    | counted _ _ hpass => rcases hpass with hw | hw <;> exact fun hp => nomatch hw.symm.trans hp
    | rejected status _ _ hs => exact absurd (Option.some.inj h0) hs
    | closed _ hlt => omega
    | short _ hlt => omega
  · rintro rfl status h2 h0 hs
    cases hend with
    | erased => exact absurd (Option.some.inj h0).symm hs
    | counted => exact absurd (Option.some.inj h0).symm hs
    | rejected =>
      cases h0
      exact failedWith_raise rfl rfl rfl (.inl rfl)
    | closed _ hlt => omega
    | short _ hlt => omega
  · rintro rfl hlt rfl
    cases hend with
    | closed => exact failedWith_raise rfl rfl rfl (.inr rfl)
    | _ => exact absurd hlt (Nat.lt_irrefl 2)
  · rintro rfl hlt rfl
    cases hend with
    | short => exact failedWith_raise rfl rfl rfl (.inr rfl)
    | _ => exact absurd hlt (Nat.lt_irrefl 2)

/-! ### Completion and expiry at once -/

/-- What a call holds after its first `k` bytes were accepted. -/
theorem callBytes_map_advanceCall (id k : Nat) (cs : List Call) :
    callBytes id (cs.map (advanceCall id k)) = (callBytes id cs).drop k := by
  induction cs with
  | nil => simp [callBytes]
  | cons c cs ih => by_cases h : c.tag = id <;> simp [callBytes, advanceCall, h, ih]

/-- Of an abandoned write that completes late the wire has the first bytes of its copy, in their order
(41_transport_guard.md R103; log 12). -/
theorem straggled_timedOut_wire (s : State) :
    ∃ k, (straggled s.callid (timedOut s)).wire = s.wire ++ (callBytes s.callid s.calls).take k := by
  refine ⟨Config.acceptedPart s.drawn + Config.acceptedPart (s.drawn + 1), ?_⟩
  have hheld : callBytes s.callid (timedOut s).calls =
      (callBytes s.callid s.calls).drop (Config.acceptedPart s.drawn) := callBytes_map_advanceCall ..
  rw [straggled_wire, hheld, List.take_add, ← List.append_assoc]
  rfl

/-- With no time left, the expiry taken first makes the completion of the same call a late one (R99). -/
theorem expire_then_completion {e : Event} {s : State} (h : Awaits s.tgst s) (hz : s.timer = 0)
    (he : completionTag e = some s.callid) :
    takeEvent .expire s = .next (timedOut s) ∧
      takeEvent e (timedOut s) = .next (straggled s.callid (timedOut s)) ∧
      s.callid ∉ (straggled s.callid (timedOut s)).stragglers :=
  ⟨takeEvent_expire h hz, takeEvent_straggled he (mem_stragglers_timedOut.2 (.inl rfl)) (.inl rfl),
    fun hm => (mem_stragglers_straggled.1 hm).2 rfl⟩

/-- Settles O34: a completion leaves no expiry due, and an expiry leaves the completion to be a late one. -/
theorem tieAdmitsBothOrders : Obligations.TieAdmitsBothOrders := by
  refine ⟨fun s bytes eof err hg hr ha hz hl => ⟨?_, ?_⟩, fun s n err hg hr hb hz hn => ⟨?_, ?_⟩⟩
  · obtain ⟨t, ht, hend⟩ := afterRead_endRead eof err ha hl
    obtain ⟨_, hidle, _, _, hstragglers, _⟩ := hend.received
    exact ⟨t, (takeEvent_rdone eof err hg hr ha hl).trans ht, hend.toNat_rxn hl, hend.readByte_rxbuf, hstragglers,
      hend.not_timeout, takeEvent_expire_refused (.inl hidle)⟩
  · obtain ⟨hexpire, hlate, hgone⟩ := expire_then_completion (.inr ⟨hg, hr, ha⟩) hz (e := .rdone _ bytes eof err) rfl
    exact ⟨_, _, hexpire, failedWith_timedOut s, by simp [timedOut], by simp [timedOut], hlate,
      onlyStragglersMoved_straggled .., hgone⟩
  · obtain ⟨t, ht, hend⟩ := takeEvent_wdone err hg hr hb hn
    exact ⟨t, ht, hend.stragglers, fun he => (he ▸ hend).wire, hend.not_timeout, hend.not_expired⟩
  · obtain ⟨hexpire, hlate, hgone⟩ := expire_then_completion (.inl ⟨hg, hr, hb⟩) hz (e := .wdone _ n err) rfl
    exact ⟨_, _, hexpire, failedWith_timedOut s, hlate, onlyStragglersMoved_straggled .., hgone,
      straggled_timedOut_wire s⟩

end Sys2Proof.Machine
end

section
/-! SUPPORT. The four wire commands (42_commands.md R110 to R114): the frame each sends, what it leaves unchanged, and
where it stops out of its place. -/

namespace Sys2Proof.Machine

/-! ### The sent frame of a command -/

/-- The state a send leaves is the one R110 describes. -/
theorem sentFrame_afterSend {frame : List Byte} (hl : frame.length ≤ Config.frameCapacity) (s : State) :
    SentFrame frame s (afterSend frame s) :=
  ⟨readBytes_afterFrame hl s, toNat_afterFrame_flen hl s, rfl, rfl, rfl, rfl, rfl, rfl, rfl, rfl, rfl⟩

/-- The seven bytes of a frame without address and payload (42_commands.md R111, R114). -/
theorem frameFrom_zero_noPayload (cmd len : Byte) :
    frameFrom 0 cmd len 0 0 [] = [0x57, 0xAB, cmd, len, 0, 0, cmd + len] := by
  simp [frameFrom, headerBytes, Config.sync1, Config.sync2]

/-- Settles O12: the admitted Erase round sends a frame without payload over a clear accumulator. -/
theorem eraseIssuesFrame : Obligations.EraseIssuesFrame := by
  intro s hp hr hi hg hacc
  have hexec := execErase_eq hp hr hi hg
  rw [hacc, frameFrom_zero_noPayload] at hexec
  exact ⟨_, hexec, sentFrame_afterSend (by decide) s, rfl⟩

/-- Settles O15: as Erase, with the End frame. -/
theorem endIssuesFrame : Obligations.EndIssuesFrame := by
  intro s hp hr hi hg hacc
  have hexec := execEnd_eq hp hr hi hg
  rw [hacc, frameFrom_zero_noPayload] at hexec
  exact ⟨_, hexec, sentFrame_afterSend (by decide) s, rfl⟩

/-- A Program or Verify round over a clear accumulator sends its chunk's frame (42_commands.md R112, R113). -/
theorem chunkRound_sends {p : Phase} {off : BitVec 16} {n : Byte} {payload : List Byte} {s : State} (cmd : Byte)
    (hp : s.phase = p) (hr : s.rstep = .build) (hi : s.fbst = .idle) (hg : s.tgst = .idle) (hacc : s.acc = 0)
    (hn : n.toNat ≤ 60) (hl : off.toNat + n.toNat ≤ s.ilen.toNat)
    (hb : Memory.readBytes s.img off.toNat n.toNat = some payload) :
    ∃ t, chunkRound p cmd off n s = .next t ∧
      SentFrame (frameBytes cmd n (arg1Of off) (arg2Of off) payload) s t ∧ t.phase = s.phase ∧
      t.chunk.toNat = n.toNat := by
  have hcap : (frameBytes cmd n (arg1Of off) (arg2Of off) payload).length ≤ Config.frameCapacity := by
    rw [length_frameBytes, Memory.length_of_readBytes hb, Config.frameCapacity]
    omega
  have hround := chunkRound_eq (cmd := cmd) hp hr hi hg hn hl hb
  rw [hacc, frameFrom_zero] at hround
  exact ⟨_, hround, sentFrame_afterSend hcap { s with chunk := chunkOf n }, rfl, toNat_chunkOf hn⟩

/-- Settles O13: a Program is a chunk's round in the write pass. -/
theorem programIssuesFrame : Obligations.ProgramIssuesFrame :=
  fun _ _ _ _ hp hr hi hg hacc hn hl hb => chunkRound_sends Config.cmdProgram hp hr hi hg hacc hn hl hb

/-- The checksum of a Verify frame is 2 greater than that of the Program frame of the same chunk: so is its command
code, and every other summed byte is the same (42_commands.md R113). -/
theorem getLast?_verifyFrame (n a1 a2 : Byte) (payload : List Byte) :
    (frameBytes Config.cmdVerify n a1 a2 payload).getLast? =
      (frameBytes Config.cmdProgram n a1 a2 payload).getLast?.map (fun ck => ck + 2) := by
  have hcode : Config.cmdVerify = Config.cmdProgram + 2 := by decide
  simp only [← frameFrom_zero, getLast?_frameFrom, Option.map_some, List.cons_append, sumBytes_cons, hcode]
  ac_rfl

/-- Settles O14: a Verify is a chunk's round in the verify pass. -/
theorem verifyIssuesFrame : Obligations.VerifyIssuesFrame := by
  intro off n payload s hp hr hi hg hacc hn hl hb
  obtain ⟨t, hexec, hsent, hphase, hchunk⟩ := chunkRound_sends Config.cmdVerify hp hr hi hg hacc hn hl hb
  exact ⟨t, hexec, hsent, hphase, hchunk, getLast?_verifyFrame ..⟩

/-! ### What a command leaves unchanged -/

/-- A wire command that goes on to a next state sends a frame as long as its payload asks; `CHUNK` is set for Program
and Verify alone (42_commands.md R110 to R114). -/
theorem exec_sent_next {i : Instr} {s t : State} (hd : i.direction = .sent) (h : exec i s = .next t) :
    ∃ frame chunk, frame.length = 7 + payloadLength i ∧ (i = .erase ∨ i = .endCmd → chunk = s.chunk) ∧
      s.fbst = .idle ∧ t = afterSend frame { s with chunk := chunk } := by
  have hchunk {p : Phase} {cmd : Byte} {off : BitVec 16} {n : Byte} (h : chunkRound p cmd off n s = .next t) :
      ∃ frame, frame.length = 7 + n.toNat ∧ s.fbst = .idle ∧
        t = afterSend frame { s with chunk := chunkOf n } := by
    obtain ⟨payload, _, _, hi, _, _, _, hb, rfl⟩ := chunkRound_next h
    exact ⟨_, by rw [length_frameFrom, Memory.length_of_readBytes hb], hi, rfl⟩
  cases i with
  | erase =>
    obtain ⟨_, _, hi, _, rfl⟩ := execErase_next h
    exact ⟨_, s.chunk, length_frameFrom .., fun _ => rfl, hi, rfl⟩
  | program =>
    obtain ⟨frame, hlen, hi, rfl⟩ := hchunk h
    exact ⟨frame, _, hlen, nofun, hi, rfl⟩
  | verify =>
    obtain ⟨frame, hlen, hi, rfl⟩ := hchunk h
    exact ⟨frame, _, hlen, nofun, hi, rfl⟩
  | endCmd =>
    obtain ⟨_, _, hi, _, rfl⟩ := execEnd_next h
    exact ⟨_, s.chunk, length_frameFrom .., fun _ => rfl, hi, rfl⟩
  | ackOk => cases hd
  | ackFail => cases hd

/-- Settles O20: a command's next state is its frame sent, which lies in the first bytes of `FBUF`. -/
theorem commandFrame : Obligations.CommandFrame := by
  intro i s t hd h
  obtain ⟨frame, chunk, hlen, hchunk, hi, rfl⟩ := exec_sent_next hd h
  refine ⟨fun a ha => ?_, fun _ => rfl, fun _ => rfl, hchunk, ?_⟩
  · exact Memory.read_writeBytes_outside s.fbuf 0 a frame (.inr (by omega))
  · cases s
    cases hi
    rfl

/-! ### Where a command stops -/

theorem beginRound_outOfPhase {p : Phase} {s : State} (k : Out) (hp : s.phase ≠ p) :
    beginRound p s k = .refused .outOfPhase :=
  if_neg hp

theorem beginRound_roundInProgress {p : Phase} {s : State} (k : Out) (hp : s.phase = p) (hr : s.rstep ≠ .build) :
    beginRound p s k = .refused .roundInProgress :=
  (if_pos hp).trans (if_neg hr)

/-- A frame is begun over no open one (40_frame_builder.md R81, R88). -/
theorem sendRound_headerOnOpenFrame (cmd len a1 a2 : Byte) (payload : List Byte) {s : State} (ho : s.fbst = .opened) :
    sendRound cmd len a1 a2 payload s = .refused .headerOnOpenFrame := by
  simp [sendRound, fbFrame, fbHeader, ho, andThen]

/-- The image is read inside `ILEN`, and at most 60 bytes at once (20_memory.md R41). -/
theorem readAllowed_img_iff {a n : Nat} {s : State} :
    readAllowed .img a n s = true ↔ a + n ≤ s.ilen.toNat ∧ n ≤ 60 := by
  rw [readAllowed, Bool.and_eq_true, decide_eq_true_iff, decide_eq_true_iff, Config.maxPayload]

/-- A chunk past the image, or of more than 60 bytes, is not read (20_memory.md R41; log 31). -/
theorem chunkRound_outOfRange {p : Phase} {off : BitVec 16} {n : Byte} {s : State} (cmd : Byte) (hp : s.phase = p)
    (hr : s.rstep = .build) (hl : s.ilen.toNat < off.toNat + n.toNat ∨ 60 < n.toNat) :
    chunkRound p cmd off n s = .refused (.outOfRange .img off.toNat n.toNat) := by
  have hdenied : ¬ readAllowed .img off.toNat n.toNat s = true := by
    rw [readAllowed_img_iff]
    omega
  rw [chunkRound, beginRound_eq _ hp hr, memRead, if_neg hdenied]

/-- An acknowledgment that no read waits for is not received (41_transport_guard.md R96; log 6). -/
theorem receiveAck_noReadPending {s : State} (status reserved : Byte) (hg : s.tgst ≠ .reading) :
    receiveAck status reserved s = .refused .noReadPending :=
  if_neg hg

/-- Settles O19: the phase is checked first, then the round, and only then the frame and the chunk. -/
theorem instructionsStopOutOfPlace : Obligations.InstructionsStopOutOfPlace := by
  intro off n a b s
  exact ⟨beginRound_outOfPhase _, beginRound_outOfPhase _, beginRound_outOfPhase _, beginRound_outOfPhase _,
    beginRound_roundInProgress _, receiveAck_noReadPending _ b, receiveAck_noReadPending a b,
    fun hp hr ho => (beginRound_eq _ hp hr).trans (sendRound_headerOnOpenFrame _ _ _ _ _ ho),
    chunkRound_outOfRange _, chunkRound_outOfRange _⟩

end Sys2Proof.Machine
end

section
/-! SUPPORT. The two acknowledgments (42_commands.md R115 to R117): the end of the pending read that receives one, and
what it leaves unchanged. -/

namespace Sys2Proof.Machine

/-! ### The end of the read -/

/-- An acknowledgment received where it is awaited ends the pending read with its two bytes (41_transport_guard.md
R96). -/
theorem receiveAck_ended {s : State} (status reserved : Byte) (hg : s.tgst = .reading) (hr : s.rstep = .recv)
    (ha : awaitsAck s.phase = true) :
    ∃ t, receiveAck status reserved s = .next t ∧ ReadEnded s [status, reserved] false false t := by
  rw [receiveAck, if_pos hg, deliver_reading (s := endRead [status, reserved] s) hr ha]
  exact afterRead_endRead (bytes := [status, reserved]) false false ha (Nat.le_refl 2)

/-- An acknowledgment that goes on to a next state was received where it is awaited. -/
theorem ReadEnded.of_receiveAck {status reserved : Byte} {s t : State} (h : receiveAck status reserved s = .next t) :
    ReadEnded s [status, reserved] false false t := by
  have hg : s.tgst = .reading := (receiveAck_next h).1
  by_cases hw : s.rstep = .recv ∧ awaitsAck s.phase = true
  · obtain ⟨u, hu, hend⟩ := receiveAck_ended status reserved hg hw.1 hw.2
    cases hu.symm.trans h
    exact hend
  · have hrefused : receiveAck status reserved s = .refused (.outcomeNotAwaited .success) :=
      (if_pos hg).trans (if_neg hw)
    cases hrefused.symm.trans h

/-- Two bytes with status 0 let the round succeed (42_commands.md R117; 43_sequencer.md R122, R124, R126). -/
theorem ReadEnded.advances_of_accepting {s t : State} {reserved : Byte} {eof : Bool}
    (h : ReadEnded s [0, reserved] eof false t) :
    (s.phase = .erasing ∧ t = enterWriting (endRead [0, reserved] s)) ∨
      (inPass s ∧ t = countChunk (endRead [0, reserved] s)) := by
  cases h with
  | erased _ _ hp => exact .inl ⟨hp, rfl⟩
  | counted _ _ hp => exact .inr ⟨hp, rfl⟩
  | rejected _ _ _ hs => exact absurd rfl hs
  | closed _ hl => exact absurd hl (Nat.lt_irrefl 2)
  | short _ hl => exact absurd hl (Nat.lt_irrefl 2)

/-- Two bytes with another status fail the round (42_commands.md R116, R117). -/
theorem ReadEnded.eq_raise_of_rejecting {s t : State} {status reserved : Byte} {eof : Bool} (hs : status ≠ 0)
    (h : ReadEnded s [status, reserved] eof false t) :
    t = raise .deviceRejected status (endRead [status, reserved] s) := by
  cases h with
  | erased => exact absurd rfl hs
  | counted => exact absurd rfl hs
  | rejected => rfl
  | closed _ hl => exact absurd hl (Nat.lt_irrefl 2)
  | short _ hl => exact absurd hl (Nat.lt_irrefl 2)

theorem ReadEnded.errors_eq_of_accepting {s t : State} {reserved : Byte} {eof : Bool}
    (h : ReadEnded s [0, reserved] eof false t) :
    t.errkind = s.errkind ∧ t.errphase = s.errphase ∧ t.errstatus = s.errstatus := by
  obtain ⟨_, rfl⟩ | ⟨_, rfl⟩ := h.advances_of_accepting <;> simp

/-- A counted chunk is added to `OFFSET` in 16 bits (43_sequencer.md R124). -/
theorem toNat_advancedOffset (s : State) :
    (advancedOffset s).toNat = (s.offset.toNat + s.chunk.toNat) % 65536 := by
  rw [advancedOffset, BitVec.toNat_add, BitVec.toNat_ofNat]
  omega

/-- Settles O16: status 0 ends the read in the phase's advance, whatever the byte beside it. -/
theorem ackOkLetsRoundSucceed : Obligations.AckOkLetsRoundSucceed := by
  intro reserved s hg hr ha
  obtain ⟨t, hexec, hend⟩ := receiveAck_ended 0 reserved hg hr ha
  obtain ⟨_, hidle, htimer, hbuild, _, hrxn, _⟩ := hend.received
  obtain ⟨hkind, hphase, hstatus⟩ := hend.errors_eq_of_accepting
  refine ⟨t, hexec, hidle, htimer, hbuild, hrxn, hend.readByte_rxbuf 0 (by simp), hend.readByte_rxbuf 1 (by simp),
    hkind, hphase, hstatus, fun hp => ?_, fun hp => ?_⟩
  · obtain ⟨_, rfl⟩ | ⟨hpass, _⟩ := hend.advances_of_accepting
    · exact ⟨rfl, rfl⟩
    · simp [inPass, hp] at hpass
  · obtain ⟨he, _⟩ | ⟨_, rfl⟩ := hend.advances_of_accepting
    · simp [he] at hp
    · exact ⟨rfl, toNat_advancedOffset s⟩

/-- Nothing is fetched in `Failed` between rounds (60_exceptions.md R153). -/
theorem fetch_raise (kind : ErrKind) (status : Byte) (s : State) : fetch (raise kind status s) = none := rfl

/-- Settles O17: another status raises the rejection over the ended read, with no call and no byte sent. -/
theorem ackFailRejects : Obligations.AckFailRejects := by
  intro status reserved s hs hg hr ha
  obtain ⟨t, hexec, hend⟩ := receiveAck_ended status reserved hg hr ha
  have hrx0 := hend.readByte_rxbuf 0 (by simp)
  have hrx1 := hend.readByte_rxbuf 1 (by simp)
  obtain rfl := hend.eq_raise_of_rejecting hs
  exact ⟨_, hexec, failedWith_raise rfl rfl rfl (.inl rfl), rfl, rfl, hrx0, hrx1, rfl, rfl, fetch_raise ..,
    fun hp => congrArg phaseTag hp⟩

/-! ### What an acknowledgment leaves unchanged -/

/-- The end of a read touches the registers of the call, the round, the phase and its outcome, and no other. -/
theorem ReadEnded.eq_but_outcome {s t : State} {bytes : List Byte} {eof err : Bool} (h : ReadEnded s bytes eof err t) :
    { t with
      offset := s.offset, phase := s.phase, rstep := s.rstep, tgst := s.tgst, timer := s.timer, rxbuf := s.rxbuf,
      rxn := s.rxn, errkind := s.errkind, errphase := s.errphase, errstatus := s.errstatus, calls := s.calls } = s := by
  cases h <;> simp

/-- Of memory the end of a read writes the received bytes at the front of `RXBUF` (41_transport_guard.md R96). -/
theorem ReadEnded.readByte_eq {s t : State} {bytes : List Byte} {eof err : Bool} (h : ReadEnded s bytes eof err t) :
    (∀ a, bytes.length ≤ a → readByte .rxbuf a t = readByte .rxbuf a s) ∧
      (∀ a, readByte .fbuf a t = readByte .fbuf a s) ∧ ∀ a, readByte .img a t = readByte .img a s := by
  obtain ⟨_, _, _, _, _, _, hrxbuf⟩ := h.received
  refine ⟨fun a ha => ?_, ?_⟩
  · rw [readByte, spaceOf, hrxbuf]
    exact Memory.read_writeBytes_outside s.rxbuf 0 a bytes (.inr (by omega))
  · cases h <;> simp [readByte, spaceOf]

/-- Settles O21: both forms end the read, with two bytes; status 0 keeps the error registers and another one
`OFFSET`. -/
theorem ackFrame : Obligations.AckFrame := by
  intro i s t hd hw h
  cases i with
  | ackOk reserved =>
    have hend : ReadEnded s [0, reserved] false false t := .of_receiveAck h
    obtain ⟨hrxbuf, hfbuf, himg⟩ := hend.readByte_eq
    exact ⟨hrxbuf, hfbuf, himg, fun _ _ => hend.errors_eq_of_accepting, nofun, hend.eq_but_outcome⟩
  | ackFail status reserved =>
    have hend : ReadEnded s [status, reserved] false false t := .of_receiveAck h
    obtain ⟨hrxbuf, hfbuf, himg⟩ := hend.readByte_eq
    have hoffset : t.offset = s.offset := by
      rw [hend.eq_raise_of_rejecting (ackFail_wellFormed.1 hw)]
      rfl
    exact ⟨hrxbuf, hfbuf, himg, nofun, fun _ _ _ => hoffset, hend.eq_but_outcome⟩
  | _ => cases hd

end Sys2Proof.Machine
end

section
/-! SUPPORT. A round of a pass that meets no failure (42_commands.md R110; 43_sequencer.md R124, R126): the step that
sends the frame, the step that takes the full write, the step that takes the success acknowledgment. -/

namespace Sys2Proof.Machine

theorem inPass.awaitsAck_phase {s : State} (h : inPass s) : awaitsAck s.phase = true := by
  rcases h with hp | hp <;> rw [hp] <;> rfl

/-! ### The three steps -/

/-- The code of a pass's command (43_sequencer.md R124, R126). -/
def passCode (p : Phase) : Byte := if p = .verifyingFirmware then Config.cmdVerify else Config.cmdProgram

/-- The frame that carries the next chunk, `payload`, in a pass (42_commands.md R112, R113). -/
def nextFrame (payload : List Byte) (s : State) : List Byte :=
  frameBytes (passCode s.phase) (nextChunkByte s) (arg1Of s.offset) (arg2Of s.offset) payload

theorem nextFrame_writing {s : State} (hp : s.phase = .writingFirmware) (payload : List Byte) :
    nextFrame payload s = encodeFrame (.program s.offset (nextChunkByte s)) payload := by
  rw [nextFrame, hp]
  rfl

theorem nextFrame_verifying {s : State} (hp : s.phase = .verifyingFirmware) (payload : List Byte) :
    nextFrame payload s = encodeFrame (.verify s.offset (nextChunkByte s)) payload := by
  rw [nextFrame, hp]
  rfl

/-- The state in which the frame of the next chunk is sent and its write pending (42_commands.md R110). -/
def chunkPending (payload : List Byte) (s : State) : State :=
  afterSend (nextFrame payload s) { s with chunk := chunkOf (nextChunkByte s) }

@[simp] theorem chunkPending_wire (payload : List Byte) (s : State) : (chunkPending payload s).wire = s.wire := rfl

@[simp] theorem chunkPending_offset (payload : List Byte) (s : State) :
    (chunkPending payload s).offset = s.offset := rfl

@[simp] theorem chunkPending_callid (payload : List Byte) (s : State) :
    (chunkPending payload s).callid = s.callid + 1 := rfl

@[simp] theorem chunkPending_calls (payload : List Byte) (s : State) :
    (chunkPending payload s).calls = s.calls ++ [⟨s.callid + 1, nextFrame payload s⟩] := rfl

@[simp] theorem toNat_chunkPending_chunk (payload : List Byte) (s : State) :
    (chunkPending payload s).chunk.toNat = nextChunk s := by
  rw [← toNat_nextChunkByte]
  refine toNat_chunkOf ?_
  rw [toNat_nextChunkByte]
  exact nextChunk_le s

theorem length_nextFrame {payload : List Byte} {s : State}
    (hb : Memory.readBytes s.img s.offset.toNat (nextChunk s) = some payload) :
    (nextFrame payload s).length = 7 + nextChunk s := by
  rw [nextFrame, length_frameBytes, Memory.length_of_readBytes hb]

/-- The pending write is of the whole frame (41_transport_guard.md R91). -/
theorem toNat_chunkPending_txlen {payload : List Byte} {s : State}
    (hb : Memory.readBytes s.img s.offset.toNat (nextChunk s) = some payload) :
    (chunkPending payload s).txlen.toNat = 7 + nextChunk s := by
  have h60 := nextChunk_le s
  have hlen := length_nextFrame hb
  rw [← hlen]
  exact toNat_afterFrame_flen (by rw [hlen, Config.frameCapacity]; omega) s

/-- The next chunk ends inside the image. -/
theorem nextChunk_inside {s : State} (hm : s.offset.toNat < s.ilen.toNat) :
    s.offset.toNat + nextChunk s ≤ s.ilen.toNat := by
  rw [nextChunk]
  omega

/-- In a pass with more to send a step is the round of the next chunk. -/
theorem step_inPass {s : State} (hp : inPass s) (hr : s.rstep = .build) (hm : s.offset.toNat < s.ilen.toNat) :
    step s = chunkRound s.phase (passCode s.phase) s.offset (nextChunkByte s) s := by
  have hmore : moreToSend s = true := decide_eq_true hm
  have hprep : prepare s = s := by simp [prepare, hr, hmore]
  rcases hp with hp | hp
  · rw [step_of_fetch (fetch_program hp hr hmore), hprep, hp]
    rfl
  · rw [step_of_fetch (fetch_verify hp hr hmore), hprep, hp]
    rfl

/-- A pass at rest sends the frame of its next chunk (43_sequencer.md R124, R126). -/
theorem step_chunkPending {s : State} {payload : List Byte} (hp : inPass s) (hr : s.rstep = .build)
    (hg : s.tgst = .idle) (hi : s.fbst = .idle) (hacc : s.acc = 0) (hm : s.offset.toNat < s.ilen.toNat)
    (hb : Memory.readBytes s.img s.offset.toNat (nextChunk s) = some payload) :
    step s = .next (chunkPending payload s) := by
  have hin := nextChunk_inside hm
  have h60 := nextChunk_le s
  rw [← toNat_nextChunkByte] at hin h60 hb
  rw [step_inPass hp hr hm, chunkRound_eq rfl hr hi hg h60 hin hb, hacc, frameFrom_zero]
  rfl

/-- The state in which a write's bytes are all accepted and the acknowledgment is awaited (42_commands.md R110). -/
def writeAccepted (s : State) : State := { openRead (endWrite s.txlen.toNat false s) with rstep := .recv }

@[simp] theorem writeAccepted_phase (s : State) : (writeAccepted s).phase = s.phase := by simp [writeAccepted]

@[simp] theorem writeAccepted_tgst (s : State) : (writeAccepted s).tgst = .reading := rfl

@[simp] theorem writeAccepted_rstep (s : State) : (writeAccepted s).rstep = .recv := rfl

@[simp] theorem writeAccepted_callid (s : State) : (writeAccepted s).callid = s.callid + 1 := by simp [writeAccepted]

@[simp] theorem writeAccepted_inbox (s : State) : (writeAccepted s).inbox = s.inbox := by simp [writeAccepted]

/-- A write of which all bytes were accepted goes on to the read of the acknowledgment (42_commands.md R110). -/
theorem step_writeAccepted {s : State} {rest : List Event} (hg : s.tgst = .writing) (hr : s.rstep = .send)
    (ha : awaitsAck s.phase = true) (hq : s.inbox = .wdone s.callid s.txlen.toNat false :: rest) :
    step s = .next (writeAccepted { s with inbox := rest }) := by
  have hf : fetch s = none := by simp [fetch, hr]
  obtain ⟨t, ht, hend⟩ := takeEvent_wdone (s := { s with inbox := rest }) false hg hr (busy_of_awaitsAck ha)
    (Nat.le_refl _)
  rw [step_awaits (by simp [hr]) hf, awaitEvent_queued hq]
  refine ht.trans ?_
  cases hend with
  | short hlt => exact absurd hlt (Nat.lt_irrefl _)
  | completed _ hp =>
    have hp' : s.phase = .ending := hp
    simp [hp', awaitsAck] at ha
  | sent => rfl

/-- The accepted bytes of the one call alive are on the wire, and the read is the one call after it. -/
theorem writeAccepted_wire_calls {s : State} {frame : List Byte} (hcalls : s.calls = [⟨s.callid, frame⟩])
    (hlen : s.txlen.toNat = frame.length) :
    (writeAccepted s).wire = s.wire ++ frame ∧ (writeAccepted s).calls = [⟨s.callid + 1, []⟩] := by
  simp [writeAccepted, endWrite, hcalls, hlen, callBytes, advanceCall]

/-- A success acknowledgment of a chunk's round counts the chunk (43_sequencer.md R124, R126). -/
theorem step_chunkAcknowledged {s : State} {reserved : Byte} {eof : Bool} {rest : List Event} (hp : inPass s)
    (hg : s.tgst = .reading) (hr : s.rstep = .recv) (hq : s.inbox = .rdone s.callid [0, reserved] eof false :: rest) :
    step s = .next (countChunk (endRead [0, reserved] { s with inbox := rest })) := by
  have ha := hp.awaitsAck_phase
  obtain ⟨t, ht, hend⟩ := afterRead_endRead (s := { s with inbox := rest }) (bytes := [0, reserved]) eof false ha
    (Nat.le_refl 2)
  rw [step_rdone hg hr ha hq (Nat.le_refl 2), ht]
  obtain ⟨he, _⟩ | ⟨_, rfl⟩ := hend.advances_of_accepting
  · have he' : s.phase = .erasing := he
    simp [inPass, he'] at hp
  · rfl

/-! ### The round -/

/-- The state in which the frame of a pending chunk was accepted whole and acknowledged, with `rest` still queued. -/
def roundAnswered (reserved : Byte) (rest : List Event) (s : State) : State :=
  countChunk (endRead [0, reserved] { writeAccepted s with inbox := rest })

/-- Two answers end the round of a pending chunk (43_sequencer.md R124, R126). -/
theorem runSteps_roundAnswered {s : State} {reserved : Byte} {rest : List Event} (hp : inPass s)
    (hg : s.tgst = .writing) (hr : s.rstep = .send)
    (hq : s.inbox = .wdone s.callid s.txlen.toNat false :: .rdone (s.callid + 1) [0, reserved] false false :: rest) :
    runSteps 2 s = .next (roundAnswered reserved rest s) := by
  have hwrite := step_writeAccepted hg hr hp.awaitsAck_phase hq
  have hread := step_chunkAcknowledged (reserved := reserved) (eof := false) (rest := rest)
    (s := writeAccepted { s with inbox := .rdone (s.callid + 1) [0, reserved] false false :: rest })
    (by simpa [inPass] using hp) (by simp) (by simp) (by simp)
  rw [runSteps, hwrite, andThen_of_next, runSteps, hread]
  rfl

/-- An answered round has the one call's frame on the wire and leaves no call alive. -/
theorem roundAnswered_wire_calls {s : State} {frame : List Byte} (reserved : Byte) (rest : List Event)
    (hcalls : s.calls = [⟨s.callid, frame⟩]) (hlen : s.txlen.toNat = frame.length) :
    (roundAnswered reserved rest s).wire = s.wire ++ frame ∧ (roundAnswered reserved rest s).calls = [] := by
  obtain ⟨hwire, hread⟩ := writeAccepted_wire_calls hcalls hlen
  simp [roundAnswered, hwire, hread]

/-- Settles O39: the frame of the next chunk is sent, its write accepted whole, and its acknowledgment counted. -/
theorem roundOfPass : Obligations.RoundOfPass := by
  intro s payload reserved rest hp hr hg hi hacc hcalls hm hb hq
  have htxlen := toNat_chunkPending_txlen hb
  have hanswers : runSteps 2 (chunkPending payload s) =
      .next (roundAnswered reserved rest (chunkPending payload s)) := by
    refine runSteps_roundAnswered hp rfl rfl ?_
    rw [htxlen]
    exact hq
  have hrun : runSteps 3 s = .next (roundAnswered reserved rest (chunkPending payload s)) := by
    rw [runSteps, step_chunkPending hp hr hg hi hacc hm hb]
    exact hanswers
  obtain ⟨hwire, hnone⟩ := roundAnswered_wire_calls (frame := nextFrame payload s) reserved rest
    (by simp [hcalls]) (htxlen.trans (length_nextFrame hb).symm)
  have hoffset : (advancedOffset (chunkPending payload s)).toNat = s.offset.toNat + nextChunk s := by
    have hin := nextChunk_inside hm
    have hilen := s.ilen.isLt
    rw [toNat_advancedOffset, toNat_chunkPending_chunk, chunkPending_offset]
    exact Nat.mod_eq_of_lt (by omega)
  exact ⟨_, hrun, rfl, rfl, rfl, rfl, rfl, hnone, rfl, rfl, rfl, rfl, hoffset,
    toNat_chunkPending_chunk payload s, rfl, fun hw => by rw [hwire, chunkPending_wire, nextFrame_writing hw],
    fun hv => by rw [hwire, chunkPending_wire, nextFrame_verifying hv]⟩

end Sys2Proof.Machine
end

section
/-! SUPPORT. The start of a session (43_sequencer.md R120, R121, R135; 60_exceptions.md R141): the premises in the order
of log 34, and the check of the true length. -/

namespace Sys2Proof.Machine

/-! ### The check of the length -/

/-- A start on an image over the capacity fails and keeps no image (43_sequencer.md R120; log 17). -/
theorem startOn_over {bytes : List Byte} (s : State) (hl : Config.capacity < bytes.length) :
    startOn bytes s = raise .oversizedImage 0 (discardImage (createSession s)) :=
  if_pos hl

/-- A start on any other image latches it and goes to `Erasing` (43_sequencer.md R120). -/
theorem startOn_fits {bytes : List Byte} (s : State) (hl : bytes.length ≤ Config.capacity) :
    startOn bytes s = beginErasing bytes (createSession s) :=
  if_neg (Nat.not_lt.2 hl)

/-- The length of an image within the capacity fits `ILEN` (10_state.md R14). -/
theorem toNat_beginErasing_ilen {bytes : List Byte} (s : State) (hl : bytes.length ≤ Config.capacity) :
    (beginErasing bytes s).ilen.toNat = bytes.length :=
  Nat.mod_eq_of_lt (Nat.lt_of_le_of_lt hl (by decide))

/-- The latched image, byte for byte (20_memory.md R40). -/
theorem readByte_img_beginErasing (bytes : List Byte) (s : State) (a : Nat) :
    readByte .img a (beginErasing bytes s) = bytes[a]? := by
  have hread := Memory.read_ofBytes 0 a bytes
  rwa [Nat.zero_add] at hread

/-- Settles O26: under the premises the start is admitted, and the length alone decides between its two ends. -/
theorem startChecksTrueLength : Obligations.StartChecksTrueLength := by
  intro src s hb hi hh hs hc hr ha
  refine ⟨_, seqStart_eq hb hi hh hs hc hr ha, ?_⟩
  rcases Nat.lt_or_ge Config.capacity src.bytes.length with hover | hfits
  · rw [startOn_over s hover]
    exact ⟨rfl, rfl, rfl, rfl, rfl, phaseTag_of_not_busy hb, fun hle => absurd hover (Nat.not_lt.2 hle),
      fun _ => ⟨rfl, rfl, rfl⟩⟩
  · rw [startOn_fits s hfits]
    exact ⟨rfl, rfl, rfl, rfl, rfl, rfl,
      fun _ => ⟨rfl, rfl, toNat_beginErasing_ilen _ hfits, readByte_img_beginErasing _ _⟩,
      fun hlt => absurd hlt (Nat.not_lt.2 hfits)⟩

/-! ### The premises -/

/-- Settles O28: each clause takes the checks in turn (log 34) up to the one that is false. -/
theorem startRefusedOnFalsePremise : Obligations.StartRefusedOnFalsePremise := by
  intro src s
  refine ⟨fun hb => if_pos hb, fun hb ho => ?_, fun hb hi => ⟨fun hh => ?_, fun hh => ⟨fun hs => ?_, fun hc => ?_,
    fun hs hc => ⟨fun hr => ?_, fun hr hne => ?_, fun hr ha => ⟨_, seqStart_eq hb hi hh hs hc hr ha⟩⟩⟩⟩⟩
  · simp [seqStart, hb, ho]
  · simp [seqStart, hb, hi, hh]
  · simp [seqStart, hb, hi, hh, hs]
  · simp [seqStart, hb, hi, hh, hc]
  · simp [seqStart, hb, hi, hh, hs, hc, hr]
  · simp [seqStart, hb, hi, hh, hs, hc, hr, hne]

end Sys2Proof.Machine
end

section
/-! SUPPORT. What moves `PHASE` (43_sequencer.md R136): a delivered outcome, a start, a reset, and the Sequencer's own
steps at the end of a pass. -/

namespace Sys2Proof.Machine

/-! ### The cause of a move -/

/-- From `s` to `u` the pending call ended, with the timer disarmed; session and builder are as they were
(41_transport_guard.md R94 to R96). -/
def CallEnded (s u : State) : Prop :=
  u.phase = s.phase ∧ u.tgst = .idle ∧ u.timer = 0 ∧ u.acc = s.acc ∧ u.fbst = s.fbst

theorem callEnded_endWrite (n : Nat) (err : Bool) (s : State) : CallEnded s (endWrite n err s) :=
  endWrite_keeps (P := CallEnded s) fun _ _ _ => ⟨rfl, rfl, rfl, rfl, rfl⟩

/-- What an event does to the phase. -/
inductive PhaseCause (s : State) : Event → State → Prop
  | kept (e : Event) (t : State) (hp : t.phase = s.phase) (hs : ∀ src, e ≠ .seqStart src) : PhaseCause s e t
  | delivered (e : Event) (g : GuardState) (o : CallOutcome) (u t : State) (hu : CallEnded s u)
      (hd : Delivered g o u t) : PhaseCause s e t
  | started (src : Source) (hb : busy s.phase = false) (hi : s.fbst = .idle) :
      PhaseCause s (.seqStart src) (startOn src.bytes s)
  | restarted : PhaseCause s .reset (resetBlock s)

/-- An event moves the phase by an outcome it delivers, as a start, or as the reset. -/
theorem Taken.phaseCause {e : Event} {s t : State} (h : Taken s e t) : PhaseCause s e t := by
  cases h with
  | ticked => exact .kept _ _ (tgTick_keeps (P := fun u => u.phase = s.phase) fun _ _ => rfl) nofun
  | expired _ _ hz hd =>
    have hu : CallEnded s (abandonCall (acceptDrawn s.callid s)) := ⟨rfl, rfl, hz, rfl, rfl⟩
    exact .delivered _ _ _ _ _ hu hd
  | written n err _ _ _ hd => exact .delivered _ _ _ _ _ (callEnded_endWrite n err s) hd
  | received bytes _ _ _ _ _ hd =>
    have hu : CallEnded s (endRead bytes s) := ⟨rfl, rfl, rfl, rfl, rfl⟩
    exact .delivered _ _ _ _ _ hu hd
  | straggled _ _ he => exact .kept _ _ rfl fun src hs => by simp [hs, completionTag] at he
  | forgotten _ _ he => exact .kept _ _ rfl fun src hs => by simp [hs, completionTag] at he
  | started src hb hi => exact .started src hb hi
  | restarted => exact .restarted
  | _ => exact .kept _ _ rfl nofun

/-! ### The phases are linear -/

/-- A session keeps its phase, goes one phase on, or fails (43_sequencer.md R136). -/
def SessionMove (p q : Phase) : Prop :=
  q = p ∨ (p = .erasing ∧ q = .writingFirmware) ∨ (p = .writingFirmware ∧ q = .verifyingFirmware) ∨
    (p = .verifyingFirmware ∧ q = .ending) ∨ (p = .ending ∧ q = .complete) ∨ (busy p = true ∧ q = .failed)

theorem Delivered.sessionMove {g : GuardState} {o : CallOutcome} {s t : State} (h : Delivered g o s t) :
    SessionMove s.phase t.phase := by
  unfold SessionMove
  cases h with
  | failed _ _ hb => simp [hb]
  | completed _ _ _ hp => simp [hp]
  | sent => simp
  | erased _ _ _ hp => simp [hp]
  | counted => simp

/-- The End frame is sent on entry to `Ending`, and the other frames keep the phase (43_sequencer.md R127; log 25). -/
theorem Readied.sessionMove {s u : State} (h : Readied s u) : SessionMove s.phase u.phase := by
  unfold SessionMove
  cases h with
  | erase => simp
  | chunk => simp
  | ending hp => rcases hp with hp | hp <;> simp [hp]

/-- A start leads to `Erasing` or fails (43_sequencer.md R120). -/
theorem startOn_phase (bytes : List Byte) (s : State) :
    (startOn bytes s).phase = .erasing ∨ (startOn bytes s).phase = .failed :=
  startOn_keeps (P := fun t => t.phase = .erasing ∨ t.phase = .failed) (.inr rfl) fun _ => .inl rfl

/-- A step moves a session, takes a queued start where none runs, or takes a queued reset. -/
theorem StepForm.phase_moves {s t : State} (h : StepForm s t) :
    SessionMove s.phase t.phase ∨
      (busy s.phase = false ∧ (t.phase = .erasing ∨ t.phase = .failed) ∧ ∃ src rest, s.inbox = .seqStart src :: rest) ∨
      (t.phase = .idle ∧ ∃ rest, s.inbox = .reset :: rest) := by
  cases h with
  | sent _ _ hu => exact .inl hu.sessionMove
  | verifying hp => exact .inl (.inr (.inr (.inl ⟨hp, rfl⟩)))
  | waited => exact .inl (.inl rfl)
  | taken e rest _ hq ht =>
    cases ht.phaseCause with
    | kept _ _ hp => exact .inl (.inl hp)
    | delivered _ _ _ _ _ hu hd =>
      obtain ⟨hp, _⟩ := hu
      exact .inl (hp ▸ hd.sessionMove)
    | started src hb => exact .inr (.inl ⟨hb, startOn_phase _ _, src, rest, hq.queued nofun nofun⟩)
    | restarted => exact .inr (.inr ⟨rfl, rest, hq.queued nofun nofun⟩)

/-- Settles O42: every form of a step is one of the moves. -/
theorem phasesAreLinear : Obligations.PhasesAreLinear := by
  intro s t hst
  simpa only [SessionMove, or_assoc] using (step_form hst).phase_moves

/-! ### The end of a session -/

/-- The full write of the End frame completes the session in its own step (43_sequencer.md R128). -/
theorem step_completeSession {s : State} {rest : List Event} (hp : s.phase = .ending) (hg : s.tgst = .writing)
    (hr : s.rstep = .send) (hq : s.inbox = .wdone s.callid s.txlen.toNat false :: rest) :
    step s = .next (completeSession (endWrite s.txlen.toNat false { s with inbox := rest })) := by
  have hf : fetch s = none := by simp [fetch, hr]
  obtain ⟨t, ht, hend⟩ := takeEvent_wdone (s := { s with inbox := rest }) false hg hr (by rw [hp]; rfl)
    (Nat.le_refl _)
  rw [step_awaits (by simp [hr]) hf, awaitEvent_queued hq]
  refine ht.trans ?_
  cases hend with
  | short hlt => exact absurd hlt (Nat.lt_irrefl _)
  | completed => rfl
  | sent _ _ hne => exact absurd hp hne

/-- Settles O30: the completed write ends the session, and of the moves of a phase only a start and the reset leave
`Complete`. -/
theorem endWriteCompletesSession : Obligations.EndWriteCompletesSession := by
  refine ⟨fun s rest hp hg hr hq => ?_, fun s t hp hst => ?_⟩
  · exact ⟨_, step_completeSession hp hg hr hq, rfl, rfl, by simp, by simp, by simp, rfl⟩
  · have hmoves := phasesAreLinear s t hst
    simp only [hp, busy, reduceCtorEq, false_and, false_or, true_and] at hmoves
    exact hmoves.imp_right (.imp And.right And.right)

/-- An outcome after which no session runs leaves the block at rest (43_sequencer.md R137). -/
theorem Delivered.endedAtRest {g : GuardState} {o : CallOutcome} {s t u : State} (h : Delivered g o u t)
    (hs : BuilderAtRest s) (hu : CallEnded s u) (ht : busy t.phase = false) : EndedAtRest t := by
  have hb := h.busy_before
  obtain ⟨hp, hidle, htimer, hacc, hfbst⟩ := hu
  obtain ⟨ha, hi⟩ := hs.1 (hp ▸ hb)
  cases h with
  | failed => exact ⟨.inr rfl, hidle, htimer, hfbst.trans hi, hacc.trans ha⟩
  | completed => exact ⟨.inl rfl, hidle, htimer, hfbst.trans hi, hacc.trans ha⟩
  | sent => exact nomatch hb.symm.trans ht
  | erased => cases ht
  | counted => exact nomatch hb.symm.trans ht

/-- A start after which no session runs leaves the block at rest (43_sequencer.md R137, 60_exceptions.md R141). -/
theorem startOn_endedAtRest {bytes : List Byte} {s : State} (hg : GuardMatchesRound s) (hb : busy s.phase = false)
    (hi : s.fbst = .idle) (ht : busy (startOn bytes s).phase = false) : EndedAtRest (startOn bytes s) := by
  have hidle := hg.idle_of_not_busy hb
  obtain ⟨_, _, _, _, _, htimer⟩ := hg
  revert ht
  refine startOn_keeps (P := fun t => busy t.phase = false → EndedAtRest t) (fun _ => ?_) fun _ => nofun
  exact ⟨.inr rfl, hidle, htimer hidle, hi, rfl⟩

/-- An event that ends a session, or a start that fails at once, leaves the block at rest. -/
theorem Taken.endedAtRest {e : Event} {s t : State} (h : Taken s e t) (hg : GuardMatchesRound s)
    (hs : BuilderAtRest s) (he : busy s.phase = true ∨ ∃ src, e = .seqStart src) (ht : busy t.phase = false)
    (hreset : e ≠ .reset) : EndedAtRest t := by
  cases h.phaseCause with
  | kept _ _ hp hns =>
    rcases he with hb | ⟨src, rfl⟩
    · rw [hp, hb] at ht
      cases ht
    · exact absurd rfl (hns src)
  | delivered _ _ _ _ _ hu hd => exact hd.endedAtRest hs hu ht
  | started _ hb hi => exact startOn_endedAtRest hg hb hi ht
  | restarted => exact absurd rfl hreset

/-- A sent frame leaves its session running (43_sequencer.md R122, R124, R127). -/
theorem Readied.busy_sent {s u : State} (h : Readied s u) : busy u.phase = true := by
  cases h with
  | erase hp => rw [hp]; rfl
  | chunk hp => rcases hp with hp | hp <;> rw [hp] <;> rfl
  | ending => rfl

/-- The step of a session or of a queued start after which no session runs leaves the block at rest. -/
theorem step_endedAtRest {s t : State} (hg : GuardMatchesRound s) (hs : BuilderAtRest s) (hst : step s = .next t)
    (hends : busy s.phase = true ∨ ∃ src rest, s.inbox = .seqStart src :: rest) (ht : busy t.phase = false)
    (hreset : ∀ rest, s.inbox ≠ .reset :: rest) : EndedAtRest t := by
  cases step_form hst with
  | sent _ _ hu => exact nomatch hu.busy_sent.symm.trans ht
  | verifying => cases ht
  | taken e rest _ hq htaken =>
    refine htaken.endedAtRest (s := { s with inbox := rest }) hg hs ?_ ht ?_
    · refine hends.imp_right fun ⟨src, queue, hstart⟩ => ?_
      rcases hq with hq | ⟨hq, hnil, _⟩
      · exact ⟨src, (List.cons.inj (hq.symm.trans hstart)).1⟩
      · simp [hq, hnil] at hstart
    · rintro rfl
      exact hreset rest (hq.queued nofun nofun)
  | waited hq =>
    rcases hends with hb | ⟨src, rest, hstart⟩
    · rw [hb] at ht
      cases ht
    · simp [hq] at hstart

end Sys2Proof.Machine
end

section
/-! SUPPORT. The Sequencer's own steps at `S_BUILD` (43_sequencer.md R122 to R127, R131, R137), each an equation: Erase,
the next chunk of a pass, the end of each pass, End. -/

namespace Sys2Proof.Machine

/-! ### The steps -/

/-- `Erasing` sends the Erase frame (43_sequencer.md R122). -/
theorem step_erasing {s : State} (hp : s.phase = .erasing) (hr : s.rstep = .build) : step s = execErase s := by
  have hf : fetch s = some .erase := by simp [fetch, nextCommand, hp, hr]
  have hprep : prepare s = s := by simp [prepare, hp, hr]
  rw [step_of_fetch hf, hprep]
  rfl

/-- The write pass with no more to send goes over to the verify pass (43_sequencer.md R125). -/
theorem step_enterVerifying {s : State} (hp : s.phase = .writingFirmware) (hr : s.rstep = .build)
    (hm : moreToSend s = false) : step s = .next (enterVerifying s) := by
  have hf : fetch s = none := by simp [fetch, nextCommand, hp, hr, hm]
  simp [step, hf, withoutInstr, hp, hr]

/-- The verify pass with no more to send goes over to `Ending` and sends the End frame (43_sequencer.md R127; log 25). -/
theorem step_enterEnding {s : State} (hp : s.phase = .verifyingFirmware) (hr : s.rstep = .build)
    (hm : moreToSend s = false) : step s = execEnd { s with phase := .ending } := by
  have hf : fetch s = some .endCmd := by simp [fetch, nextCommand, hp, hr, hm]
  have hprep : prepare s = { s with phase := .ending } := by simp [prepare, hp, hr, hm]
  rw [step_of_fetch hf, hprep]
  rfl

/-- `Ending` sends the End frame (43_sequencer.md R127). -/
theorem step_ending {s : State} (hp : s.phase = .ending) (hr : s.rstep = .build) : step s = execEnd s := by
  have hf : fetch s = some .endCmd := by simp [fetch, nextCommand, hp, hr]
  have hprep : prepare s = s := by simp [prepare, hp, hr]
  rw [step_of_fetch hf, hprep]
  rfl

/-! ### The empty image -/

/-- An image of length 0 has nothing to send (43_sequencer.md R131). -/
theorem moreToSend_of_empty {s : State} (hl : s.ilen = 0) : moreToSend s = false := by
  simp [moreToSend, hl]

/-- Settles O41: the loop test fails at once in both passes, so the first step goes over to the verify pass and the second
sends the End frame. -/
theorem emptyImageSendsNoChunk : Obligations.EmptyImageSendsNoChunk := by
  intro s hp hr hg hi hacc hl
  have hwrite : step s = .next (enterVerifying s) := step_enterVerifying hp hr (moreToSend_of_empty hl)
  have hverify := step_enterEnding (s := enterVerifying s) rfl rfl (moreToSend_of_empty hl)
  rw [execEnd_eq (s := { enterVerifying s with phase := .ending }) rfl rfl hi hg] at hverify
  have hframe : frameFrom s.acc Config.cmdEnd Config.endLen 0 0 [] = encodeFrame .endCmd [] := by
    rw [hacc, frameFrom_zero]
    rfl
  have hcap : (encodeFrame .endCmd []).length ≤ Config.frameCapacity := by decide
  refine ⟨afterSend (encodeFrame .endCmd []) { enterVerifying s with phase := .ending }, ?_, rfl,
    sentFrame_afterSend hcap _, rfl⟩
  rw [runSteps, hwrite, andThen_of_next, runSteps, hverify, andThen_of_next, ← hframe]
  rfl

/-! ### A session goes on between its rounds -/

/-- Bytes that are all there can be read (20_memory.md R41). -/
theorem Memory.exists_readBytes {m : Memory} {a n : Nat}
    (h : ∀ i, a ≤ i → i < a + n → (Memory.read m i).isSome = true) : ∃ bs, Memory.readBytes m a n = some bs := by
  induction n generalizing a with
  | zero => exact ⟨[], rfl⟩
  | succ n ih =>
    obtain ⟨b, hb⟩ := Option.isSome_iff_exists.1 (h a (by omega) (by omega))
    obtain ⟨bs, hbs⟩ := ih (a := a + 1) fun i h1 h2 => h i (by omega) (by omega)
    exact ⟨b :: bs, by simp [Memory.readBytes, hb, hbs]⟩

/-- The next chunk of a loaded image can be read (20_memory.md R40). -/
theorem ImageLoaded.exists_nextChunk {s : State} (h : ImageLoaded s) (hm : s.offset.toNat < s.ilen.toNat) :
    ∃ payload, Memory.readBytes s.img s.offset.toNat (nextChunk s) = some payload := by
  have hin := nextChunk_inside hm
  exact Memory.exists_readBytes fun i _ hi => (h i).2 (by omega)

/-- At `S_BUILD` of a session with its image loaded, the guard free and the builder at rest, the Sequencer's step is
admitted and the session goes on (43_sequencer.md R137; log 2). -/
theorem step_goes_on {s : State} (hl : ImageLoaded s) (hb : busy s.phase = true) (hr : s.rstep = .build)
    (hg : s.tgst = .idle) (hi : s.fbst = .idle) (hacc : s.acc = 0) :
    ∃ t, step s = .next t ∧ busy t.phase = true := by
  have hchunk (hp : inPass s) (hm : s.offset.toNat < s.ilen.toNat) : ∃ t, step s = .next t ∧ busy t.phase = true := by
    obtain ⟨payload, hpayload⟩ := hl.exists_nextChunk hm
    exact ⟨_, step_chunkPending hp hr hg hi hacc hm hpayload, hb⟩
  cases hp : s.phase with
  | erasing => exact ⟨_, (step_erasing hp hr).trans (execErase_eq hp hr hi hg), hb⟩
  | writingFirmware =>
    cases hm : moreToSend s with
    | true => exact hchunk (.inl hp) (of_decide_eq_true hm)
    | false => exact ⟨_, step_enterVerifying hp hr hm, rfl⟩
  | verifyingFirmware =>
    cases hm : moreToSend s with
    | true => exact hchunk (.inr hp) (of_decide_eq_true hm)
    | false => exact ⟨_, (step_enterEnding hp hr hm).trans (execEnd_eq rfl hr hi hg), rfl⟩
  | ending => exact ⟨_, (step_ending hp hr).trans (execEnd_eq hp hr hi hg), hb⟩
  | idle => simp [hp, busy] at hb
  | complete => simp [hp, busy] at hb
  | failed => simp [hp, busy] at hb

/-- Settles O45: an outcome or a start ends a session at rest, and at `S_BUILD` the invariants give the Sequencer's step
all it needs. -/
theorem sessionEndsAtRest : Obligations.SessionEndsAtRest := by
  refine ⟨fun _ _ => step_endedAtRest, fun s hg hs _ hl hb hr => ?_⟩
  obtain ⟨hidle, _⟩ := hg
  obtain ⟨hacc, hi⟩ := hs.1 hb
  exact step_goes_on hl hb hr (hidle.2 hr) hi hacc

end Sys2Proof.Machine
end

section
/-! SUPPORT. A whole pass that meets no failure (43_sequencer.md R124, R126, R130; 20_memory.md R51): its rounds in turn,
chunk after chunk. -/

namespace Sys2Proof.Machine

/-! ### The chunks of an image -/

/-- The first `k` chunks joined are the first `60 * k` bytes. -/
theorem flatMap_chunkBytes (image : List Byte) (k : Nat) :
    (List.range k).flatMap (chunkBytes image) = image.take (Config.maxPayload * k) := by
  induction k with
  | zero => rfl
  | succ k ih =>
    rw [List.range_succ, List.flatMap_append, ih, List.flatMap_singleton, chunkBytes, Nat.mul_succ, List.take_add]

/-- The chunks cover the image (43_sequencer.md R130). -/
theorem length_le_chunkCount (image : List Byte) : image.length ≤ Config.maxPayload * chunkCount image := by
  simp only [chunkCount, Config.maxPayload]
  omega

/-- Every chunk starts inside the image (43_sequencer.md R130). -/
theorem chunkStart_inside {image : List Byte} {k : Nat} (hk : k < chunkCount image) :
    Config.maxPayload * k < image.length := by
  simp only [chunkCount, Config.maxPayload] at hk ⊢
  omega

theorem length_chunkBytes (image : List Byte) (k : Nat) :
    (chunkBytes image k).length = min Config.maxPayload (image.length - Config.maxPayload * k) := by
  rw [chunkBytes, List.length_take, List.length_drop]

/-- A chunk is what `MemRead` of its size reads at its start (20_memory.md R41). -/
theorem readBytes_chunkBytes {image : List Byte} {k : Nat} (hk : k < chunkCount image) :
    Memory.readBytes (Memory.ofBytes 0 image) (Config.maxPayload * k) (chunkBytes image k).length =
      some (chunkBytes image k) := by
  have hin := chunkStart_inside hk
  have hlen := length_chunkBytes image k
  rw [Memory.readBytes_ofBytes image _ _ (by omega), chunkBytes, List.length_take, ← List.take_eq_take_min]

/-! ### The rounds in turn -/

/-- Steps in turn are the first ones and then the others. -/
theorem runSteps_add {s t : State} {j : Nat} (k : Nat) (h : runSteps j s = .next t) :
    runSteps (j + k) s = runSteps k t := by
  induction j generalizing s with
  | zero =>
    cases h
    rw [Nat.zero_add]
  | succ j ih =>
    obtain ⟨u, hstep, hrest⟩ := andThen_next h
    rw [Nat.succ_add, runSteps, hstep, andThen_of_next, ih hrest]

/-- The answers to chunk `i` of a pass whose calls are numbered from `id + 1`. -/
def chunkAnswered (image : List Byte) (id i : Nat) : List Event :=
  chunkAnswers (id + 2 * i) (7 + (chunkBytes image i).length) 0

/-- The frame of chunk `i` of a pass (43_sequencer.md R124, R126). -/
def chunkFrame (verify : Bool) (image : List Byte) (i : Nat) : List Byte :=
  encodeFrame (chunkInstr verify image i) (chunkBytes image i)

/-- The block between two rounds of a pass over `image` that began in `s`: `k` chunks are sent and counted, and the
answers to the others are queued before `rest`. -/
structure PassAt (verify : Bool) (image : List Byte) (rest : List Event) (s : State) (k : Nat) (t : State) : Prop where
  phase : t.phase = s.phase
  rstep : t.rstep = .build
  tgst : t.tgst = .idle
  fbst : t.fbst = .idle
  acc : t.acc = 0
  calls : t.calls = []
  ilen : t.ilen = s.ilen
  img : t.img = s.img
  offset : t.offset.toNat = min (Config.maxPayload * k) image.length
  callid : t.callid = s.callid + 2 * k
  inbox : t.inbox = ((List.range (chunkCount image)).drop k).flatMap (chunkAnswered image s.callid) ++ rest
  wire : t.wire = s.wire ++ (List.range k).flatMap (chunkFrame verify image)

/-- The pass over `image` that the state is in. -/
def InPassOver (verify : Bool) (image : List Byte) (s : State) : Prop :=
  s.phase = (if verify then .verifyingFirmware else .writingFirmware) ∧ s.ilen.toNat = image.length ∧
    s.img = Memory.ofBytes 0 image

theorem InPassOver.inPass {verify : Bool} {image : List Byte} {s : State} (h : InPassOver verify image s) :
    inPass s := by
  obtain ⟨hp, _⟩ := h
  cases verify with
  | true => exact .inr hp
  | false => exact .inl hp

/-- One round more: chunk `k` is sent and counted (43_sequencer.md R124, R126). -/
theorem PassAt.round {verify : Bool} {image : List Byte} {rest : List Event} {s t : State} {k : Nat}
    (h : PassAt verify image rest s k t) (hs : InPassOver verify image s) (hk : k < chunkCount image) :
    ∃ u, runSteps 3 t = .next u ∧ PassAt verify image rest s (k + 1) u := by
  have hin := chunkStart_inside hk
  have hlen := length_chunkBytes image k
  obtain ⟨hphase, hilen, himg⟩ := id hs
  have hoffset : t.offset.toNat = Config.maxPayload * k := by rw [h.offset]; omega
  have hilen' : t.ilen.toNat = image.length := by rw [h.ilen, hilen]
  have hnext : nextChunk t = (chunkBytes image k).length := by rw [nextChunk, hilen', hoffset, hlen]
  have hpass : inPass t := by simpa only [inPass, h.phase] using hs.inPass
  have hread : Memory.readBytes t.img t.offset.toNat (nextChunk t) = some (chunkBytes image k) := by
    rw [h.img, himg, hoffset, hnext, readBytes_chunkBytes hk]
  have hqueue : t.inbox = chunkAnswers t.callid (7 + nextChunk t) 0 ++
      (((List.range (chunkCount image)).drop (k + 1)).flatMap (chunkAnswered image s.callid) ++ rest) := by
    rw [h.inbox, List.drop_eq_getElem_cons (by rwa [List.length_range]), List.getElem_range, List.flatMap_cons,
      List.append_assoc, h.callid, hnext]
    rfl
  obtain ⟨u, hrun, uphase, urstep, utgst, ufbst, uacc, ucalls, uinbox, ucallid, uilen, uimg, uoffset, _, _, uwrite,
    uverify⟩ := roundOfPass t (chunkBytes image k) 0 _ hpass h.rstep h.tgst h.fbst h.acc h.calls
      (by omega) hread hqueue
  refine ⟨u, hrun, uphase.trans h.phase, urstep, utgst, ufbst, uacc, ucalls, uilen.trans h.ilen, uimg.trans h.img,
    ?_, ?_, uinbox, ?_⟩
  · rw [uoffset, hnext, hoffset, hlen, Nat.mul_succ]
    omega
  · rw [ucallid, h.callid]
    omega
  · have hoff : t.offset = BitVec.ofNat 16 (Config.maxPayload * k) := by
      rw [← hoffset, BitVec.ofNat_toNat, BitVec.setWidth_eq]
    have hwire : u.wire = t.wire ++ chunkFrame verify image k := by
      rw [chunkFrame, chunkInstr, ← hoff, ← hnext]
      cases verify with
      | true => exact uverify (h.phase.trans hphase)
      | false => exact uwrite (h.phase.trans hphase)
    rw [hwire, h.wire, List.range_succ, List.flatMap_append, List.flatMap_singleton, List.append_assoc]

/-- From the start of a pass, `3 * k` steps send and count its first `k` chunks. -/
theorem runSteps_passAt {verify : Bool} {image : List Byte} {rest : List Event} {s : State}
    (h : PassAt verify image rest s 0 s) (hs : InPassOver verify image s) {k : Nat} (hk : k ≤ chunkCount image) :
    ∃ t, runSteps (3 * k) s = .next t ∧ PassAt verify image rest s k t := by
  induction k with
  | zero => exact ⟨s, rfl, h⟩
  | succ k ih =>
    obtain ⟨t, hrun, ht⟩ := ih (by omega)
    obtain ⟨u, hround, hu⟩ := ht.round hs hk
    exact ⟨u, (runSteps_add 3 hrun).trans hround, hu⟩

/-- Settles O40: the rounds of a pass in turn, one for each chunk, and the chunks joined are the image. -/
theorem passSendsWholeImage : Obligations.PassSendsWholeImage := by
  refine ⟨fun image => ?_, fun s image rest verify _ hp hr hg hi hacc hcalls ho hl himg hq => ?_⟩
  · rw [flatMap_chunkBytes, List.take_of_length_le (length_le_chunkCount image)]
  · have hstart : PassAt verify image rest s 0 s :=
      ⟨rfl, hr, hg, hi, hacc, hcalls, rfl, rfl, by simp [ho], rfl, hq, by simp⟩
    obtain ⟨t, hrun, ht⟩ := runSteps_passAt hstart ⟨hp, hl, himg⟩ (Nat.le_refl _)
    have hoffset : t.offset.toNat = image.length :=
      ht.offset.trans (Nat.min_eq_right (length_le_chunkCount image))
    have hinbox : t.inbox = rest := by rw [ht.inbox, List.drop_of_length_le (by simp)]; rfl
    exact ⟨t, hrun, ht.phase, ht.rstep, ht.tgst, hoffset, ht.callid, hinbox, ht.calls, ht.acc, ht.fbst, ht.img,
      ht.ilen, ht.wire⟩

end Sys2Proof.Machine
end

section
/-! SUPPORT. `RESULT` (43_sequencer.md R133; 92_eei_decisions.md D25): where a step takes a queued one, and what it
answers. -/

namespace Sys2Proof.Machine

/-- The phases in which no session runs (10_state.md R25). -/
theorem phase_of_not_busy {p : Phase} (hb : busy p = false) : p = .idle ∨ p = .complete ∨ p = .failed := by
  revert hb
  cases p <;> simp [busy]

/-- With no session running nothing is fetched between rounds (43_sequencer.md R122 to R127). -/
theorem fetch_of_not_busy {s : State} (hb : busy s.phase = false) (hr : s.rstep = .build) : fetch s = none := by
  rcases phase_of_not_busy hb with hp | hp | hp <;> simp [fetch, nextCommand, hr, hp]

/-- Where the Sequencer has no step of its own to make, a queued event that is no acknowledgment is taken (log 2). -/
theorem step_queued {s : State} {e : Event} {rest : List Event} (hw : s.rstep ≠ .build ∨ busy s.phase = false)
    (hq : s.inbox = e :: rest) (ha : arrivedAck s = none) : step s = takeEvent e { s with inbox := rest } := by
  rw [← awaitEvent_queued hq]
  by_cases hr : s.rstep = .build
  · have hb := hw.resolve_left (not_not_intro hr)
    have hp : s.phase ≠ .writingFirmware := by
      intro hp
      simp [hp, busy] at hb
    simp [step, fetch_of_not_busy hb hr, withoutInstr, hp]
  · exact step_awaits hr (fetch_of_no_ack hr ha)

/-- Settles O51: the answer is added to the list of answers and nothing else moves, and the step only takes the event from
the queue. -/
theorem resultReadsWithoutEffect : Obligations.ResultReadsWithoutEffect := by
  refine ⟨fun s => ⟨readResult s, rfl, rfl, rfl⟩, fun s rest hw hq => ?_, fun s => ?_⟩
  · have ha : arrivedAck s = none := by simp [arrivedAck, hq]
    exact ⟨readResult { s with inbox := rest }, step_queued hw hq ha, rfl, rfl⟩
  · cases s.phase <;> decide

end Sys2Proof.Machine
end

section
/-! SUPPORT. The guard matches the round (10_state.md R20, R22, R23; 60_exceptions.md R157): a sent frame and an issued
read arm the timer in their own step of a round, and whatever ends a call disarms it. -/

namespace Sys2Proof.Machine

/-- Between the rounds, with the timer disarmed, the guard matches in every phase. -/
theorem guardMatchesRound_of_idle {s : State} (hg : s.tgst = .idle) (hr : s.rstep = .build) (hz : s.timer = 0) :
    GuardMatchesRound s := by
  simp [GuardMatchesRound, hg, hr, hz]

/-- A pending write of a running session matches `S_SEND`, whatever time is left. -/
theorem guardMatchesRound_of_writing {s : State} (hg : s.tgst = .writing) (hr : s.rstep = .send)
    (hb : busy s.phase = true) : GuardMatchesRound s := by
  simp [GuardMatchesRound, hg, hr, hb]

/-- A pending read of a round with an acknowledgment matches `S_RECV`, whatever time is left. -/
theorem guardMatchesRound_of_reading {s : State} (hg : s.tgst = .reading) (hr : s.rstep = .recv)
    (ha : awaitsAck s.phase = true) : GuardMatchesRound s := by
  simp [GuardMatchesRound, hg, hr, ha, busy_of_awaitsAck ha]

/-- Every round of a session but End's awaits an acknowledgment (42_commands.md R110, R114). -/
theorem awaitsAck_of_busy {p : Phase} (hb : busy p = true) (hp : p ≠ .ending) : awaitsAck p = true := by
  revert hb hp
  cases p <;> simp [awaitsAck, busy]

/-- The reaction to the outcome of an ended call ends the round or issues its read. -/
theorem Delivered.guardMatchesRound {g : GuardState} {o : CallOutcome} {s t : State} (h : Delivered g o s t)
    (hi : s.tgst = .idle) (hz : s.timer = 0) : GuardMatchesRound t := by
  cases h with
  | sent _ _ _ hb hp => exact guardMatchesRound_of_reading rfl rfl (awaitsAck_of_busy hb hp)
  | failed => exact guardMatchesRound_of_idle hi rfl hz
  | completed => exact guardMatchesRound_of_idle hi rfl hz
  | erased => exact guardMatchesRound_of_idle hi rfl hz
  | counted => exact guardMatchesRound_of_idle hi rfl hz

/-- Less time left is as good: only a disarmed timer has to stay so. -/
theorem GuardMatchesRound.lessTime {s : State} (hs : GuardMatchesRound s) {k : Nat} (hk : k ≤ s.timer) :
    GuardMatchesRound { s with timer := k } := by
  obtain ⟨hidle, hwriting, hreading, hbusy, hack, htimer⟩ := hs
  exact ⟨hidle, hwriting, hreading, hbusy, hack, fun hi => Nat.le_zero.1 (htimer hi ▸ hk)⟩

/-- A start, which finds no call pending, leaves none (43_sequencer.md R120). -/
theorem GuardMatchesRound.startOn {s : State} (hs : GuardMatchesRound s) (hb : busy s.phase = false)
    (bytes : List Byte) : GuardMatchesRound (startOn bytes s) := by
  have hi := hs.idle_of_not_busy hb
  obtain ⟨_, _, _, _, _, htimer⟩ := hs
  exact startOn_keeps (guardMatchesRound_of_idle hi rfl (htimer hi)) fun _ =>
    guardMatchesRound_of_idle hi rfl (htimer hi)

/-- An event ends the pending call, lets time pass, or leaves the guard and the round as they were. -/
theorem Taken.guardMatchesRound {e : Event} {s t : State} (h : Taken s e t) (hs : GuardMatchesRound s) :
    GuardMatchesRound t := by
  cases h with
  | ticked => exact tgTick_keeps fun _ hk => hs.lessTime hk
  | expired _ _ hz hd => exact hd.guardMatchesRound rfl hz
  | written _ _ _ _ _ hd => exact hd.guardMatchesRound (by simp) (by simp)
  | received _ _ _ _ _ _ hd => exact hd.guardMatchesRound rfl rfl
  | started src hb => exact hs.startOn hb src.bytes
  | restarted => exact guardMatchesRound_of_idle rfl rfl rfl
  | _ => exact hs

/-- Settles O55: a round is sent in a running session, its call ends with the timer disarmed, and outside a session
nothing arms it. -/
theorem stepKeepsGuardMatchesRound : Obligations.StepKeepsGuardMatchesRound := by
  intro s t hs hst
  cases step_form hst with
  | sent _ _ hu => exact guardMatchesRound_of_writing rfl rfl hu.busy_sent
  | verifying _ hr =>
    obtain ⟨hidle, _, _, _, _, htimer⟩ := hs
    have hi : s.tgst = .idle := hidle.2 hr
    exact guardMatchesRound_of_idle hi rfl (htimer hi)
  | taken _ _ _ _ ht => exact ht.guardMatchesRound hs
  | waited => exact hs

end Sys2Proof.Machine
end

section
/-! SUPPORT. What a recorded failure says and what follows it: an oversized image is one of a start alone
(60_exceptions.md R141), a malformed acknowledgment is not read again (R144), and the first error stays (R153, R154). -/

namespace Sys2Proof.Machine

/-! ### An oversized image -/

/-- From `s` to `t` the Frame Builder's buffer, the guard and the Transport are untouched (60_exceptions.md R141). -/
def TransportUntouched (s t : State) : Prop :=
  (∀ a, readByte .fbuf a t = readByte .fbuf a s) ∧ t.flen = s.flen ∧ t.fbst = s.fbst ∧ t.tgst = s.tgst ∧
    t.callid = s.callid ∧ t.timer = s.timer ∧ t.calls = s.calls ∧ t.wire = s.wire

/-- A start records an oversized image exactly when the true length is over the capacity (60_exceptions.md R141). -/
theorem startOn_errkind_iff (bytes : List Byte) (s : State) :
    (startOn bytes s).errkind = .oversizedImage ↔ Config.capacity < bytes.length := by
  rcases Nat.lt_or_ge Config.capacity bytes.length with hover | hfits
  · simp [startOn_over s hover, hover]
  · simp [startOn_fits s hfits, Nat.not_lt.2 hfits]

/-- A start, whatever the length, has no transport activity (43_sequencer.md R120). -/
theorem transportUntouched_startOn (bytes : List Byte) (s : State) : TransportUntouched s (startOn bytes s) :=
  startOn_keeps ⟨fun _ => rfl, rfl, rfl, rfl, rfl, rfl, rfl, rfl⟩ fun _ =>
    ⟨fun _ => rfl, rfl, rfl, rfl, rfl, rfl, rfl, rfl⟩

/-- No outcome of a call is recorded as an oversized image (60_exceptions.md R140, R141). -/
theorem Delivered.not_oversizedImage {g : GuardState} {o : CallOutcome} {s t : State} (h : Delivered g o s t)
    (hs : s.errkind ≠ .oversizedImage) : t.errkind ≠ .oversizedImage := by
  cases h with
  | failed _ _ _ _ _ _ hk => exact hk.2
  | _ => exact hs

/-- No event of a running session is recorded as an oversized image: a start is not among them (43_sequencer.md R135). -/
theorem Taken.not_oversizedImage {e : Event} {s t : State} (h : Taken s e t) (hb : busy s.phase = true)
    (hs : s.errkind ≠ .oversizedImage) : t.errkind ≠ .oversizedImage := by
  cases h with
  | ticked => exact tgTick_keeps (P := fun u => u.errkind ≠ .oversizedImage) fun _ _ => hs
  | expired _ _ _ hd => exact hd.not_oversizedImage hs
  | written _ _ _ _ _ hd => exact hd.not_oversizedImage (by simpa using hs)
  | received _ _ _ _ _ _ hd => exact hd.not_oversizedImage hs
  | started _ hidle => exact nomatch hb.symm.trans hidle
  | restarted => exact nofun
  | _ => exact hs

/-- Settles O27: a start decides by the length and leaves the transport alone, and a running session admits no start. -/
theorem oversizedImageTouchesNothing : Obligations.OversizedImageTouchesNothing := by
  refine ⟨fun src s t hst => ?_, fun s t hst hb hs => ?_⟩
  · obtain ⟨_, _, _, _, _, _, _, rfl⟩ := seqStart_next hst
    exact ⟨startOn_errkind_iff src.bytes s, fun _ => transportUntouched_startOn src.bytes s⟩
  · cases step_form hst with
    | sent _ _ hu => cases hu <;> exact hs
    | verifying => exact hs
    | taken _ _ _ _ ht => exact ht.not_oversizedImage hb hs
    | waited => exact hs

/-! ### A malformed acknowledgment -/

/-- Settles O32: the completed read is short, and after its failure the Sequencer has nothing to fetch. -/
theorem malformedAckIsNotReadAgain : Obligations.MalformedAckIsNotReadAgain := by
  intro s bytes rest hg hr ha hq hl
  have hle : bytes.length ≤ 2 := Nat.le_of_lt hl
  obtain ⟨t, ht, hend⟩ := afterRead_endRead (s := { s with inbox := rest }) false false ha hle
  refine ⟨t, (step_rdone hg hr ha hq hle).trans ht, ?_⟩
  cases hend with
  | short => exact ⟨rfl, rfl, rfl, rfl, fetch_of_not_busy rfl rfl⟩
  | _ => exact absurd hl (Nat.lt_irrefl 2)

/-! ### The first error -/

/-- From `s` to `t` the phase and the error registers stay, and no tag is issued (60_exceptions.md R153, R154). -/
def FailureKept (s t : State) : Prop :=
  t.phase = s.phase ∧ t.errkind = s.errkind ∧ t.errphase = s.errphase ∧ t.errstatus = s.errstatus ∧
    t.callid = s.callid

theorem FailureKept.refl (s : State) : FailureKept s s := ⟨rfl, rfl, rfl, rfl, rfl⟩

/-- With no session running only a start and the reset move the failure: no outcome is delivered (60_exceptions.md R153). -/
theorem Taken.failureKept {e : Event} {s t : State} (h : Taken s e t) (hb : busy s.phase = false) :
    FailureKept s t ∨ (∃ src, e = .seqStart src) ∨ e = .reset := by
  cases h with
  | ticked => exact .inl (tgTick_keeps fun _ _ => .refl s)
  | expired _ _ _ hd => exact nomatch hb.symm.trans hd.busy_before
  | written _ _ _ _ _ hd =>
    have hrunning := hd.busy_before
    rw [endWrite_phase] at hrunning
    exact nomatch hb.symm.trans hrunning
  | received _ _ _ _ _ _ hd => exact nomatch hb.symm.trans hd.busy_before
  | started src => exact .inr (.inl ⟨src, rfl⟩)
  | restarted => exact .inr (.inr rfl)
  | _ => exact .inl (.refl s)

/-- Settles O43: in `Failed` the Sequencer sends nothing and a call's outcome finds no session, so an event that moves the
failure is a queued start or reset. -/
theorem failedIsAbsorbing : Obligations.FailedIsAbsorbing := by
  intro s t hp hst
  have hb : busy s.phase = false := by rw [hp]; rfl
  rw [← hp]
  change FailureKept s t ∨ _
  cases step_form hst with
  | sent _ _ hu => exact nomatch hb.symm.trans hu.busy_phase
  | verifying hw => exact nomatch hp.symm.trans hw
  | taken _ rest _ hq ht =>
    rcases ht.failureKept hb with hkept | ⟨src, rfl⟩ | rfl
    · exact .inl hkept
    · exact .inr (.inl ⟨src, rest, hq.queued nofun nofun⟩)
    · exact .inr (.inr ⟨rest, hq.queued nofun nofun⟩)
  | waited => exact .inl (.refl s)

end Sys2Proof.Machine
end

section
/-! SUPPORT. What a reset leaves (70_reset_and_hazards.md R170, R171). -/

namespace Sys2Proof.Machine

/-- The block at its reset values over the other agents' part of `s`. -/
def resetOver (s : State) : State :=
  { State.reset with
    wire := s.wire
    calls := s.calls
    handleOpen := s.handleOpen
    inbox := s.inbox
    results := s.results
    drawn := s.drawn }

/-- With no call pending a reset leaves the Transport as it is (70_reset_and_hazards.md R170). -/
theorem resetBlock_of_idle {s : State} (h : s.tgst = .idle) : resetBlock s = resetOver s := by
  simp only [resetBlock, resetOver, if_pos h]

/-- Of a pending call the Transport first accepts an unknown part (70_reset_and_hazards.md R171; log 12). -/
theorem resetBlock_of_pending {s : State} (h : s.tgst ≠ .idle) :
    resetBlock s = resetOver (acceptDrawn s.callid s) := by
  simp only [resetBlock, resetOver, if_neg h]

/-- Settles O50: by whether a call is pending; the accepted part of one is cut from its bytes and its tag stays. -/
theorem resetForgetsCalls : Obligations.ResetForgetsCalls := by
  intro s
  refine ⟨resetBlock s, rfl, rfl, ?_⟩
  by_cases hg : s.tgst = .idle
  · have hwire : (resetOver s).wire = s.wire ++ (callBytes s.callid s.calls).take 0 := (List.append_nil _).symm
    rw [resetBlock_of_idle hg]
    exact ⟨rfl, rfl, rfl, fun _ => rfl, 0, hwire⟩
  · have htags : (resetOver (acceptDrawn s.callid s)).calls.map Call.tag = s.calls.map Call.tag :=
      map_tag_map_advanceCall ..
    rw [resetBlock_of_pending hg]
    exact ⟨htags, rfl, rfl, fun hidle => absurd hidle hg, Config.acceptedPart s.drawn, rfl⟩

end Sys2Proof.Machine
end
